-- ==== Sys2Proof/Word.lean ====
section
/-! DEFINITION. The word types of MEE: the 32-bit bus and command word (R51, R57), the 16-bit length
field (R24, R25) and the byte of a block buffer (R29). Everything else about them is in Machine/. -/

namespace Sys2Proof

/-- A 32-bit bus word (R10, R35) and a command word (R51). -/
abbrev Word := BitVec 32

/-- A 16-bit length field: `IN_LEN.LEN`, `OUT_LEN.LEN` (R24, R25). -/
abbrev Half := BitVec 16

/-- A byte of a block buffer or of a byte string (R12, R29). -/
abbrev Byte := BitVec 8

end Sys2Proof
end

