-- ==== Sys2Proof/Config.lean ====
section
/-! DEFINITION. What a platform or an implementation fixes (00_scope.md section 4), carried in the
state so that every statement ranges over all of it, and the one free value of the spec, `draw()`. -/

namespace Sys2Proof

/-- The parameters of one MEE: `MAXBYTES` (R5), `MEE_BASE` (R6) and `MEE_IRQ` (R7).
`MODMUL_VARIANT` (R8) and `LATENCY` (R9) are not architectural and have no field. -/
structure Config where
  /-- `MAXBYTES`: the capacity in bytes of each operand register and block buffer (R5). -/
  maxBytes : Nat
  /-- `MEE_BASE`: the bus address of the aperture (R6, OPEN). -/
  base : Nat
  /-- `MEE_IRQ`: the input of the host's interrupt controller that `IRQ` is wired to (R7, OPEN). -/
  irqInput : Nat
  deriving DecidableEq, Repr

/-- The parameters of `State.reset`: R5's default of 256 for `MAXBYTES`; 0 for the two OPEN platform
parameters. DESIGN CHOICE, unsafe (log entry 5): no statement rests on the two zeros. -/
def Config.standard : Config := { maxBytes := 256, base := 0, irqInput := 0 }

/-- `draw()` (R13, R106): the k-th value the hardware does not fix. It has no body: nothing in Lean
can evaluate it, so a claim about it holds whatever the value is. That it depends on `k` alone, and not on
the results, is a DESIGN CHOICE, unsafe for claims of secrecy (log entry 4). -/
opaque Config.draw : Nat → Word

end Sys2Proof
end

