-- ==== Sys2Proof/Syntax.lean ====
section
/-! DEFINITION. The commands of MEE: one constructor per row of spec/opcode_table.json (R2, R52).
A command word has no operand, immediate, register number or mode field (R54). -/

namespace Sys2Proof

/-- The six commands (R2). A reserved command word is no command: the decoder rejects it (R53). -/
inductive Instr where
  /-- NOP: nothing is computed (R64). -/
  | nop
  /-- MODMUL: `(A * B) mod N` (R75). -/
  | modmul
  /-- MODEXP: `A^E mod N` (R69). -/
  | modexp
  /-- MODINV: the inverse of `A` modulo `N`, and `gcd(A, N)` (R71). -/
  | modinv
  /-- ENC_BLOCK: one plaintext block to one ciphertext block (R79). -/
  | encBlock
  /-- DEC_BLOCK: one ciphertext block to one plaintext block (R80). -/
  | decBlock
  deriving DecidableEq, Repr

end Sys2Proof
end

