-- ==== Sys2Proof/WellFormed.lean ====
section
/-! DEFINITION. Which parameters, command words and commands are well formed. A command has no
operands (R54), so its own check holds of every command; the checks that can fail are those on the
parameters (R5, R6, R18) and on the fields of a command word (R51, R52, R55). -/

namespace Sys2Proof

/-- R5: `MAXBYTES` is a multiple of 4 in `[4, 4096]`. -/
def Config.maxBytesOk (c : Config) : Bool := c.maxBytes % 4 == 0 && 4 ≤ c.maxBytes && c.maxBytes ≤ 4096

/-- R6: `MEE_BASE` is a multiple of 64 KiB. -/
def Config.baseOk (c : Config) : Bool := c.base % 0x10000 == 0

/-- The legal parameters (R5, R6). `MEE_IRQ` may be any input (R7). -/
def Config.ok (c : Config) : Bool := c.maxBytesOk && c.baseOk

/-- R51: the field RSV, bits [31:4], must be 0. -/
def rsvOk (w : Word) : Bool := w.extractLsb' 4 28 == 0

/-- R52, R55: OPCODE, bits [3:0], is one of the six assigned values 0x0 to 0x5. -/
def opcodeOk (w : Word) : Bool := (w.extractLsb' 0 4).toNat ≤ 5

/-- A command word that is not reserved (R55). -/
def commandWordOk (w : Word) : Bool := rsvOk w && opcodeOk w

/-- R54: a command has no operand, immediate, register number or mode, so each one is well formed. -/
def Instr.wellFormed : Instr → Bool
  | .nop => true
  | .modmul => true
  | .modexp => true
  | .modinv => true
  | .encBlock => true
  | .decBlock => true

end Sys2Proof
end

