-- ==== Sys2Proof/Decode.lean ====
section
/-! DEFINITION. The decoder of a command word, total on every 32-bit word and rejecting by name (R53),
then the encoder, written from the opcode map (R51, R52). There is one length and no mode that
changes decoding (R56). -/

namespace Sys2Proof

/-- Why a command word is ILLEGAL (R53, R55). -/
inductive Reject where
  /-- `w[31:4] != 0`. -/
  | reservedBits
  /-- `w[31:4] = 0` and `w[3:0]` is one of 0x6 to 0xF. -/
  | reservedOpcode
  deriving DecidableEq, Repr

/-- The field OPCODE, bits [3:0] (R51). -/
def opcodeField (w : Word) : BitVec 4 := w.extractLsb' 0 4

/-- The field RSV, bits [31:4] (R51). -/
def rsvField (w : Word) : BitVec 28 := w.extractLsb' 4 28

/-- The opcode map (R52). -/
def opcodeCommand (op : BitVec 4) : Option Instr :=
  if op = 0x0#4 then some .nop
  else if op = 0x1#4 then some .modmul
  else if op = 0x2#4 then some .modexp
  else if op = 0x3#4 then some .modinv
  else if op = 0x4#4 then some .encBlock
  else if op = 0x5#4 then some .decBlock
  else none

/-- R53: `decode(w)`. A rejected word is the spec's ILLEGAL. -/
def decode (w : Word) : Except Reject Instr :=
  if rsvField w ≠ 0 then .error .reservedBits
  else match opcodeCommand (opcodeField w) with
    | some i => .ok i
    | none => .error .reservedOpcode

/-- The OPCODE of a command (R52). -/
def opcodeOf : Instr → BitVec 4
  | .nop => 0x0#4
  | .modmul => 0x1#4
  | .modexp => 0x2#4
  | .modinv => 0x3#4
  | .encBlock => 0x4#4
  | .decBlock => 0x5#4

/-- The command word of a command: `RSV = 0` above the OPCODE (R51, R52). -/
def encode (i : Instr) : Word := 0#28 ++ opcodeOf i

/-- The command read from an instruction of `nbits` bits numbered as spec/opcode_table.json numbers
them: a command is one 32-bit word that the host writes whole (R35, R51, R56), so the number is the
word. A number that does not fit in one word is no command word. -/
def decodeTableWord (nbits w : Nat) : Option Instr :=
  if w % 2 ^ nbits < 2 ^ 32 then (decode (BitVec.ofNat 32 (w % 2 ^ nbits))).toOption else none

end Sys2Proof
end

