-- ==== Sys2Proof/Machine/State.lean ====
section
/-! DEFINITION. The state of MEE as plain data: every piece R15 names, the parameters of the machine,
and the model's own fields (the agents' steps to come, the last bus response, the free-value counter,
the level of the reset input). State after reset is R32's. -/

namespace Sys2Proof.Machine

/-- Bytes of a block buffer by index, in one canonical form (`Memory.wf`). A byte that is not listed
reads 0x00, its reset value (R32). -/
abbrev Memory := List Host.Cell

/-- The canonical form: indexes strictly rising, and no entry equal to what an unlisted byte reads as. -/
abbrev Memory.wf (m : Memory) : Prop := m.Pairwise (fun p q => p.1 < q.1) ∧ ∀ p ∈ m, p.2 ≠ 0#8

/-- The width of a bus access (R35): only `w32` is accepted. -/
inductive AccessWidth where
  | w8
  | w16
  | w32
  | w64
  deriving DecidableEq, Repr

/-- One host bus transaction (R13, R35). A write carries its byte enables; R35 accepts only a write
with every byte lane enabled (log entry 8). -/
inductive Access where
  /-- A read of the given width at a bus address. -/
  | read (addr : Nat) (width : AccessWidth)
  /-- A write of the given width, with its byte enables, of a word at a bus address. -/
  | write (addr : Nat) (width : AccessWidth) (lanes : BitVec 4) (data : Word)
  deriving DecidableEq, Repr

/-- One step of one agent (R14). -/
inductive Event where
  /-- The host performs one bus transaction. -/
  | host (access : Access)
  /-- The engine is given a turn: the completion step, if `BUSY = 1` (R61). -/
  | engine
  /-- The reset source asserts the hardware reset input (R102). -/
  | resetAssert
  /-- The reset source releases the hardware reset input (R102). -/
  | resetRelease
  deriving DecidableEq, Repr

/-- What the bus answered to a host transaction (R38, R39, R90). -/
inductive Response where
  /-- No transaction has been performed yet. -/
  | none
  /-- A read returned this word. -/
  | data (w : Word)
  /-- A write completed normally. -/
  | written
  /-- `raise BusError(addr)`: the error response; no data, no effect (R90). -/
  | busError (addr : Nat)
  /-- The address is outside the aperture: the transaction is not addressed to MEE (log entry 7). -/
  | unclaimed
  deriving DecidableEq, Repr

/-- The error codes of R88. -/
inductive ErrCode where
  /-- 0: success. -/
  | ok
  /-- 1: a reserved command word (R55). -/
  | illegalCmd
  /-- 2: `N = 0`. -/
  | modulusZero
  /-- 3: `IN_LEN` too long for the block command. -/
  | length
  /-- 4: `gcd(A, N) != 1`. -/
  | notCoprime
  deriving DecidableEq, Repr

/-- The whole state. -/
structure State where
  /-- The parameters of this MEE (R5, R6, R7); no step changes them. -/
  cfg : Config
  /-- Register A (R27). -/
  a : Nat
  /-- Register B (R27). -/
  b : Nat
  /-- Register E (R27). -/
  e : Nat
  /-- Register N (R27). -/
  n : Nat
  /-- Result register R (R27). -/
  r : Nat
  /-- Result register G (R27). -/
  g : Nat
  /-- IN_BUF (R29). -/
  inBuf : Memory
  /-- OUT_BUF (R29). -/
  outBuf : Memory
  /-- CTRL.IRQ_EN (R21). -/
  irqEn : Bool
  /-- STATUS.BUSY (R23). -/
  busy : Bool
  /-- STATUS.DONE (R23). -/
  done : Bool
  /-- STATUS.OVR (R23). -/
  ovr : Bool
  /-- STATUS.WBUSY (R23). -/
  wbusy : Bool
  /-- STATUS.ERR (R23, R88). -/
  err : BitVec 4
  /-- IN_LEN.LEN (R24). -/
  inLen : Half
  /-- OUT_LEN.LEN (R25). -/
  outLen : Half
  /-- CUR_CMD, the hidden command word in flight (R31). -/
  curCmd : Word
  /-- The MODEL's own: the reset input is asserted (R102, log entry 9). -/
  rstLine : Bool
  /-- The MODEL's own: the agents' steps still to come, in their total order (R46, log entry 1). -/
  agenda : List Event
  /-- The MODEL's own: the response to the last host transaction (log entry 6). -/
  resp : Response
  /-- The MODEL's own: how many values `draw()` has given (R106, log entry 4). -/
  draws : Nat
  deriving DecidableEq, Repr

/-- Why a step stops the machine. -/
inductive Fault where
  /-- A host access while the hardware reset input is asserted, raised by the host's turn: R102 puts
  it outside the spec and 93_implementation_defined.md row 5 calls it stuck. Safe: the model promises
  nothing after it (log entry 9). -/
  | accessDuringReset
  deriving DecidableEq, Repr

/-- Why an instruction has no meaning. -/
inductive Refusal where
  /-- A command whose meaning is not written yet, named by its mnemonic; raised by an arm of exec and
  by nothing else. Safe: the machine stops. No arm raises it in this model. -/
  | notModelled (mnemonic : String)
  deriving DecidableEq, Repr

/-- R32: the state after a hardware or soft reset, for any parameters. The model's own fields are at
their DESIGN CHOICE values (log entries 1, 4, 6, 9): no step listed, no response, no draw, line low. -/
def State.resetWith (c : Config) : State where
  cfg := c
  a := 0
  b := 0
  e := 0
  n := 0
  r := 0
  g := 0
  inBuf := []
  outBuf := []
  irqEn := false
  busy := false
  done := false
  ovr := false
  wbusy := false
  err := 0
  inLen := 0
  outLen := 0
  curCmd := 0
  rstLine := false
  agenda := []
  resp := .none
  draws := 0

/-- The machine right after reset (R32), with the parameters of `Config.standard` (log entry 5). -/
def State.reset : State := State.resetWith Config.standard

end Sys2Proof.Machine
end

