-- ==== Sys2Proof/Machine/Operands.lean ====
section
/-! DEFINITION. How operands are read and results are laid out: the number and byte-string primitives
(R11, R12), words of a big-integer register (R28), bytes and words of a block buffer (R29), and the
input block of ENC_BLOCK and DEC_BLOCK (R54). -/

namespace Sys2Proof.Machine

/-- R11: the number of bits of `v` without leading zeros; 0 for 0. -/
def bitlen (v : Nat) : Nat := if v = 0 then 0 else Nat.log2 v + 1

/-- R12: `byteLength(v)`; 0 for 0. -/
def byteLength (v : Nat) : Nat := (bitlen v + 7) / 8

/-- R12: `be_int`, bytes as an unsigned big-endian integer. -/
def beInt : List Byte → Nat
  | [] => 0
  | x :: xs => x.toNat * 256 ^ xs.length + beInt xs

/-- R12: `be_bytes(v, k)`, the `k`-byte big-endian string of `v` (of its low `k` bytes: the spec
defines it only for `v < 256^k`, and the commands use it only there). -/
def beBytes (v : Nat) : Nat → List Byte
  | 0 => []
  | k + 1 => BitVec.ofNat 8 (v / 256 ^ k) :: beBytes v k

/-- R12: `minimal(v)`; empty for 0. -/
def minimal (v : Nat) : List Byte := beBytes v (byteLength v)

/-- R28: `word_k(X)`. -/
def bigWord (x k : Nat) : Word := BitVec.ofNat 32 (x / 2 ^ (32 * k))

/-- R28: the register after a host write of `w` to word `k`. -/
def setBigWord (x k : Nat) (w : Word) : Nat :=
  x - (bigWord x k).toNat * 2 ^ (32 * k) + w.toNat * 2 ^ (32 * k)

/-- The byte at index `i`; an unlisted byte is 0x00 (R32). -/
def Memory.read : Memory → Nat → Byte
  | [], _ => 0
  | (j, v) :: m, i => if j = i then v else Memory.read m i

/-- The buffer with byte `i` set to `v`, kept in canonical form. -/
def Memory.write : Memory → Nat → Byte → Memory
  | [], i, v => if v = 0 then [] else [(i, v)]
  | (j, u) :: m, i, v =>
    if i < j then (if v = 0 then (j, u) :: m else (i, v) :: (j, u) :: m)
    else if i = j then (if v = 0 then m else (i, v) :: m)
    else (j, u) :: Memory.write m i v

/-- The buffer that holds the bytes `s` from index `i` on, and 0x00 everywhere else. -/
def Memory.ofBytesFrom (i : Nat) : List Byte → Memory
  | [] => []
  | x :: xs => if x = 0 then Memory.ofBytesFrom (i + 1) xs else (i, x) :: Memory.ofBytesFrom (i + 1) xs

/-- R79, R80: the buffer whose first bytes are `s` and whose rest is 0x00. -/
def Memory.ofBytes (s : List Byte) : Memory := Memory.ofBytesFrom 0 s

/-- R29: word `k` of a buffer reads `{buf[4k+3], buf[4k+2], buf[4k+1], buf[4k]}`. -/
def Memory.readWord (m : Memory) (k : Nat) : Word :=
  m.read (4 * k + 3) ++ m.read (4 * k + 2) ++ m.read (4 * k + 1) ++ m.read (4 * k)

/-- R29: byte `j` of a bus word, `w[8j+7:8j]`. -/
def wordByte (w : Word) (j : Nat) : Byte := w.extractLsb' (8 * j) 8

/-- R29: the buffer after a host write of `w` to word `k`: `buf[4k+j] <- w[8j+7:8j]`. -/
def Memory.writeWord (m : Memory) (k : Nat) (w : Word) : Memory :=
  (((m.write (4 * k) (wordByte w 0)).write (4 * k + 1) (wordByte w 1)).write
    (4 * k + 2) (wordByte w 2)).write (4 * k + 3) (wordByte w 3)

/-- The bytes `buf[i .. i + len)`. -/
def Memory.bytesFrom (m : Memory) (i : Nat) : Nat → List Byte
  | 0 => []
  | len + 1 => m.read i :: m.bytesFrom (i + 1) len

/-- `L = byteLength(N)` (R26, R78). -/
def State.modLen (s : State) : Nat := byteLength s.n

/-- R54: the input block's integer `be_int(IN_BUF[0 .. IN_LEN.LEN))`; bytes past `IN_LEN` are not read. -/
def State.blockInt (s : State) : Nat := beInt (s.inBuf.bytesFrom 0 s.inLen.toNat)

end Sys2Proof.Machine
end

