-- ==== Sys2Proof/Machine/Flags.lean ====
section
/-! DEFINITION. The control and status words as the host reads and writes them (R19 to R26), the error
codes (R88) and the interrupt output (R91). MEE has no condition codes (R30). -/

namespace Sys2Proof.Machine

/-- R88: the 4-bit code of an error. -/
def ErrCode.bits : ErrCode → BitVec 4
  | .ok => 0
  | .illegalCmd => 1
  | .modulusZero => 2
  | .length => 3
  | .notCoprime => 4

/-- R19: the constant `ID`. -/
def idWord : Word := 0x4D454501#32

/-- R20: `{16'b0, MAXBYTES[15:0]}`. -/
def paramWord (c : Config) : Word := 0#16 ++ BitVec.ofNat 16 c.maxBytes

/-- R21: `{31'b0, CTRL.IRQ_EN}`; SRST reads 0. -/
def State.ctrlWord (s : State) : Word := 0#31 ++ BitVec.ofBool s.irqEn

/-- R23: `{24'b0, ERR[3:0], WBUSY, OVR, DONE, BUSY}`. -/
def State.statusWord (s : State) : Word :=
  0#24 ++ s.err ++ BitVec.ofBool s.wbusy ++ BitVec.ofBool s.ovr ++ BitVec.ofBool s.done ++ BitVec.ofBool s.busy

/-- R24: `{16'b0, IN_LEN[15:0]}`. -/
def State.inLenWord (s : State) : Word := 0#16 ++ s.inLen

/-- R25: `{16'b0, OUT_LEN[15:0]}`, while idle. -/
def State.outLenWord (s : State) : Word := 0#16 ++ s.outLen

/-- R26: `{16'b0, byteLength(N)[15:0]}`. -/
def State.nlenWord (s : State) : Word := 0#16 ++ BitVec.ofNat 16 s.modLen

/-- R91: the level of the interrupt output, `CTRL.IRQ_EN and STATUS.DONE`. -/
def State.irq (s : State) : Bool := s.irqEn && s.done

/-- R7, R91: the interrupt as the platform sees it: the input `MEE_IRQ` and its level. -/
def State.irqInput (s : State) : Nat × Bool := (s.cfg.irqInput, s.irq)

/-- R23: the host's write of `w` to STATUS: DONE, OVR and WBUSY are write-1-to-clear, nothing else changes. -/
def State.clearStatus (s : State) (w : Word) : State :=
  { s with done := s.done && !w.getLsbD 1, ovr := s.ovr && !w.getLsbD 2, wbusy := s.wbusy && !w.getLsbD 3 }

end Sys2Proof.Machine
end

