-- ==== Sys2Proof/Machine/Ops.lean ====
section
/-! DEFINITION. The named operations the commands and the bus share: `complete(code)` (R62), which is
what an error of a command is (MEE has no trap entry and no return from one: R93, R94), acceptance and
refusal of a command word (R59, R60), dropping an operand write (R105), the reset action (R102, R103),
`draw()` (R106), the check of the modulus (R63) and the result writes. -/

namespace Sys2Proof.Machine

/-- What one step of the machine answers. -/
abbrev StepResult := Host.Outcome State Fault Refusal

/-- R62: `complete(code)`: `ERR <- code`, `BUSY <- 0`, `DONE <- 1`. The result writes that the command's
rule lists for `code` are made in the same step, before it. -/
def State.complete (s : State) (code : ErrCode) : State :=
  { s with err := code.bits, busy := false, done := true }

/-- R59: acceptance of the command word `w`. -/
def State.accept (s : State) (w : Word) : State :=
  { s with curCmd := w, busy := true, done := false, err := 0 }

/-- R60: a `CMD` write while busy is refused: `OVR <- 1`. -/
def State.refuseCmd (s : State) : State := { s with ovr := true }

/-- R22: a host write of `w` to `CMD`. -/
def State.writeCmd (s : State) (w : Word) : State := if s.busy then s.refuseCmd else s.accept w

/-- R105: a write to an operand register, `IN_BUF` or `IN_LEN` while busy is dropped: `WBUSY <- 1`. -/
def State.dropWrite (s : State) : State := { s with wbusy := true }

/-- R39, R105: an operand write takes effect while idle and is dropped while busy. -/
def State.writeOperand (s written : State) : State := if s.busy then s.dropWrite else written

/-- R102, R103: every piece of R15's state takes its value of R32 in one step. The parameters, the level
of the reset input, the listed steps, the last response and the count of draws are not R15's state. -/
def State.resetState (s : State) : State :=
  { State.resetWith s.cfg with rstLine := s.rstLine, agenda := s.agenda, resp := s.resp, draws := s.draws }

/-- R21: a host write of `w` to `CTRL`. -/
def State.writeCtrl (s : State) (w : Word) : State :=
  if w.getLsbD 1 then s.resetState else { s with irqEn := w.getLsbD 0 }

/-- The bus answers the host's transaction (log entry 6). -/
def State.respond (s : State) (x : Response) : State := { s with resp := x }

/-- The reset input's level (R102, log entry 9). -/
def State.setLine (s : State) (level : Bool) : State := { s with rstLine := level }

/-- The agents' steps still to come (log entry 1). -/
def State.withAgenda (s : State) (steps : List Event) : State := { s with agenda := steps }

/-- R106: the value of a `draw()`, a free value (log entry 4). -/
def State.drawn (s : State) : Word := Config.draw s.draws

/-- A fresh value for the next `draw()`. -/
def State.afterDraw (s : State) : State := { s with draws := s.draws + 1 }

/-- The result register R takes `v` (R62). -/
def State.setR (s : State) (v : Nat) : State := { s with r := v }

/-- The result register G takes `v` (R62). -/
def State.setG (s : State) (v : Nat) : State := { s with g := v }

/-- R79, R80: the block `bytes` goes to the start of OUT_BUF and 0x00 to the rest, its length to
OUT_LEN, and its integer `v` to R. -/
def State.storeBlock (s : State) (bytes : List Byte) (v : Nat) : State :=
  { s with outBuf := Memory.ofBytes bytes, outLen := BitVec.ofNat 16 bytes.length, r := v }

/-- R63, check 2: `N = 0` completes with MODULUS_ZERO and no result write; else the command goes on. -/
def State.withModulus (s : State) (go : StepResult) : StepResult :=
  if s.n = 0 then .next (s.complete .modulusZero) else go

/-- R63, check 3: a block longer than `limit` bytes completes with LENGTH and no result write. -/
def State.withBlockLen (s : State) (limit : Nat) (go : StepResult) : StepResult :=
  if limit < s.inLen.toNat then .next (s.complete .length) else go

end Sys2Proof.Machine
end

