-- ==== Sys2Proof/Machine/Bus.lean ====
section
/-! DEFINITION. The host's bus interface: the register map (R18), which accesses are accepted (R33, R35,
R36), what a read returns (R38) and what a write does (R39, R40). -/

namespace Sys2Proof.Machine

/-- The eight windows of the aperture (R18). -/
inductive Window where
  | a
  | b
  | e
  | n
  | r
  | g
  | inBuf
  | outBuf
  deriving DecidableEq, Repr

/-- What an offset names (R18). -/
inductive Reg where
  | id
  | param
  | ctrl
  | cmd
  | status
  | inLen
  | outLen
  | nlen
  /-- Word `k` of a window, `0 <= k < MAXBYTES/4`. -/
  | word (win : Window) (k : Nat)
  /-- A reserved offset (R37). -/
  | reserved
  deriving DecidableEq, Repr

/-- R18: the window whose 4 KiB range has the number `j`. -/
def windowOf (j : Nat) : Option Window :=
  if j = 1 then some .a
  else if j = 2 then some .b
  else if j = 3 then some .e
  else if j = 4 then some .n
  else if j = 5 then some .r
  else if j = 6 then some .g
  else if j = 7 then some .inBuf
  else if j = 8 then some .outBuf
  else none

/-- R18: the control and status registers, below 0x0020. -/
def controlReg (off : Nat) : Reg :=
  if off = 0x0000 then .id
  else if off = 0x0004 then .param
  else if off = 0x0008 then .ctrl
  else if off = 0x000C then .cmd
  else if off = 0x0010 then .status
  else if off = 0x0014 then .inLen
  else if off = 0x0018 then .outLen
  else if off = 0x001C then .nlen
  else .reserved

/-- R18, R37: what the word-aligned offset `off` names. Inside a window, a word at window offset
`>= MAXBYTES` is reserved. -/
def regAt (c : Config) (off : Nat) : Reg :=
  if off < 0x1000 then controlReg off
  else match windowOf (off / 0x1000) with
    | some win => if off % 0x1000 < c.maxBytes then .word win (off % 0x1000 / 4) else .reserved
    | none => .reserved

/-- R38: the word a window's word `k` holds. -/
def State.windowWord (s : State) (win : Window) (k : Nat) : Word :=
  match win with
  | .a => bigWord s.a k
  | .b => bigWord s.b k
  | .e => bigWord s.e k
  | .n => bigWord s.n k
  | .r => bigWord s.r k
  | .g => bigWord s.g k
  | .inBuf => s.inBuf.readWord k
  | .outBuf => s.outBuf.readWord k

/-- R106: the registers a host reads as `draw()` while `BUSY = 1`: R, G, OUT_BUF and OUT_LEN. -/
def Reg.isResult : Reg → Bool
  | .outLen => true
  | .word .r _ => true
  | .word .g _ => true
  | .word .outBuf _ => true
  | _ => false

/-- R38: the defined value of a register. -/
def State.regWord (s : State) : Reg → Word
  | .id => idWord
  | .param => paramWord s.cfg
  | .ctrl => s.ctrlWord
  | .cmd => 0
  | .status => s.statusWord
  | .inLen => s.inLenWord
  | .outLen => s.outLenWord
  | .nlen => s.nlenWord
  | .word win k => s.windowWord win k
  | .reserved => 0

/-- R38, R43, R106: a host read. It changes no state of MEE; a result register read while busy gives a
fresh free value. -/
def State.readReg (s : State) (x : Reg) : State :=
  if s.busy && x.isResult then s.afterDraw.respond (.data s.drawn)
  else s.respond (.data (s.regWord x))

/-- R39: a host write of `w` to word `k` of a window. R, G and OUT_BUF are read-only (R40). -/
def State.writeWindow (s : State) (win : Window) (k : Nat) (w : Word) : State :=
  match win with
  | .a => s.writeOperand { s with a := setBigWord s.a k w }
  | .b => s.writeOperand { s with b := setBigWord s.b k w }
  | .e => s.writeOperand { s with e := setBigWord s.e k w }
  | .n => s.writeOperand { s with n := setBigWord s.n k w }
  | .r => s
  | .g => s
  | .inBuf => s.writeOperand { s with inBuf := s.inBuf.writeWord k w }
  | .outBuf => s

/-- R39: the effect of a host write of `w` on MEE's state. -/
def State.effectOfWrite (s : State) (x : Reg) (w : Word) : State :=
  match x with
  | .id => s
  | .param => s
  | .ctrl => s.writeCtrl w
  | .cmd => s.writeCmd w
  | .status => s.clearStatus w
  | .inLen => s.writeOperand { s with inLen := w.extractLsb' 0 16 }
  | .outLen => s
  | .nlen => s
  | .word win k => s.writeWindow win k w
  | .reserved => s

/-- R39: a host write; it completes normally whatever its effect. -/
def State.writeReg (s : State) (x : Reg) (w : Word) : State :=
  (s.effectOfWrite x w).respond .written

/-- R33: the aperture holds the address. -/
def inAperture (c : Config) (addr : Nat) : Bool := c.base ≤ addr && addr < c.base + 0x10000

/-- The address of an access. -/
def Access.addr : Access → Nat
  | .read addr _ => addr
  | .write addr _ _ _ => addr

/-- R35, R36: 32 bits wide, every byte lane enabled, word-aligned. -/
def Access.accepted : Access → Bool
  | .read addr width => width == .w32 && addr % 4 == 0
  | .write addr width lanes _ => width == .w32 && lanes == 0xF#4 && addr % 4 == 0

/-- One accepted host transaction (R38, R39). -/
def State.transact (s : State) : Access → State
  | .read addr _ => s.readReg (regAt s.cfg (addr - s.cfg.base))
  | .write addr _ _ w => s.writeReg (regAt s.cfg (addr - s.cfg.base)) w

/-- One host transaction: outside the aperture it is not MEE's (log entry 7); a form that R35 or R36
refuses gets a bus error and has no effect (R90); every other one is served. -/
def State.hostAccess (s : State) (x : Access) : State :=
  if !inAperture s.cfg x.addr then s.respond .unclaimed
  else if !x.accepted then s.respond (.busError x.addr)
  else s.transact x

end Sys2Proof.Machine
end

