-- ==== Sys2Proof/Machine/Arithmetic.lean ====
section
/-! DEFINITION. The arithmetic of MEE over unbounded natural numbers (R11, R68) and the commands MODMUL
(R75), MODEXP (R69) and MODINV (R71). -/

namespace Sys2Proof.Machine

/-- R75: `(a * b) mod n`, exact. -/
def modMul (a b n : Nat) : Nat := a * b % n

/-- R70: left-to-right binary square-and-multiply over a multiplier `mul`, on an exponent of at most
`bits` bits; `one` is the accumulator's start. -/
def powBits (mul : Nat → Nat → Nat) (one a : Nat) : Nat → Nat → Nat
  | 0, _ => one
  | bits + 1, e =>
    if e = 0 then one
    else
      let r := powBits mul one a bits (e / 2)
      if e % 2 = 1 then mul (mul r r) a else mul r r

/-- R69: `a^e mod n`, exact, with `0^0 = 1`. Written as square-and-multiply, which RSAC names, so that
it can be evaluated on large exponents; Laws/Arithmetic.lean proves that it is `a ^ e % n` (log entry 12). -/
def modPow (a e n : Nat) : Nat := powBits (fun x y => modMul x y n) (1 % n) (a % n) (bitlen e) e

/-- The remainder steps of Euclid's algorithm on `(r0, r1)` with the coefficients `(s0, s1)` of `a`
kept in `[0, n)`, for at most `fuel` steps: `r_i = a * s_i (mod n)` throughout. -/
def euclid (n : Nat) : Nat → Nat → Nat → Nat → Nat → Nat
  | 0, _, _, s0, _ => s0
  | fuel + 1, r0, r1, s0, s1 =>
    if r1 = 0 then s0
    else euclid n fuel r1 (r0 % r1) s1 ((s0 + (n - r0 / r1 * s1 % n)) % n)

/-- R71: for `gcd(a, n) = 1`, the unique `x` with `0 <= x < n` and `(a * x) mod n = 1 mod n`; for
`n = 1` it is 0 (90_conflicts.md C1). Laws/Arithmetic.lean proves it (log entry 12). -/
def modInv (a n : Nat) : Nat := euclid n (2 * bitlen n + 2) a n (1 % n) 0

/-- MODMUL (R75): `R <- (A * B) mod N`. -/
def execModmul (s : State) : StepResult :=
  s.withModulus (.next ((s.setR (modMul s.a s.b s.n)).complete .ok))

/-- MODEXP (R69): `R <- A^E mod N`. -/
def execModexp (s : State) : StepResult :=
  s.withModulus (.next ((s.setR (modPow s.a s.e s.n)).complete .ok))

/-- MODINV (R71): `R <- A^(-1) mod N` and `G <- 1`; where `gcd(A, N) != 1`, `G <- gcd(A, N)` and R keeps
its value. -/
def execModinv (s : State) : StepResult :=
  s.withModulus
    (if Nat.gcd s.a s.n = 1 then .next (((s.setR (modInv s.a s.n)).setG 1).complete .ok)
     else .next ((s.setG (Nat.gcd s.a s.n)).complete .notCoprime))

end Sys2Proof.Machine
end

