-- ==== Sys2Proof/Machine/Block.lean ====
section
/-! DEFINITION. The block cipher commands ENC_BLOCK (R79) and DEC_BLOCK (R80). Key invariants are not
checked (R81). -/

namespace Sys2Proof.Machine

/-- R79, R80: the block's integer raised to E modulo N. -/
def State.blockPow (s : State) : Nat := modPow s.blockInt s.e s.n

/-- ENC_BLOCK (R79): at most `L - 1` bytes in, exactly `L` bytes out, leading zeros first
(90_conflicts.md C4). -/
def execEncBlock (s : State) : StepResult :=
  s.withModulus
    (s.withBlockLen (s.modLen - 1)
      (.next ((s.storeBlock (beBytes s.blockPow s.modLen) s.blockPow).complete .ok)))

/-- DEC_BLOCK (R80): at most `L` bytes in, the minimal encoding out (90_conflicts.md C2). -/
def execDecBlock (s : State) : StepResult :=
  s.withModulus
    (s.withBlockLen s.modLen
      (.next ((s.storeBlock (minimal s.blockPow) s.blockPow).complete .ok)))

end Sys2Proof.Machine
end

