-- ==== Sys2Proof/Machine/Lifecycle.lean ====
section
/-! DEFINITION. The two commands that compute nothing: NOP (R64) and a reserved command word (R65). -/

namespace Sys2Proof.Machine

/-- NOP (R64): `complete(OK)`; `N` is not checked. -/
def execNop (s : State) : StepResult := .next (s.complete .ok)

/-- R65: a reserved command word completes with ILLEGAL_CMD and no other effect (log entry 11). -/
def execIllegal (s : State) : StepResult := .next (s.complete .illegalCmd)

end Sys2Proof.Machine
end

