-- ==== Sys2Proof/Machine/Engine.lean ====
section
/-! DEFINITION. The agents' steps (R14): the engine's completion step (R61), the host's transaction and
the reset source's step (R102); and how a command word is placed in flight. -/

namespace Sys2Proof.Machine

/-- R61: the completion step's effect: decode `CUR_CMD` and run the command's rule (R53, R65). -/
def engineStep (s : State) : StepResult :=
  match decode s.curCmd with
  | .ok i => exec i s
  | .error _ => execIllegal s

/-- R14, R61: the engine's turn: the completion step is enabled exactly when `BUSY = 1`; a turn while
idle changes nothing (log entry 3). -/
def engineTurn (s : State) : StepResult := if s.busy then engineStep s else .next s

/-- The host's turn. While the reset input is asserted the host must not access MEE (R102, log entry 9). -/
def hostTurn (s : State) (x : Access) : StepResult :=
  if s.rstLine then .fault .accessDuringReset else .next (s.hostAccess x)

/-- One agent's step (R14). -/
def takeEvent (s : State) : Event → StepResult
  | .host x => hostTurn s x
  | .engine => engineTurn s
  | .resetAssert => .next (s.resetState.setLine true)
  | .resetRelease => .next (s.setLine false)

/-- The next step of the total order (R46): the head of the agenda, or, where no step is listed, the
engine's (R61's weak fairness, log entry 2). -/
def nextTurn (s : State) : StepResult :=
  match s.agenda with
  | [] => engineTurn s
  | ev :: rest => takeEvent (s.withAgenda rest) ev

/-- The command word `w` accepted (R59), with the engine's turn next (log entry 10). -/
def State.placeCommand (s : State) (w : Word) : State :=
  (s.accept w).withAgenda (.engine :: s.agenda)

end Sys2Proof.Machine
end

