-- ==== Sys2Proof/Machine/Step.lean ====
section
/-! DEFINITION. One step of the machine, and how the host puts a command where the next step runs it. -/

namespace Sys2Proof.Machine

/-- One step: one agent's step (R14, R46). -/
def step (s : State) : Host.Outcome State Fault Refusal := nextTurn s

/-- `s` with the command word of `nbits` bits, numbered as spec/opcode_table.json numbers them, in
flight and the engine's completion step next (log entry 10). -/
def State.withFetchWord (s : State) (nbits w : Nat) : State :=
  s.placeCommand (BitVec.ofNat 32 (w % 2 ^ nbits))

end Sys2Proof.Machine
end

