-- ==== Sys2Proof/Machine/Driver.lean ====
section
/-! DEFINITION. The host procedures: the notation and pseudo-instructions (R57, R58), key generation
(R74) and the stream procedures (R82 to R86), as bus transactions carried out by `step` itself. What the
host brings is an argument (log entry 13): for each wait what the other agents do before each of its polls,
the stream as a byte list with the number of the read or emit that fails, and the random source as a list
of draws. -/

namespace Sys2Proof.Machine

/-- R57: `wr off, w`. -/
def wr (c : Config) (off : Nat) (w : Word) : Event := .host (.write (c.base + off) .w32 0xF#4 w)

/-- R57: `rd off`. -/
def rd (c : Config) (off : Nat) : Event := .host (.read (c.base + off) .w32)

/-- R58: `cmd NAME`. -/
def cmdOf (c : Config) (i : Instr) : List Event := [wr c 0x000C (encode i)]

/-- R58: `ldbig X, v, n`, for the window at `base`: the low `n` words. -/
def ldbigLow (c : Config) (base v n : Nat) : List Event :=
  (List.range n).map fun k => wr c (base + 4 * k) (bigWord v k)

/-- R58: `ldbig X, v`: all `MAXBYTES/4` words. -/
def ldbig (c : Config) (base v : Nat) : List Event := ldbigLow c base v (c.maxBytes / 4)

/-- R58: word `k` of a byte string, bytes past its end as 0x00. -/
def stringWord (s : List Byte) (k : Nat) : Word :=
  s.getD (4 * k + 3) 0 ++ s.getD (4 * k + 2) 0 ++ s.getD (4 * k + 1) 0 ++ s.getD (4 * k) 0

/-- R58: `ldbuf s`. -/
def ldbuf (c : Config) (s : List Byte) : List Event :=
  (List.range ((s.length + 3) / 4)).map fun k => wr c (0x7000 + 4 * k) (stringWord s k)

/-- R58: `setlen n`. -/
def setlen (c : Config) (n : Nat) : List Event := [wr c 0x0014 (BitVec.ofNat 32 n)]

/-- R58: `rdstat`. -/
def rdstat (c : Config) : List Event := [rd c 0x0010]

/-- R58: `ack`: clear DONE. -/
def ackDone (c : Config) : List Event := [wr c 0x0010 0x2#32]

/-- R58: the reads of `rdbig X, n`. -/
def rdbig (c : Config) (base n : Nat) : List Event := (List.range n).map fun k => rd c (base + 4 * k)

/-- R58: the reads of `rdbuf n`. -/
def rdbuf (c : Config) (n : Nat) : List Event :=
  (List.range ((n + 3) / 4)).map fun k => rd c (0x8000 + 4 * k)

/-- What the host learns from one step: the response, if the step was its own. -/
def answerOf (ev : Event) (s : State) : List Response :=
  match ev with
  | .host _ => [s.resp]
  | .engine => []
  | .resetAssert => []
  | .resetRelease => []

/-- The listed steps, carried out one by one by the machine; the responses of the host's own, in order. -/
def play : List Event → State → Option (State × List Response)
  | [], s => some (s, [])
  | ev :: evs, s =>
    match step (s.withAgenda [ev]) with
    | .next s' => (play evs s').map fun out => (out.1, answerOf ev s' ++ out.2)
    | .fault _ => none
    | .refused _ => none

/-- The word a read returned (a response that carries none counts as 0; the procedures read only
offsets that answer a word). -/
def Response.word : Response → Word
  | .data w => w
  | .none => 0
  | .written => 0
  | .busError _ => 0
  | .unclaimed => 0

/-- R58: the value of `rdbig`, `sum t_k * 2^(32k)`. -/
def bigOfAnswers : List Response → Nat
  | [] => 0
  | t :: ts => t.word.toNat + 2 ^ 32 * bigOfAnswers ts

/-- R58: the bytes of `rdbuf n`. -/
def bytesOfAnswers (n : Nat) (ts : List Response) : List Byte :=
  (List.range n).map fun i => wordByte (ts.getD (i / 4) .none).word (i % 4)

/-- R23: the field ERR of a STATUS word. -/
def errField (t : Word) : BitVec 4 := t.extractLsb' 4 4

/-- One `rd off -> t`. -/
def readOff (off : Nat) (s : State) : Option (State × Word) :=
  (play [rd s.cfg off] s).map fun out => (out.1, bigOfAnswers out.2)

/-- What the other agents do during one `wait` (R46, R58): before each poll a list of their steps, of the
engine, of the reset source or of another bus master; nothing bounds how many polls there are (R61). -/
abbrev WaitSteps := List (List Event)

/-- R58: `loop: rd 0x0010 -> t; if t[0] = 1 goto loop`, each poll after the steps listed for it; the state
and the words read. It ends at the first poll that reads BUSY = 0: at once where MEE is idle, after the
completion step, or after a reset (90_conflicts.md C9). Where no more steps are listed the engine has its
turn before the last poll (R61's fairness, log entry 2). -/
def waitIdle : WaitSteps → State → Option (State × List Word)
  | [], s =>
    (play [.engine] s).bind fun s1 => (readOff 0x0010 s1.1).map fun s2 => (s2.1, [s2.2])
  | evs :: others, s =>
    (play evs s).bind fun s1 => (readOff 0x0010 s1.1).bind fun s2 =>
      if s2.2.getLsbD 0 then (waitIdle others s2.1).map fun out => (out.1, s2.2 :: out.2)
      else some (s2.1, [s2.2])

/-- `cmd NAME ; wait ; rdstat -> t ; ack`: the state after it and `t`. -/
def runCommand (i : Instr) (others : WaitSteps) (s : State) : Option (State × Word) :=
  (play (cmdOf s.cfg i) s).bind fun s1 =>
    (waitIdle others s1.1).bind fun s2 =>
      (readOff 0x0010 s2.1).bind fun s3 =>
        (play (ackDone s.cfg) s3.1).map fun s4 => (s4.1, s3.2)

/-- R83, R84: one block: load it, run the command, read OUT_LEN and the output block. -/
def runBlock (i : Instr) (others : WaitSteps) (s : State) (blk : List Byte) : Option (State × Word × List Byte) :=
  (play (ldbuf s.cfg blk ++ setlen s.cfg blk.length) s).bind fun s1 =>
    (runCommand i others s1.1).bind fun s2 =>
      if errField s2.2 = 0 then
        (readOff 0x0018 s2.1).bind fun s3 =>
          (play (rdbuf s.cfg s3.2.toNat) s3.1).map fun s4 => (s4.1, s2.2, bytesOfAnswers s3.2.toNat s4.2)
      else some (s2.1, s2.2, [])

/-- How a host procedure ends (R83 to R85). -/
inductive Finish where
  /-- It returned normally. -/
  | returned
  /-- A `require` line refused the arguments. -/
  | refused
  /-- A read or an emit failed: IOFailure, and what was emitted stays emitted (R85). -/
  | ioFailure
  /-- A command ended with an error: the procedure ends, with no retry (R85). -/
  | commandError
  /-- The machine made no step (a host access during reset), or the bound on rounds ran out. -/
  | stuck
  deriving DecidableEq, Repr

/-- The result of a stream procedure: MEE's state, the bytes emitted, and how it ended. -/
structure StreamRun where
  state : State
  out : List Byte
  finish : Finish
  deriving DecidableEq, Repr

/-- Which read and which emit of the host's stream fail, counted from 0 (R82). -/
structure StreamFaults where
  read : Option Nat
  emit : Option Nat
  deriving DecidableEq, Repr

/-- R83, R84: the loop over the stream `inp` in blocks of `size` bytes; `k` counts the rounds. A read
returns the next `min(size, remaining)` bytes, and an empty read ends the loop (R82). Each block's `wait`
has steps of its own: the first wait of the procedure has number 0, round `k`'s has number `k + 1`. -/
def streamLoop (i : Instr) (size : Nat) (waits : Nat → WaitSteps) (bad : StreamFaults) :
    Nat → Nat → State → List Byte → List Byte → StreamRun
  | 0, _, s, _, out => ⟨s, out, .stuck⟩
  | fuel + 1, k, s, inp, out =>
    if bad.read = some k then ⟨s, out, .ioFailure⟩
    else if inp.take size = [] then ⟨s, out, .returned⟩
    else match runBlock i (waits (k + 1)) s (inp.take size) with
      | none => ⟨s, out, .stuck⟩
      | some (s', t, blk) =>
        if errField t ≠ 0 then ⟨s', out, .commandError⟩
        else if bad.emit = some k then ⟨s', out, .ioFailure⟩
        else streamLoop i size waits bad fuel (k + 1) s' (inp.drop size) (out ++ blk)

/-- R83, R84: the common part of `encrypt` and `decrypt`: the `require` line, `wait`, the key, `NLEN`,
and the loop; `size` is the input block size for `L`. How long a wait takes is open for each command
(R61, R110), so `waits` gives each wait its own steps; between the transactions outside a wait no other
agent acts (DESIGN CHOICE, log entry 13). -/
def streamProcedure (i : Instr) (size : Nat → Nat) (waits : Nat → WaitSteps) (bad : StreamFaults) (key n : Nat)
    (inp : List Byte) (s : State) : StreamRun :=
  if 1 ≤ n ∧ n < 2 ^ (8 * s.cfg.maxBytes) ∧ key < 2 ^ (8 * s.cfg.maxBytes) then
    match (waitIdle (waits 0) s).bind fun s1 =>
        (play (ldbig s.cfg 0x4000 n ++ ldbig s.cfg 0x3000 key) s1.1).bind fun s2 => readOff 0x001C s2.1 with
    | none => ⟨s, [], .stuck⟩
    | some (s3, len) => streamLoop i (size len.toNat) waits bad (inp.length + 1) 0 s3 inp []
  else ⟨s, [], .refused⟩

/-- R83: `encrypt(e, n, in)`. -/
def encrypt (waits : Nat → WaitSteps) (bad : StreamFaults) (e n : Nat) (inp : List Byte) (s : State) : StreamRun :=
  streamProcedure .encBlock (fun len => len - 1) waits bad e n inp s

/-- R84: `decrypt(d, n, in)`. -/
def decrypt (waits : Nat → WaitSteps) (bad : StreamFaults) (d n : Nat) (inp : List Byte) (s : State) : StreamRun :=
  streamProcedure .decBlock (fun len => len) waits bad d n inp s

/-- R74: the loop of `keygen` over the random source's draws, each of `k` bytes; `round` counts them, and
the wait of a round has the steps of that number. Where the draws run out the loop has not ended, and there
is no key. -/
def keygenLoop (waits : Nat → WaitSteps) (phi k : Nat) :
    Nat → List (List Byte) → State → Option (State × Nat × Nat)
  | _, [], _ => none
  | round, bytes :: draws, s =>
    if 1 < beInt (bytes.take k) ∧ beInt (bytes.take k) < phi then
      (play (ldbig s.cfg 0x1000 (beInt (bytes.take k))) s).bind fun s1 =>
        (runCommand .modinv (waits round) s1.1).bind fun s2 =>
          if errField s2.2 = ErrCode.notCoprime.bits then keygenLoop waits phi k (round + 1) draws s2.1
          else (play (rdbig s.cfg 0x5000 (s.cfg.maxBytes / 4)) s2.1).map fun s3 =>
            (s3.1, beInt (bytes.take k), bigOfAnswers s3.2)
    else keygenLoop waits phi k (round + 1) draws s

/-- R74: `keygen(p, q)`: MEE's state and `(e, d, n)`. Outside the waits no other agent acts (DESIGN CHOICE,
log entry 13). -/
def keygen (waits : Nat → WaitSteps) (p q : Nat) (draws : List (List Byte)) (s : State) : Option (State × Nat × Nat × Nat) :=
  if p * q < 2 ^ (8 * s.cfg.maxBytes) then
    (play (ldbig s.cfg 0x4000 ((p - 1) * (q - 1))) s).bind fun s1 =>
      (keygenLoop waits ((p - 1) * (q - 1)) (byteLength ((p - 1) * (q - 1)) - 1) 0 draws s1.1).map fun out =>
        (out.1, out.2.1, out.2.2, p * q)
  else none

end Sys2Proof.Machine
end

