-- ==== Sys2Proof/Machine/Reference.lean ====
section
/-! DEFINITION. The spec's informative reference algorithms (R70, R72, R76). No meaning uses them: only
the results of R69, R71 and R75 are architectural, and the statements say that these give the same. -/

namespace Sys2Proof.Machine

/-- R76: `while r >= N: r <- r - N`, taken at most `times` times. -/
def subtractWhile (n : Nat) : Nat → Nat → Nat
  | 0, r => r
  | times + 1, r => if n ≤ r then subtractWhile n times (r - n) else r

/-- R76, setup: the Barrett constant `mu = 4^k div N` with `k = bitlen(N)`. -/
def barrettMu (n : Nat) : Nat := 4 ^ bitlen n / n

/-- R76: the quotient estimate for `x`. -/
def barrettQuotient (n x : Nat) : Nat := x / 2 ^ (bitlen n - 1) * barrettMu n / 2 ^ (bitlen n + 1)

/-- R76: `mm(a, b)`, for `a, b < N`: Barrett reduction with radix 2 and at most two corrections. -/
def barrettMm (n a b : Nat) : Nat := subtractWhile n 2 (a * b - barrettQuotient n (a * b) * n)

/-- R76: `modmul_ref(A, B, N)`. -/
def modmulRef (a b n : Nat) : Nat := barrettMm n (a % n) (b % n)

/-- R70: `modexp_ref(A, E, N)`, square-and-multiply over `mm`. -/
def modexpRef (a e n : Nat) : Nat := powBits (barrettMm n) (1 % n) (a % n) (bitlen e) e

/-- R72: the loop of `egcd_ref`, for at most `fuel` rounds; answers `(r0, s0)`. The coefficients are the
only signed numbers of the spec. -/
def egcdLoop : Nat → Nat → Nat → Int → Int → Nat × Int
  | 0, r0, _, s0, _ => (r0, s0)
  | fuel + 1, r0, r1, s0, s1 =>
    if r1 = 0 then (r0, s0)
    else egcdLoop fuel r1 (r0 - r0 / r1 * r1) s1 (s0 - (r0 / r1 : Nat) * s1)

/-- R72: `x <= 0` is moved into range by adding `m` once, and `m = 1` gives 0 (90_conflicts.md C1). -/
def normalizeCoeff (m : Nat) (x : Int) : Int :=
  if m = 1 then 0 else if x ≤ 0 then x + m else x

/-- R72: `egcd_ref(a, m)`; answers `(x, g)`. -/
def egcdRef (a m : Nat) : Int × Nat :=
  (normalizeCoeff m (egcdLoop (2 * bitlen m + 2) a m 1 0).2, (egcdLoop (2 * bitlen m + 2) a m 1 0).1)

end Sys2Proof.Machine
end

