-- ==== Sys2Proof/Safety.lean ====
section
/-! DEFINITION. The terms the statements use: the invariant of the machine, the parts of the state that
rules speak of as a whole, and the condition under which a step may stop. -/

namespace Sys2Proof.Machine

/-- Every big-integer register holds a number of `8*MAXBYTES` bits (R27). -/
def State.registersFit (s : State) : Prop :=
  s.a < 2 ^ (8 * s.cfg.maxBytes) ∧ s.b < 2 ^ (8 * s.cfg.maxBytes) ∧ s.e < 2 ^ (8 * s.cfg.maxBytes) ∧
    s.n < 2 ^ (8 * s.cfg.maxBytes) ∧ s.r < 2 ^ (8 * s.cfg.maxBytes) ∧ s.g < 2 ^ (8 * s.cfg.maxBytes)

/-- Both buffers are in canonical form, IN_BUF has no byte at or beyond `MAXBYTES` (R29), OUT_LEN is at
most `MAXBYTES` (R25), and OUT_BUF is 0x00 from OUT_LEN on (R79, R80, R32). -/
def State.buffersFit (s : State) : Prop :=
  s.inBuf.wf ∧ s.outBuf.wf ∧ (∀ p ∈ s.inBuf, p.1 < s.cfg.maxBytes) ∧
    (∀ p ∈ s.outBuf, p.1 < s.outLen.toNat) ∧ s.outLen.toNat ≤ s.cfg.maxBytes

/-- While `BUSY = 1`, `DONE = 0` and `ERR = 0` (R23); ERR is one of the codes 0 to 4 (R88). -/
def State.statusFits (s : State) : Prop :=
  (s.busy = true → s.done = false ∧ s.err = 0) ∧ s.err.toNat ≤ 4

/-- While the reset input is asserted the machine holds the reset state (R102). -/
def State.resetHeld (s : State) : Prop := s.rstLine = true → s.resetState = s

/-- The invariant of the machine. -/
structure State.Inv (s : State) : Prop where
  config : s.cfg.ok = true
  registers : s.registersFit
  buffers : s.buffersFit
  status : s.statusFits
  held : s.resetHeld

/-- The operand state: what commands read and only the host writes (R27, R105). -/
def State.operands (s : State) : Nat × Nat × Nat × Nat × Memory × Half :=
  (s.a, s.b, s.e, s.n, s.inBuf, s.inLen)

/-- The result state: what only commands write (R27, R25, R29). -/
def State.results (s : State) : Nat × Nat × Memory × Half := (s.r, s.g, s.outBuf, s.outLen)

/-- R15's architectural state, without the model's own fields. -/
def State.arch (s : State) : State := { s with agenda := [], resp := .none, draws := 0, rstLine := false }

/-- R62: `t` is `s` after a completion with `code`: nothing but the results and ERR, BUSY and DONE may
differ; a failed one writes no result, but NOT_COPRIME writes G. -/
def State.completesWith (s t : State) (code : ErrCode) : Prop :=
  t = { s with r := t.r, g := t.g, outBuf := t.outBuf, outLen := t.outLen, err := ErrCode.bits code,
               busy := false, done := true } ∧
  (code ≠ .ok → t.r = s.r ∧ t.outBuf = s.outBuf ∧ t.outLen = s.outLen) ∧
  (code ≠ .ok → code ≠ .notCoprime → t.g = s.g) ∧
  (code = .notCoprime → t.g = Nat.gcd s.a s.n)

/-- `MemRead(MEE_BASE + off, 4)` as the host's transaction (R13, R38). -/
def State.busRead (s : State) (off : Nat) : State := s.hostAccess (.read (s.cfg.base + off) .w32)

/-- `MemWrite(MEE_BASE + off, 4, w)` as the host's transaction (R13, R39). -/
def State.busWrite (s : State) (off : Nat) (w : Word) : State :=
  s.hostAccess (.write (s.cfg.base + off) .w32 0xF#4 w)

/-- The next step is a step of the engine: the head of the agenda gives it the turn, or no step is
listed (R61). -/
def State.engineNext (s : State) : Prop := s.agenda = [] ∨ ∃ rest, s.agenda = .engine :: rest

/-- The next step is this host transaction. -/
def State.hostNext (s : State) (x : Access) : Prop := ∃ rest, s.agenda = .host x :: rest

/-- The host transaction is a soft reset: a write of SRST = 1 to CTRL (R103). -/
def Access.softResets (c : Config) (x : Access) : Prop :=
  ∃ w : Word, w.getLsbD 1 = true ∧ x = .write (c.base + 0x0008) .w32 0xF#4 w

/-- The next step resets MEE: the reset source's (R102), or a soft reset (R103). -/
def State.resetNext (s : State) : Prop :=
  (∃ rest, s.agenda = .resetAssert :: rest) ∨ ∃ x, s.hostNext x ∧ x.softResets s.cfg

/-- The host reads the word of value `v` at offset `off`, and the read changes nothing else (R38, R43). -/
def State.answers (s : State) (off v : Nat) : Prop :=
  ∃ w : Word, s.busRead off = { s with resp := .data w } ∧ w.toNat = v

/-- The host's read at offset `off` answers a fresh drawn value, and changes nothing else (R106). -/
def State.answersDrawn (s : State) (off : Nat) : Prop :=
  s.busRead off = { s with resp := .data (Config.draw s.draws), draws := s.draws + 1 }

/-- R37: the reserved word-aligned offsets. -/
def State.reservedOffset (s : State) (off : Nat) : Prop :=
  off % 4 = 0 ∧ (0x0020 ≤ off ∧ off < 0x1000 ∨ 0x9000 ≤ off ∧ off < 0x10000 ∨
    0x1000 ≤ off ∧ off < 0x9000 ∧ s.cfg.maxBytes ≤ off % 0x1000)

/-- During this wait no agent but the engine acts: no reset and no other bus master (log entry 13). -/
def WaitSteps.quiet (others : WaitSteps) : Prop := ∀ evs ∈ others, ∀ ev ∈ evs, ev = .engine

/-- R85: in a stream of this many blocks, the first read or emit that fails comes when `m` blocks have been
emitted: read `m` (the one after the last block is the empty read), or emit `m`. -/
def StreamFaults.stopsAfter (bad : StreamFaults) (blocks m : Nat) : Prop :=
  (bad.read = some m ∧ m ≤ blocks ∧ ∀ k, bad.emit = some k → m ≤ k) ∨
  (bad.emit = some m ∧ m < blocks ∧ ∀ k, bad.read = some k → m < k)

/-- R82: the blocks of `size` bytes that a stream is read in; the last may be shorter. -/
def streamBlocks (size : Nat) (inp : List Byte) : List (List Byte) :=
  (List.range ((inp.length + size - 1) / size)).map fun q => (inp.drop (q * size)).take size

/-- R85: a stream procedure that reads blocks of `size` bytes ends at its first failing read or emit: with
the output of the `m` blocks before it, a prefix of the whole output; a failure it never reaches changes
nothing. -/
def keepsEmitted (proc : StreamFaults → List Byte → StreamRun) (size : Nat) (inp : List Byte) : Prop :=
  ∀ bad, (∀ m, bad.stopsAfter (streamBlocks size inp).length m →
      (proc bad inp).finish = .ioFailure ∧
      (proc bad inp).out = (proc ⟨none, none⟩ (inp.take (size * m))).out ∧
      (proc bad inp).out <+: (proc ⟨none, none⟩ inp).out) ∧
    ((∀ m, ¬ bad.stopsAfter (streamBlocks size inp).length m) → proc bad inp = proc ⟨none, none⟩ inp)

end Sys2Proof.Machine
end

