-- ==== Sys2Proof/Certificates/Slice0/Obligations.lean ====
section
/-! DEFINITION. What the provers are asked to settle about the model, each taken from the spec's numbered
rules. `s.answers off v` is a host read of offset `off` that returns the value `v` and changes nothing
else; `s.busWrite off w` is the host's write; `s.Inv` is the invariant of Safety.lean. -/

open Sys2Proof Sys2Proof.Machine

/-! ## Decoding -/

/-- R51, R52, R53: decoding the word of a command gives the command, and the only word that decodes to a
command is its own. -/
def Obligations.DecodeEncodeAgree : Prop :=
  (∀ i, decode (encode i) = .ok i) ∧ ∀ w i, decode w = .ok i → encode i = w

/-- R53: the decoder field by field on every word; a rejected word is ILLEGAL and completes with
ILLEGAL_CMD; every word is accepted. -/
def Obligations.DecodingFollowsTheOpcodeMap : Prop :=
  (∀ w : Word,
    (w.toNat / 16 ≠ 0 → ∃ e, decode w = .error e) ∧
    (w.toNat / 16 = 0 →
      (w.toNat % 16 = 0x0 → decode w = .ok .nop) ∧ (w.toNat % 16 = 0x1 → decode w = .ok .modmul) ∧
      (w.toNat % 16 = 0x2 → decode w = .ok .modexp) ∧ (w.toNat % 16 = 0x3 → decode w = .ok .modinv) ∧
      (w.toNat % 16 = 0x4 → decode w = .ok .encBlock) ∧ (w.toNat % 16 = 0x5 → decode w = .ok .decBlock) ∧
      (0x6 ≤ w.toNat % 16 → ∃ e, decode w = .error e))) ∧
  (∀ (s : State) e, s.busy = true → s.engineNext → decode s.curCmd = .error e →
    step s = .next { s with agenda := s.agenda.tail, err := 1, busy := false, done := true }) ∧
  ∀ (s : State) w, s.cfg.ok = true → s.busy = false →
    (s.busWrite 0x000C w).busy = true ∧ (s.busWrite 0x000C w).curCmd = w

/-- R52, R55: the six words of the opcode map and some reserved words, by value. -/
def Obligations.SpecWordsDecode : Prop :=
  decode 0x00000000#32 = .ok .nop ∧ decode 0x00000001#32 = .ok .modmul ∧
  decode 0x00000002#32 = .ok .modexp ∧ decode 0x00000003#32 = .ok .modinv ∧
  decode 0x00000004#32 = .ok .encBlock ∧ decode 0x00000005#32 = .ok .decBlock ∧
  decode 0x00000007#32 = .error .reservedOpcode ∧ decode 0x0000000F#32 = .error .reservedOpcode ∧
  decode 0x00000012#32 = .error .reservedBits ∧ decode 0x80000001#32 = .error .reservedBits

/-! ## The step -/

/-- R14, R61: an engine's turn with a command in flight runs exactly the decoded command; with none it
changes nothing (log entry 3). Around it the step only takes the turn off the agenda (log entry 1). -/
def Obligations.StepRunsDecodedCommand : Prop :=
  (∀ (s : State) i, s.busy = true → s.engineNext → decode s.curCmd = .ok i →
    step s = exec i { s with agenda := s.agenda.tail }) ∧
  ∀ s : State, s.busy = false → s.engineNext → step s = .next { s with agenda := s.agenda.tail }

/-- R42, R46: a host's turn performs exactly its transaction in one step, unless the reset input is
asserted: then the machine stops by name (R102, log entry 9). -/
def Obligations.StepServesHostTransaction : Prop :=
  ∀ (s : State) x rest, s.agenda = .host x :: rest →
    (s.rstLine = false → step s = .next ({ s with agenda := rest }.hostAccess x)) ∧
    (s.rstLine = true → step s = .fault .accessDuringReset)

/-- R93 and log entry 9: no command faults and nothing is refused; a step stops only on a host access
while the reset input is asserted. -/
def Obligations.StepStopsOnlyOnAccessDuringReset : Prop :=
  ∀ s : State, (∃ t, step s = .next t) ∨
    step s = .fault .accessDuringReset ∧ s.rstLine = true ∧ ∃ x, s.hostNext x

/-! ## The command lifecycle -/

/-- R59: a write to CMD while idle accepts the word, whatever it decodes to. -/
def Obligations.CmdWriteWhileIdleStartsCommand : Prop :=
  ∀ (s : State) rest w, s.cfg.ok = true → s.rstLine = false → s.busy = false →
    s.agenda = .host (.write (s.cfg.base + 0x000C) .w32 0xF#4 w) :: rest →
    step s = .next { s with agenda := rest, resp := .written, curCmd := w, busy := true, done := false, err := 0 }

/-- R60: a write to CMD while busy only sets OVR, and the command in flight completes as if the write had
not happened. -/
def Obligations.CmdWriteWhileBusyIsRefused : Prop :=
  (∀ (s : State) rest w, s.cfg.ok = true → s.rstLine = false → s.busy = true →
    s.agenda = .host (.write (s.cfg.base + 0x000C) .w32 0xF#4 w) :: rest →
    step s = .next { s with agenda := rest, resp := .written, ovr := true }) ∧
  ∀ i (s : State), ∃ t, exec i s = .next t ∧ exec i { s with ovr := true } = .next { t with ovr := true }

/-- R62: every completion, of a command and of a reserved word, is `complete(code)`: ERR, BUSY and DONE,
and beside them only the result registers may differ. A failed one leaves R, G, OUT_BUF and OUT_LEN, but
NOT_COPRIME writes G. Every operand register, every other bit and every byte of IN_BUF is unchanged. -/
def Obligations.CompletionChangesOnlyResultsAndStatus : Prop :=
  (∀ i (s : State), ∃ t code, exec i s = .next t ∧ s.completesWith t code) ∧
  ∀ s : State, s.busy = true → s.engineNext →
    ∃ t code, step s = .next t ∧ { s with agenda := s.agenda.tail }.completesWith t code

/-- R63: the order of the checks of the completion step; the first that fails gives the code, and no
other input is checked. -/
def Obligations.CompletionChecksInOrder : Prop :=
  ∀ s : State, s.busy = true → s.engineNext → ∃ t, step s = .next t ∧
    t.err.toNat =
      if 6 ≤ s.curCmd.toNat then 1
      else if 1 ≤ s.curCmd.toNat ∧ s.n = 0 then 2
      else if s.curCmd.toNat = 4 ∧ byteLength s.n - 1 < s.inLen.toNat ∨
              s.curCmd.toNat = 5 ∧ byteLength s.n < s.inLen.toNat then 3
      else if s.curCmd.toNat = 3 ∧ Nat.gcd s.a s.n ≠ 1 then 4
      else 0

/-- R64: NOP completes with OK, whatever N is; from its acceptance BUSY, DONE and ERR end at 0, 1, 0. -/
def Obligations.NopCompletes : Prop :=
  decode 0x00000000#32 = .ok .nop ∧
  (∀ s : State, exec .nop s = .next { s with err := 0, busy := false, done := true }) ∧
  ∀ s : State, s.busy = false →
    exec .nop (s.writeCmd 0x00000000#32) = .next { s with curCmd := 0, err := 0, busy := false, done := true }

/-- R65: every reserved word in flight completes with ILLEGAL_CMD and no other effect. -/
def Obligations.ReservedWordCompletesIllegal : Prop :=
  ∀ s : State, s.busy = true → s.engineNext → (s.curCmd.toNat / 16 ≠ 0 ∨ 0x6 ≤ s.curCmd.toNat % 16) →
    step s = .next { s with agenda := s.agenda.tail, err := 1, busy := false, done := true }

/-! ## The commands -/

/-- R75: MODMUL. -/
def Obligations.ModmulResult : Prop :=
  decode 0x00000001#32 = .ok .modmul ∧
  ∀ s : State, (s.n = 0 → exec .modmul s = .next { s with err := 2, busy := false, done := true }) ∧
    (s.n ≠ 0 → exec .modmul s = .next { s with r := s.a * s.b % s.n, err := 0, busy := false, done := true })

/-- R69: MODEXP, with `0^0 = 1`. -/
def Obligations.ModexpResult : Prop :=
  decode 0x00000002#32 = .ok .modexp ∧
  ∀ s : State, (s.n = 0 → exec .modexp s = .next { s with err := 2, busy := false, done := true }) ∧
    (s.n ≠ 0 → exec .modexp s = .next { s with r := s.a ^ s.e % s.n, err := 0, busy := false, done := true })

/-- R71: MODINV: the unique inverse, or the greatest common divisor. -/
def Obligations.ModinvResult : Prop :=
  decode 0x00000003#32 = .ok .modinv ∧
  ∀ s : State, (s.n = 0 → exec .modinv s = .next { s with err := 2, busy := false, done := true }) ∧
    (s.n ≠ 0 → Nat.gcd s.a s.n ≠ 1 →
      exec .modinv s = .next { s with g := Nat.gcd s.a s.n, err := 4, busy := false, done := true }) ∧
    (s.n ≠ 0 → Nat.gcd s.a s.n = 1 → ∃ x, x < s.n ∧ s.a * x % s.n = 1 % s.n ∧
      (∀ y, y < s.n → s.a * y % s.n = 1 % s.n → y = x) ∧
      exec .modinv s = .next { s with r := x, g := 1, err := 0, busy := false, done := true })

/-- R79: ENC_BLOCK: `be_bytes(m^E mod N, L)` in OUT_BUF, then 0x00, `L` in OUT_LEN, the residue in R. -/
def Obligations.EncBlockResult : Prop :=
  decode 0x00000004#32 = .ok .encBlock ∧
  ∀ s : State, s.Inv →
    (s.n = 0 → exec .encBlock s = .next { s with err := 2, busy := false, done := true }) ∧
    (s.n ≠ 0 → byteLength s.n - 1 < s.inLen.toNat →
      exec .encBlock s = .next { s with err := 3, busy := false, done := true }) ∧
    (s.n ≠ 0 → s.inLen.toNat ≤ byteLength s.n - 1 → ∃ out len,
      exec .encBlock s = .next { s with
        outBuf := out, outLen := len, r := beInt (s.inBuf.bytesFrom 0 s.inLen.toNat) ^ s.e % s.n,
        err := 0, busy := false, done := true } ∧
      len.toNat = byteLength s.n ∧
      beInt (out.bytesFrom 0 len.toNat) = beInt (s.inBuf.bytesFrom 0 s.inLen.toNat) ^ s.e % s.n ∧
      ∀ k, len.toNat ≤ k → out.read k = 0)

/-- R80: DEC_BLOCK: `minimal(c^E mod N)` in OUT_BUF, then 0x00, its length in OUT_LEN, the residue in R. -/
def Obligations.DecBlockResult : Prop :=
  decode 0x00000005#32 = .ok .decBlock ∧
  ∀ s : State, s.Inv →
    (s.n = 0 → exec .decBlock s = .next { s with err := 2, busy := false, done := true }) ∧
    (s.n ≠ 0 → byteLength s.n < s.inLen.toNat →
      exec .decBlock s = .next { s with err := 3, busy := false, done := true }) ∧
    (s.n ≠ 0 → s.inLen.toNat ≤ byteLength s.n → ∃ out len,
      exec .decBlock s = .next { s with
        outBuf := out, outLen := len, r := beInt (s.inBuf.bytesFrom 0 s.inLen.toNat) ^ s.e % s.n,
        err := 0, busy := false, done := true } ∧
      len.toNat = byteLength (beInt (s.inBuf.bytesFrom 0 s.inLen.toNat) ^ s.e % s.n) ∧
      beInt (out.bytesFrom 0 len.toNat) = beInt (s.inBuf.bytesFrom 0 s.inLen.toNat) ^ s.e % s.n ∧
      ∀ k, len.toNat ≤ k → out.read k = 0)

/-- R54, R27: which results each command may write: NOP none; MODMUL and MODEXP only R; MODINV only R and
G; the block commands everything but G. The operands are never written, and every byte of IN_BUF reads
as before; for a command that stores no block every byte of OUT_BUF does too. -/
def Obligations.CommandsWriteOnlyTheirResults : Prop :=
  ∀ i (s t : State), exec i s = .next t →
    t.operands = s.operands ∧ (∀ k, t.inBuf.read k = s.inBuf.read k) ∧
    (i = .nop → t.results = s.results) ∧
    (i = .modmul ∨ i = .modexp → t.g = s.g) ∧
    (i = .modmul ∨ i = .modexp ∨ i = .modinv →
      t.outLen = s.outLen ∧ ∀ k, t.outBuf.read k = s.outBuf.read k) ∧
    (i = .encBlock ∨ i = .decBlock → t.g = s.g)

/-- R68: an operand not below N gives the same result as its residue, and every result is below N. -/
def Obligations.UnreducedOperandsGiveTheSameResult : Prop :=
  ∀ s : State, s.n ≠ 0 →
    (∃ t u, exec .modmul s = .next t ∧ exec .modmul { s with a := s.a % s.n, b := s.b % s.n } = .next u ∧
      t.r = u.r ∧ t.r < s.n) ∧
    (∃ t u, exec .modexp s = .next t ∧ exec .modexp { s with a := s.a % s.n } = .next u ∧
      t.r = u.r ∧ t.r < s.n) ∧
    (Nat.gcd s.a s.n = 1 →
      ∃ t u, exec .modinv s = .next t ∧ exec .modinv { s with a := s.a % s.n } = .next u ∧
        t.r = u.r ∧ t.r < s.n ∧ t.g = 1 ∧ u.g = 1)

/-- R71, corner cases: `N = 1` gives 0 (90_conflicts.md C1), `N - 1` is its own inverse, 1 is its own
inverse, and 0 has none. -/
def Obligations.ModinvCornerCases : Prop :=
  ∀ s : State, (s.n = 1 → exec .modinv s = .next { s with r := 0, g := 1, err := 0, busy := false, done := true }) ∧
    (2 ≤ s.n → s.a = s.n - 1 →
      exec .modinv s = .next { s with r := s.n - 1, g := 1, err := 0, busy := false, done := true }) ∧
    (s.n ≠ 0 → s.a = 1 →
      exec .modinv s = .next { s with r := 1 % s.n, g := 1, err := 0, busy := false, done := true }) ∧
    (2 ≤ s.n → s.a = 0 →
      exec .modinv s = .next { s with g := s.n, err := 4, busy := false, done := true })

/-- R73: MODMUL with the largest modulus is a plain product where that fits. -/
def Obligations.ModmulWithLargestModulusIsPlainProduct : Prop :=
  ∀ s : State, s.Inv → s.n = 2 ^ (8 * s.cfg.maxBytes) - 1 → s.a * s.b < 2 ^ (8 * s.cfg.maxBytes) - 1 →
    exec .modmul s = .next { s with r := s.a * s.b, err := 0, busy := false, done := true }

/-- R78: every block of at most `L - 1` bytes spells an integer below `256^(L-1)`, which is at most N. -/
def Obligations.PlaintextBlockIsBelowModulus : Prop :=
  ∀ n (x : List Byte), 1 ≤ n → x.length ≤ byteLength n - 1 →
    beInt x < 256 ^ (byteLength n - 1) ∧ 256 ^ (byteLength n - 1) ≤ n

/-! ## The bus -/

/-- R38: what a read of every offset returns, idle and busy. -/
def Obligations.HostReadTable : Prop :=
  ∀ s : State, s.Inv →
    s.answers 0x0000 0x4D454501 ∧ s.answers 0x0004 s.cfg.maxBytes ∧ s.answers 0x0008 s.irqEn.toNat ∧
    s.answers 0x000C 0 ∧
    s.answers 0x0010 (s.busy.toNat + 2 * s.done.toNat + 4 * s.ovr.toNat + 8 * s.wbusy.toNat + 16 * s.err.toNat) ∧
    s.answers 0x0014 s.inLen.toNat ∧ s.answers 0x001C (byteLength s.n) ∧
    (s.busy = false → s.answers 0x0018 s.outLen.toNat) ∧ (s.busy = true → s.answersDrawn 0x0018) ∧
    (∀ k, k < s.cfg.maxBytes / 4 →
      s.answers (0x1000 + 4 * k) (s.a / 2 ^ (32 * k) % 2 ^ 32) ∧
      s.answers (0x2000 + 4 * k) (s.b / 2 ^ (32 * k) % 2 ^ 32) ∧
      s.answers (0x3000 + 4 * k) (s.e / 2 ^ (32 * k) % 2 ^ 32) ∧
      s.answers (0x4000 + 4 * k) (s.n / 2 ^ (32 * k) % 2 ^ 32) ∧
      s.answers (0x7000 + 4 * k)
        ((s.inBuf.read (4 * k)).toNat + 2 ^ 8 * (s.inBuf.read (4 * k + 1)).toNat +
          2 ^ 16 * (s.inBuf.read (4 * k + 2)).toNat + 2 ^ 24 * (s.inBuf.read (4 * k + 3)).toNat) ∧
      (s.busy = false →
        s.answers (0x5000 + 4 * k) (s.r / 2 ^ (32 * k) % 2 ^ 32) ∧
        s.answers (0x6000 + 4 * k) (s.g / 2 ^ (32 * k) % 2 ^ 32) ∧
        s.answers (0x8000 + 4 * k)
          ((s.outBuf.read (4 * k)).toNat + 2 ^ 8 * (s.outBuf.read (4 * k + 1)).toNat +
            2 ^ 16 * (s.outBuf.read (4 * k + 2)).toNat + 2 ^ 24 * (s.outBuf.read (4 * k + 3)).toNat)) ∧
      (s.busy = true → s.answersDrawn (0x5000 + 4 * k) ∧ s.answersDrawn (0x6000 + 4 * k) ∧
        s.answersDrawn (0x8000 + 4 * k))) ∧
    ∀ off, s.reservedOffset off → s.answers off 0

/-- R39: what a write of every offset does, idle and busy. -/
def Obligations.HostWriteTable : Prop :=
  ∀ (s : State) (w : Word), s.Inv →
    (∀ off ∈ [0x0000, 0x0004, 0x0018, 0x001C], s.busWrite off w = { s with resp := .written }) ∧
    (w.getLsbD 1 = false → s.busWrite 0x0008 w = { s with resp := .written, irqEn := w.getLsbD 0 }) ∧
    (w.getLsbD 1 = true → s.busWrite 0x0008 w =
      { State.resetWith s.cfg with
        resp := .written, rstLine := s.rstLine, agenda := s.agenda, draws := s.draws }) ∧
    (s.busy = false →
      s.busWrite 0x000C w = { s with resp := .written, curCmd := w, busy := true, done := false, err := 0 }) ∧
    (s.busy = true → s.busWrite 0x000C w = { s with resp := .written, ovr := true }) ∧
    s.busWrite 0x0010 w = { s with
      resp := .written, done := s.done && !w.getLsbD 1, ovr := s.ovr && !w.getLsbD 2,
      wbusy := s.wbusy && !w.getLsbD 3 } ∧
    (s.busy = false → s.busWrite 0x0014 w = { s with resp := .written, inLen := w.extractLsb' 0 16 }) ∧
    (s.busy = true → s.busWrite 0x0014 w = { s with resp := .written, wbusy := true }) ∧
    (∀ k, k < s.cfg.maxBytes / 4 →
      (s.busy = false →
        s.busWrite (0x1000 + 4 * k) w = { s with resp := .written, a := setBigWord s.a k w } ∧
        s.busWrite (0x2000 + 4 * k) w = { s with resp := .written, b := setBigWord s.b k w } ∧
        s.busWrite (0x3000 + 4 * k) w = { s with resp := .written, e := setBigWord s.e k w } ∧
        s.busWrite (0x4000 + 4 * k) w = { s with resp := .written, n := setBigWord s.n k w } ∧
        s.busWrite (0x7000 + 4 * k) w = { s with resp := .written, inBuf := s.inBuf.writeWord k w }) ∧
      (s.busy = true → ∀ off ∈ [0x1000, 0x2000, 0x3000, 0x4000, 0x7000],
        s.busWrite (off + 4 * k) w = { s with resp := .written, wbusy := true }) ∧
      ∀ off ∈ [0x5000, 0x6000, 0x8000], s.busWrite (off + 4 * k) w = { s with resp := .written }) ∧
    ∀ off, s.reservedOffset off → s.busWrite off w = { s with resp := .written }

/-- R37: reserved offsets read zero and ignore writes; reserved bits of CTRL, STATUS and IN_LEN are
ignored when written, as a write to PARAM or OUT_LEN is whole; the reserved bits of all five read 0. -/
def Obligations.ReservedReadZeroWriteIgnored : Prop :=
  ∀ s : State, s.Inv →
    (∀ off, s.reservedOffset off →
      s.answers off 0 ∧ ∀ w, s.busWrite off w = { s with resp := .written }) ∧
    (∀ v w : Word, v.toNat % 2 ^ 2 = w.toNat % 2 ^ 2 → s.busWrite 0x0008 v = s.busWrite 0x0008 w) ∧
    (∀ v w : Word, v.toNat % 2 ^ 4 = w.toNat % 2 ^ 4 → s.busWrite 0x0010 v = s.busWrite 0x0010 w) ∧
    (∀ v w : Word, v.toNat % 2 ^ 16 = w.toNat % 2 ^ 16 → s.busWrite 0x0014 v = s.busWrite 0x0014 w) ∧
    (∀ off ∈ [0x0004, 0x0018], ∀ w, s.busWrite off w = { s with resp := .written }) ∧
    (∃ v, s.answers 0x0004 v ∧ v < 2 ^ 16) ∧ (∃ v, s.answers 0x0008 v ∧ v < 2 ^ 1) ∧
    (∃ v, s.answers 0x0010 v ∧ v < 2 ^ 8) ∧ (∃ v, s.answers 0x0014 v ∧ v < 2 ^ 16) ∧
    (s.busy = false → ∃ v, s.answers 0x0018 v ∧ v < 2 ^ 16)

/-- R40: a write to a read-only register or window changes nothing, idle or busy, and sets no WBUSY. -/
def Obligations.ReadOnlyWritesAreIgnored : Prop :=
  ∀ (s : State) off w, s.cfg.ok = true → off % 4 = 0 →
    (off = 0x0000 ∨ off = 0x0004 ∨ off = 0x0018 ∨ off = 0x001C ∨
      0x5000 ≤ off ∧ off < 0x7000 ∨ 0x8000 ≤ off ∧ off < 0x9000) →
    s.busWrite off w = { s with resp := .written }

/-- R28: a big-integer register is the sum of its words, each read at its window offset, and a host write
of a word while idle puts exactly that word in its place and leaves every other word. -/
def Obligations.BigRegisterWords : Prop :=
  ∀ s : State, s.Inv →
    (∀ x ∈ [s.a, s.b, s.e, s.n, s.r, s.g],
      x = ((List.range (s.cfg.maxBytes / 4)).map fun k => (bigWord x k).toNat * 2 ^ (32 * k)).sum) ∧
    (∀ x k, (bigWord x k).toNat = x / 2 ^ (32 * k) % 2 ^ 32) ∧
    (∀ k, k < s.cfg.maxBytes / 4 →
      s.answers (0x1000 + 4 * k) (bigWord s.a k).toNat ∧ s.answers (0x2000 + 4 * k) (bigWord s.b k).toNat ∧
      s.answers (0x3000 + 4 * k) (bigWord s.e k).toNat ∧ s.answers (0x4000 + 4 * k) (bigWord s.n k).toNat ∧
      (s.busy = false → s.answers (0x5000 + 4 * k) (bigWord s.r k).toNat ∧
        s.answers (0x6000 + 4 * k) (bigWord s.g k).toNat)) ∧
    (s.busy = false → ∀ k w, k < s.cfg.maxBytes / 4 →
      (∃ x, s.busWrite (0x1000 + 4 * k) w = { s with resp := .written, a := x } ∧
        ∀ j, bigWord x j = if j = k then w else bigWord s.a j) ∧
      (∃ x, s.busWrite (0x2000 + 4 * k) w = { s with resp := .written, b := x } ∧
        ∀ j, bigWord x j = if j = k then w else bigWord s.b j) ∧
      (∃ x, s.busWrite (0x3000 + 4 * k) w = { s with resp := .written, e := x } ∧
        ∀ j, bigWord x j = if j = k then w else bigWord s.e j) ∧
      ∃ x, s.busWrite (0x4000 + 4 * k) w = { s with resp := .written, n := x } ∧
        ∀ j, bigWord x j = if j = k then w else bigWord s.n j)

/-- R29: a host write of a word of IN_BUF while idle sets its four bytes, lowest index in the lowest
lane, and every other byte reads as before. -/
def Obligations.InputBufferWordWrite : Prop :=
  ∀ (s : State) k w, s.Inv → s.busy = false → k < s.cfg.maxBytes / 4 →
    ∃ m, s.busWrite (0x7000 + 4 * k) w = { s with resp := .written, inBuf := m } ∧
      ∀ i, (m.read i).toNat =
        if i / 4 = k then w.toNat / 2 ^ (8 * (i % 4)) % 2 ^ 8 else (s.inBuf.read i).toNat

/-- R35, R36: inside the aperture, any access that is not a word-aligned 32-bit one with every byte lane
enabled gets the bus error and changes no state (widths and lanes as in log entry 8, and the error as a
response of a machine that goes on: R90); every other access there is served (R38, R39, R90). Outside the
aperture no access, a write included, changes MEE (R33, log entry 7). -/
def Obligations.OnlyAlignedWordAccessesAreServed : Prop :=
  ∀ s : State, s.cfg.ok = true → (∀ off, off < 0x10000 →
    (∀ width, width ≠ .w32 ∨ off % 4 ≠ 0 →
      s.hostAccess (.read (s.cfg.base + off) width) = { s with resp := .busError (s.cfg.base + off) }) ∧
    (∀ width lanes w, width ≠ .w32 ∨ lanes ≠ 0xF#4 ∨ off % 4 ≠ 0 →
      s.hostAccess (.write (s.cfg.base + off) width lanes w) =
        { s with resp := .busError (s.cfg.base + off) }) ∧
    (off % 4 = 0 → (∃ v, (s.busRead off).resp = .data v) ∧ ∀ w, (s.busWrite off w).resp = .written)) ∧
    ∀ x : Access, x.addr < s.cfg.base ∨ s.cfg.base + 0x10000 ≤ x.addr →
      s.hostAccess x = { s with resp := .unclaimed }

/-- R43: no read of any offset changes any state of MEE, whatever its width, alignment and address. -/
def Obligations.ReadsHaveNoSideEffect : Prop :=
  ∀ (s : State) addr width, (s.hostAccess (.read addr width)).arch = s.arch ∧
    (s.hostAccess (.read addr width)).agenda = s.agenda ∧
    (s.hostAccess (.read addr width)).rstLine = s.rstLine

/-- R26: NLEN reads the byte length of the current N: the least number of bytes that holds it, never more
than MAXBYTES; it reads 0 after reset, and a write to it is ignored. -/
def Obligations.NlenIsModulusByteLength : Prop :=
  ∀ s : State, s.Inv → s.answers 0x001C (byteLength s.n) ∧ byteLength s.n ≤ s.cfg.maxBytes ∧
    s.n < 256 ^ byteLength s.n ∧ (∀ k, s.n < 256 ^ k → byteLength s.n ≤ k) ∧
    (∀ w, s.busWrite 0x001C w = { s with resp := .written }) ∧ (State.resetWith s.cfg).answers 0x001C 0

/-! ## Interrupt and reset -/

/-- R91: IRQ is `IRQ_EN and DONE`; it rises only by a completion, or by setting IRQ_EN while DONE = 1. -/
def Obligations.IrqRisesOnlyByCompletionOrEnable : Prop :=
  (∀ s : State, s.irq = (s.irqEn && s.done)) ∧
  ∀ s t : State, step s = .next t → s.irq = false → t.irq = true →
    s.busy = true ∧ s.engineNext ∧ s.irqEn = true ∨
    ∃ w : Word, w.getLsbD 0 = true ∧ s.done = true ∧
      s.hostNext (.write (s.cfg.base + 0x0008) .w32 0xF#4 w)

/-- R102: the reset source's step puts every piece of state at its value of R32 in one step, abandons a
command in flight, leaves MEE idle with IRQ = 0, and an engine's turn after it does nothing. -/
def Obligations.HardwareResetClearsEverything : Prop :=
  ∀ (s : State) rest, s.agenda = .resetAssert :: rest → ∃ t, step s = .next t ∧
    t = { State.resetWith s.cfg with rstLine := true, agenda := rest, resp := s.resp, draws := s.draws } ∧
    t.irq = false ∧ (t.engineNext → step t = .next { t with agenda := t.agenda.tail })

/-- R103: a write of SRST = 1 to CTRL resets within that one host step, even if `w[0] = 1`; it completes
normally, and SRST reads back as 0. -/
def Obligations.SoftResetClearsEverything : Prop :=
  ∀ (s : State) rest w, s.Inv → s.rstLine = false → w.getLsbD 1 = true →
    s.agenda = .host (.write (s.cfg.base + 0x0008) .w32 0xF#4 w) :: rest →
    ∃ t, step s = .next t ∧ t.arch = State.resetWith s.cfg ∧ t.resp = .written ∧ t.agenda = rest ∧
      t.irqEn = false ∧ t.busy = false ∧ t.answers 0x0008 0

/-- R32: the values after a hardware or soft reset, for every legal MAXBYTES and MEE_BASE, as state and as
the host reads them. -/
def Obligations.ResetValues : Prop :=
  ∀ c : Config, c.ok = true →
    (State.resetWith c).results = (0, 0, [], 0) ∧ (State.resetWith c).operands = (0, 0, 0, 0, [], 0) ∧
    (∀ i, (State.resetWith c).inBuf.read i = 0 ∧ (State.resetWith c).outBuf.read i = 0) ∧
    (State.resetWith c).curCmd = 0 ∧ (State.resetWith c).irq = false ∧
    (State.resetWith c).answers 0x0000 0x4D454501 ∧ (State.resetWith c).answers 0x0004 c.maxBytes ∧
    (State.resetWith c).answers 0x0008 0 ∧ (State.resetWith c).answers 0x0010 0 ∧
    (State.resetWith c).answers 0x0014 0 ∧ (State.resetWith c).answers 0x0018 0 ∧
    (State.resetWith c).answers 0x001C 0 ∧
    ∀ s t : State, s.cfg = c → s.resetNext → step s = .next t → t.arch = State.resetWith c

/-- The invariant holds after reset, for every legal MAXBYTES and MEE_BASE (R32). -/
def Obligations.ResetMeetsInvariant : Prop :=
  State.reset.Inv ∧ ∀ c : Config, c.ok = true → (State.resetWith c).Inv

/-! ## Rules of the whole machine -/

/-- R23, R25, R27, R29, R88, R102: every step keeps the invariant: the registers fit MAXBYTES bytes, the
buffers are canonical and OUT_BUF is 0x00 from OUT_LEN on, DONE = 0 and ERR = 0 while busy, ERR is at
most 4, and an asserted reset holds the reset state. -/
def Obligations.StepKeepsInvariant : Prop := ∀ s t : State, s.Inv → step s = .next t → t.Inv

/-- R42, R105: while a command is in flight no step but a reset changes an operand. -/
def Obligations.OperandsStableWhileBusy : Prop :=
  ∀ s t : State, s.busy = true → ¬ s.resetNext → step s = .next t → t.operands = s.operands

/-- R27, R40, R46: no host write reaches R, G, OUT_BUF or OUT_LEN: they change only by the completion
step of a command or by a reset. -/
def Obligations.ResultsChangeOnlyByCompletionOrReset : Prop :=
  ∀ s t : State, step s = .next t → t.results ≠ s.results →
    s.busy = true ∧ s.engineNext ∨ s.resetNext

/-- R60, R61: a command in flight stays in flight until its completion step or a reset. -/
def Obligations.CommandInFlightStays : Prop :=
  ∀ s t : State, s.busy = true → ¬ s.engineNext → ¬ s.resetNext → step s = .next t →
    t.busy = true ∧ t.curCmd = s.curCmd

/-- R17, R22, R59: a command starts only by a host write to CMD, and the word written is in flight. -/
def Obligations.CommandStartsOnlyByCmdWrite : Prop :=
  ∀ s t : State, s.busy = false → step s = .next t → t.busy = true →
    s.hostNext (.write (s.cfg.base + 0x000C) .w32 0xF#4 t.curCmd)

/-- R23: OVR is set only by a CMD write while busy, WBUSY only by a write to A, B, E, N, IN_BUF or IN_LEN
while busy. -/
def Obligations.HazardBitsSetOnlyByHazards : Prop :=
  ∀ s t : State, s.cfg.ok = true → step s = .next t →
    (s.ovr = false → t.ovr = true →
      s.busy = true ∧ ∃ w, s.hostNext (.write (s.cfg.base + 0x000C) .w32 0xF#4 w)) ∧
    (s.wbusy = false → t.wbusy = true →
      s.busy = true ∧ ∃ off w, s.hostNext (.write (s.cfg.base + off) .w32 0xF#4 w) ∧
        (off = 0x0014 ∨ (0x1000 ≤ off ∧ off < 0x5000 ∨ 0x7000 ≤ off ∧ off < 0x8000) ∧
          off % 0x1000 < s.cfg.maxBytes))

/-- R23, R48: DONE is set only by a completion, and cleared only by the acceptance of a command, a write
of 1 to it, or a reset. -/
def Obligations.DoneSetOnlyByCompletion : Prop :=
  ∀ s t : State, step s = .next t →
    (s.done = false → t.done = true → s.busy = true ∧ s.engineNext) ∧
    (s.done = true → t.done = false → s.resetNext ∨
      (∃ w, s.busy = false ∧ s.hostNext (.write (s.cfg.base + 0x000C) .w32 0xF#4 w)) ∨
      ∃ w : Word, w.getLsbD 1 = true ∧ s.hostNext (.write (s.cfg.base + 0x0010) .w32 0xF#4 w))

/-- R42, R46, R105: whatever the host does between acceptance and completion, short of a reset, the
command ends with the results and the error code it would have had at once. -/
def Obligations.CommandSeesOperandsAtAcceptance : Prop :=
  ∀ (s : State) i (xs : List Access) rest,
    s.busy = true → decode s.curCmd = .ok i → s.rstLine = false →
    s.agenda = xs.map Event.host ++ .engine :: rest → (∀ x ∈ xs, ¬ x.softResets s.cfg) →
    ∃ t u : State, Host.Core.run Sys2Proof.core (xs.length + 1) s = .next t ∧ exec i s = .next u ∧
      t.results = u.results ∧ t.err = u.err ∧ t.operands = s.operands ∧ t.busy = false ∧ t.done = true

/-- While busy the model answers no transaction from the stored R, G, OUT_BUF or OUT_LEN (R106: a model must
not return the old value): two states that differ only there answer alike, and differ only there afterwards. That the answers are EQUAL is the model's choice (log entry 4: `draw()` depends on a counter
alone) and no confidentiality of the hardware: R106 fixes no law for the value, and a chip may answer with R
itself. -/
def Obligations.BusyMachineHidesItsResults : Prop :=
  ∀ (s : State) (x : Access) r g out len, s.cfg.ok = true → s.busy = true →
    (s.hostAccess x).resp = ({ s with r := r, g := g, outBuf := out, outLen := len }.hostAccess x).resp ∧
    (¬ x.softResets s.cfg →
      { s with r := r, g := g, outBuf := out, outLen := len }.hostAccess x
        = { s.hostAccess x with r := r, g := g, outBuf := out, outLen := len }) ∧
    (x.softResets s.cfg →
      { s with r := r, g := g, outBuf := out, outLen := len }.hostAccess x = s.hostAccess x)

/-- R5, R6, R20: no step changes the parameters. The draw counter, the model's own (log entry 4), keeps its
value or goes up by one, and then the answer is the free value of the old count. -/
def Obligations.ParametersNeverChange : Prop :=
  ∀ s t : State, step s = .next t → t.cfg = s.cfg ∧
    (t.draws = s.draws ∨ t.draws = s.draws + 1 ∧ t.resp = .data (Config.draw s.draws))

/-! ## The reference algorithms -/

/-- R70: square-and-multiply over the Barrett multiplier returns `A^E mod N`. -/
def Obligations.SquareAndMultiplyReference : Prop :=
  ∀ a e n, 1 ≤ n → modexpRef a e n = a ^ e % n

/-- R76: Barrett reduction with at most two corrections is exact: the remainder estimate is below `3N`,
and `mm(a, b) = a*b mod N` for residues. -/
def Obligations.BarrettReference : Prop :=
  (∀ n a b, 1 ≤ n → a < n → b < n →
    barrettQuotient n (a * b) * n ≤ a * b ∧ a * b - barrettQuotient n (a * b) * n < 3 * n ∧
    barrettMm n a b = a * b % n) ∧
  ∀ n a b, 1 ≤ n → modmulRef a b n = a * b % n

/-- R72: the signed extended Euclidean iteration returns the greatest common divisor, and for coprime
arguments the inverse that MODINV writes (R71). -/
def Obligations.EuclidReference : Prop :=
  ∀ a m, 1 ≤ m → (egcdRef a m).2 = Nat.gcd a m ∧
    (Nat.gcd a m = 1 →
      0 ≤ (egcdRef a m).1 ∧ (egcdRef a m).1 < m ∧ (egcdRef a m).1 = (modInv a m : Nat))

/-- R77, R8: any multiplier that is exact on residues gives MODEXP's result: the variant shows nowhere. -/
def Obligations.MultiplierVariantIsInvisible : Prop :=
  ∀ (mul : Nat → Nat → Nat) (s : State), s.n ≠ 0 → (∀ x y, x < s.n → y < s.n → mul x y = x * y % s.n) →
    exec .modexp s = .next { s with
      r := powBits mul (1 % s.n) (s.a % s.n) (bitlen s.e) s.e, err := 0, busy := false, done := true }

/-! ## Block round trip and the host procedures -/

/-- R87, R79, R80: for a key pair, the block DEC_BLOCK makes of ENC_BLOCK's output is the minimal
encoding of the plaintext block's integer. -/
def Obligations.BlockRoundTrip : Prop :=
  ∀ (s : State) d, s.Inv → s.n ≠ 0 → s.inLen.toNat ≤ byteLength s.n - 1 → (∀ m, m < s.n → (m ^ s.e) ^ d % s.n = m) →
    ∃ t u, exec .encBlock s = .next t ∧
      exec .decBlock { t with inBuf := t.outBuf, inLen := t.outLen, e := d } = .next u ∧
      u.err = 0 ∧ u.r = beInt (s.inBuf.bytesFrom 0 s.inLen.toNat) ∧
      u.outBuf.bytesFrom 0 u.outLen.toNat = minimal (beInt (s.inBuf.bytesFrom 0 s.inLen.toNat))

/-- R57: a list of transactions played by the driver (log entry 13) is a run of the machine with that list
as its agenda. -/
def Obligations.PlayIsARunOfTheMachine : Prop :=
  ∀ evs (s t : State) answers, evs ≠ [] → play evs s = some (t, answers) →
    Host.Core.run Sys2Proof.core evs.length { s with agenda := evs } = .next t

/-- R58: `ldbig X, v` loads the register and changes nothing else, for each of A, B, E and N. That no other
agent acts between its transactions is the model's choice (log entry 13). -/
def Obligations.LdbigLoadsRegister : Prop :=
  ∀ (s : State) v, s.Inv → s.busy = false → s.rstLine = false → v < 2 ^ (8 * s.cfg.maxBytes) →
    (∃ rs, play (ldbig s.cfg 0x1000 v) s = some ({ s with a := v, agenda := [], resp := .written }, rs)) ∧
    (∃ rs, play (ldbig s.cfg 0x2000 v) s = some ({ s with b := v, agenda := [], resp := .written }, rs)) ∧
    (∃ rs, play (ldbig s.cfg 0x3000 v) s = some ({ s with e := v, agenda := [], resp := .written }, rs)) ∧
    ∃ rs, play (ldbig s.cfg 0x4000 v) s = some ({ s with n := v, agenda := [], resp := .written }, rs)

/-- R58, R61, 90_conflicts.md C9: how `wait` ends. With no reset and no other bus master (log entry 13) it
always ends: after one read where MEE is idle, and else at the first read after the completion step, however
many polls come before; a hardware reset or another master's soft reset ends it too. -/
def Obligations.WaitEndsAfterCompletion : Prop :=
  ∀ s : State, s.Inv → s.rstLine = false →
    (∀ others : WaitSteps, others.quiet → ∃ t ws last, waitIdle others s = some (t, ws ++ [last]) ∧
      (∀ w ∈ ws, w.getLsbD 0 = true) ∧ last.getLsbD 0 = false ∧
      (s.busy = false → ws = [] ∧ t.arch = s.arch) ∧
      (s.busy = true → last.getLsbD 1 = true ∧ ∃ u, engineStep s = .next u ∧ t.arch = u.arch)) ∧
    (s.busy = true → ∀ j (others : WaitSteps),
      (∃ t ws last, waitIdle (List.replicate j [] ++ [.engine] :: others) s = some (t, ws ++ [last]) ∧
        ws.length = j) ∧
      ∀ evs ∈ [[Event.resetAssert, Event.resetRelease], [wr s.cfg 0x0008 0x2#32]],
        ∃ t ws, waitIdle (List.replicate j [] ++ evs :: others) s = some (t, ws ++ [0]) ∧ ws.length = j ∧
          (∀ w ∈ ws, w.getLsbD 0 = true) ∧ t.arch = State.resetWith s.cfg)

/-- R74: a key that `keygen` answers is a key pair modulo phi, and a draw with `1 < e < phi` that is
coprime to phi ends the loop, where only the engine acts during the waits (log entry 13). -/
def Obligations.KeygenAnswersInverseExponents : Prop :=
  ∀ (s : State) waits p q draws, s.Inv → s.busy = false → s.rstLine = false →
    (∀ k, (waits k : WaitSteps).quiet) → p * q < 2 ^ (8 * s.cfg.maxBytes) →
    (∀ t e d n, keygen waits p q draws s = some (t, e, d, n) →
      n = p * q ∧ 1 < e ∧ e < (p - 1) * (q - 1) ∧ Nat.gcd e ((p - 1) * (q - 1)) = 1 ∧
      d < (p - 1) * (q - 1) ∧ e * d % ((p - 1) * (q - 1)) = 1) ∧
    ((∃ bytes ∈ draws, bytes.length = byteLength ((p - 1) * (q - 1)) - 1 ∧ 1 < beInt bytes ∧
        Nat.gcd (beInt bytes) ((p - 1) * (q - 1)) = 1) →
      (keygen waits p q draws s).isSome)

/-- R74, 90_conflicts.md C3: for `phi < 256` every draw is 0, and no number of draws ends the loop (which
shows as consuming every draw: log entry 13). -/
def Obligations.KeygenNeverEndsForSmallPhi : Prop :=
  ∀ (s : State) waits p q draws, (p - 1) * (q - 1) < 256 → keygen waits p q draws s = none

/-- R83, R84, R85, where only the engine acts during the waits (log entry 13): with no I/O failure `encrypt`
returns and emits `L * ceil(|in| / (L-1))` bytes, none for `L = 1`, and `decrypt` returns; a failing read or
emit ends either one, and what was emitted before it stays emitted. -/
def Obligations.EncryptOutputLength : Prop :=
  ∀ (s : State) waits key n inp, s.Inv → s.rstLine = false → (∀ k, (waits k : WaitSteps).quiet) →
    1 ≤ n → n < 2 ^ (8 * s.cfg.maxBytes) → key < 2 ^ (8 * s.cfg.maxBytes) →
    (encrypt waits ⟨none, none⟩ key n inp s).finish = .returned ∧
    (2 ≤ byteLength n → (encrypt waits ⟨none, none⟩ key n inp s).out.length =
      byteLength n * ((inp.length + (byteLength n - 1) - 1) / (byteLength n - 1))) ∧
    (n ≤ 255 → (encrypt waits ⟨none, none⟩ key n inp s).out = []) ∧
    (decrypt waits ⟨none, none⟩ key n inp s).finish = .returned ∧
    keepsEmitted (fun bad x => encrypt waits bad key n x s) (byteLength n - 1) inp ∧
    keepsEmitted (fun bad x => decrypt waits bad key n x s) (byteLength n) inp

/-- R87: decrypting what `encrypt` emitted gives the minimal encodings of the plaintext blocks' integers,
and that is the input exactly when no block begins with 0x00. Only the engine acts during the waits, and
nothing between the other transactions (log entry 13). -/
def Obligations.StreamRoundTrip : Prop :=
  ∀ (s : State) waits waits' e d n inp, s.Inv → s.rstLine = false →
    (∀ k, (waits k : WaitSteps).quiet ∧ (waits' k : WaitSteps).quiet) → 256 ≤ n → n < 2 ^ (8 * s.cfg.maxBytes) →
    e < 2 ^ (8 * s.cfg.maxBytes) → d < 2 ^ (8 * s.cfg.maxBytes) → (∀ m, m < n → (m ^ e) ^ d % n = m) →
    ∃ enc dec : StreamRun, enc = encrypt waits ⟨none, none⟩ e n inp s ∧
      dec = decrypt waits' ⟨none, none⟩ d n enc.out enc.state ∧ dec.finish = .returned ∧
      dec.out = (streamBlocks (byteLength n - 1) inp).flatMap (fun b => minimal (beInt b)) ∧
      (dec.out = inp ↔ ∀ b ∈ streamBlocks (byteLength n - 1) inp, b.head? ≠ some 0)

/-- R87, R74: a key pair that `keygen` answers for two different primes satisfies the premise of the round
trip: each exponent undoes the other on every residue (`keygen` in the form of log entry 13). -/
def Obligations.GeneratedKeysInvertEachOther : Prop :=
  ∀ (s t : State) waits p q draws e d n, s.Inv → s.busy = false → s.rstLine = false →
    (∀ k, (waits k : WaitSteps).quiet) → p.Prime → q.Prime → p ≠ q →
    keygen waits p q draws s = some (t, e, d, n) → ∀ m, m < n → (m ^ e) ^ d % n = m

/-- R43: repeating any write but one to CMD leaves the state the first one left, idle or busy; repeating a
read does too while MEE is idle. -/
def Obligations.RepeatedAccessesChangeNothingMore : Prop :=
  ∀ (s : State) off, s.Inv → off < 0x10000 → off % 4 = 0 →
    (off ≠ 0x000C → ∀ w, (s.busWrite off w).busWrite off w = s.busWrite off w) ∧
    (s.busy = false → (s.busRead off).busRead off = s.busRead off)
end

