-- ==== Sys2Proof/Laws/Numbers.lean ====
section
/-! SUPPORT. Laws of the number and byte-string primitives (R11, R12) and of the words of a big-integer
register (R28). -/

namespace Sys2Proof.Machine

@[simp] theorem bitlen_zero : bitlen 0 = 0 := rfl

/-- `bitlen v` is the least number of bits that holds `v`. -/
theorem bitlen_le_iff (v k : Nat) : bitlen v ≤ k ↔ v < 2 ^ k := by
  unfold bitlen
  split
  · next h => simp [h]
  · next h => rw [← Nat.log2_lt h, Nat.succ_le_iff]

theorem lt_two_pow_bitlen (v : Nat) : v < 2 ^ bitlen v := (bitlen_le_iff v _).1 le_rfl

theorem two_pow_bitlen_pred_le {v : Nat} (h : v ≠ 0) : 2 ^ (bitlen v - 1) ≤ v := by
  by_contra hlt
  have hle : bitlen v ≤ bitlen v - 1 := (bitlen_le_iff v _).2 (by omega)
  have hpos : bitlen v ≠ 0 := fun h0 => h (by have := lt_two_pow_bitlen v; rw [h0] at this; omega)
  omega

theorem bitlen_pos {v : Nat} (h : v ≠ 0) : 0 < bitlen v := by
  have := lt_two_pow_bitlen v
  rcases Nat.eq_zero_or_pos (bitlen v) with h0 | h0
  · rw [h0] at this; omega
  · exact h0

/-- `byteLength v` is the least number of bytes that holds `v`. -/
theorem byteLength_le_iff (v k : Nat) : byteLength v ≤ k ↔ v < 256 ^ k := by
  have h : (256 : Nat) ^ k = 2 ^ (8 * k) := by rw [pow_mul]; norm_num
  rw [h, ← bitlen_le_iff, byteLength]
  omega

theorem lt_pow_byteLength (v : Nat) : v < 256 ^ byteLength v := (byteLength_le_iff v _).1 le_rfl

@[simp] theorem byteLength_zero : byteLength 0 = 0 := rfl

theorem byteLength_pos {v : Nat} (h : v ≠ 0) : 0 < byteLength v := by
  have := bitlen_pos h
  unfold byteLength
  omega

theorem pow_byteLength_pred_le {v : Nat} (h : v ≠ 0) : 256 ^ (byteLength v - 1) ≤ v := by
  by_contra hlt
  have hle : byteLength v ≤ byteLength v - 1 := (byteLength_le_iff v _).2 (by omega)
  have := byteLength_pos h
  omega

theorem byteLength_le_of_le {u v : Nat} (h : u ≤ v) : byteLength u ≤ byteLength v :=
  (byteLength_le_iff u _).2 (lt_of_le_of_lt h (lt_pow_byteLength v))

/-- A number that fits a register has a byte length of at most `MAXBYTES`. -/
theorem byteLength_le_of_fits {v m : Nat} (h : v < 2 ^ (8 * m)) : byteLength v ≤ m := by
  rw [byteLength_le_iff]
  calc v < 2 ^ (8 * m) := h
    _ = 256 ^ m := by rw [pow_mul]; norm_num

theorem beInt_lt (s : List Byte) : beInt s < 256 ^ s.length := by
  induction s with
  | nil => simp [beInt]
  | cons x xs ih =>
    have hx : x.toNat < 256 := x.isLt
    calc beInt (x :: xs) < x.toNat * 256 ^ xs.length + 256 ^ xs.length := by simp [beInt, ih]
      _ = (x.toNat + 1) * 256 ^ xs.length := by ring
      _ ≤ 256 * 256 ^ xs.length := Nat.mul_le_mul_right _ (by omega)
      _ = 256 ^ (x :: xs).length := by rw [List.length_cons, pow_succ]; ring

@[simp] theorem beBytes_length (v k : Nat) : (beBytes v k).length = k := by
  induction k with
  | zero => rfl
  | succ k ih => simp [beBytes, ih]

/-- `be_bytes(v, k)` spells the low `k` bytes of `v`. -/
theorem beInt_beBytes_mod (v k : Nat) : beInt (beBytes v k) = v % 256 ^ k := by
  induction k with
  | zero => simp [beBytes, beInt, Nat.mod_one]
  | succ k ih =>
    have h1 : (BitVec.ofNat 8 (v / 256 ^ k)).toNat = v / 256 ^ k % 256 := by simp
    simp only [beBytes, beInt, ih, beBytes_length, h1]
    rw [pow_succ, Nat.mod_mul]
    ring

/-- R12: `be_int(be_bytes(v, k)) = v` where `v < 256^k`. -/
theorem beInt_beBytes {v k : Nat} (h : v < 256 ^ k) : beInt (beBytes v k) = v := by
  rw [beInt_beBytes_mod, Nat.mod_eq_of_lt h]

theorem beInt_minimal (v : Nat) : beInt (minimal v) = v := beInt_beBytes (lt_pow_byteLength v)

@[simp] theorem minimal_length (v : Nat) : (minimal v).length = byteLength v := beBytes_length _ _

/-- A byte string of a given length is fixed by the integer it spells. -/
theorem beInt_inj {s t : List Byte} (hl : s.length = t.length) (h : beInt s = beInt t) : s = t := by
  induction s generalizing t with
  | nil => cases t with
    | nil => rfl
    | cons _ _ => simp at hl
  | cons x xs ih =>
    cases t with
    | nil => simp at hl
    | cons y ys =>
      have hl' : xs.length = ys.length := by simpa using hl
      have hx := beInt_lt xs
      have hy := beInt_lt ys
      simp only [beInt, hl'] at h hx
      have hpos : 0 < 256 ^ ys.length := by positivity
      have hxy : x.toNat = y.toNat := by
        have e1 : (x.toNat * 256 ^ ys.length + beInt xs) / 256 ^ ys.length = x.toNat := by
          rw [Nat.add_comm, Nat.add_mul_div_right _ _ hpos, Nat.div_eq_of_lt hx]; omega
        have e2 : (y.toNat * 256 ^ ys.length + beInt ys) / 256 ^ ys.length = y.toNat := by
          rw [Nat.add_comm, Nat.add_mul_div_right _ _ hpos, Nat.div_eq_of_lt hy]; omega
        rw [← e1, ← e2, h]
      have htl : beInt xs = beInt ys := by rw [hxy] at h; omega
      rw [BitVec.eq_of_toNat_eq hxy, ih hl' htl]

theorem beInt_zero_cons (s : List Byte) : beInt (0#8 :: s) = beInt s := by simp [beInt]

/-- Digit `k` of `x` in base `B`; a big-integer register's words are its digits in base `2^32` (R28). -/
def digit (B x k : Nat) : Nat := x / B ^ k % B

/-- `x` with digit `k` replaced. -/
def setDigit (B x k w : Nat) : Nat := x - digit B x k * B ^ k + w * B ^ k

theorem digit_succ (B x k : Nat) : digit B x (k + 1) = digit B (x / B) k := by
  unfold digit
  rw [pow_succ, Nat.mul_comm, ← Nat.div_div_eq_div_mul]

theorem digit_mul_le (B x k : Nat) : digit B x k * B ^ k ≤ x :=
  le_trans (Nat.mul_le_mul_right _ (Nat.mod_le _ _)) (Nat.div_mul_le_self _ _)

theorem setDigit_zero (B x w : Nat) : setDigit B x 0 w = w + B * (x / B) := by
  have := Nat.div_add_mod x B
  simp only [setDigit, digit, pow_zero, Nat.div_one, Nat.mul_one]
  omega

theorem setDigit_succ (B x k w : Nat) : setDigit B x (k + 1) w = x % B + B * setDigit B (x / B) k w := by
  have h := Nat.div_add_mod x B
  have hle := Nat.mul_le_mul_left B (digit_mul_le B (x / B) k)
  have e : ∀ u, u * B ^ (k + 1) = B * (u * B ^ k) := fun u => by rw [pow_succ]; ring
  rw [setDigit, setDigit, digit_succ, e, e, Nat.mul_add, Nat.mul_sub]
  omega

theorem digit_zero_add {B u : Nat} (v : Nat) (hu : u < B) : digit B (u + B * v) 0 = u := by
  simp [digit, Nat.mod_eq_of_lt hu]

theorem digit_succ_add {B u : Nat} (v k : Nat) (hu : u < B) : digit B (u + B * v) (k + 1) = digit B v k := by
  rw [digit_succ, Nat.add_mul_div_left _ _ (by omega), Nat.div_eq_of_lt hu, Nat.zero_add]

/-- The written digit reads back, and every other digit is unchanged. -/
theorem digit_setDigit {B w : Nat} (hw : w < B) (x k j : Nat) :
    digit B (setDigit B x k w) j = if j = k then w else digit B x j := by
  have hm : ∀ y, y % B < B := fun y => Nat.mod_lt _ (by omega)
  induction k generalizing x j with
  | zero =>
    rw [setDigit_zero]
    cases j with
    | zero => rw [digit_zero_add _ hw, if_pos rfl]
    | succ j => rw [digit_succ_add _ _ hw, if_neg (by omega), digit_succ]
  | succ k ih =>
    rw [setDigit_succ]
    cases j with
    | zero => rw [digit_zero_add _ (hm x), if_neg (by omega)]; simp [digit]
    | succ j => rw [digit_succ_add _ _ (hm x), ih, digit_succ]; simp

theorem setDigit_lt {B w x k m : Nat} (hw : w < B) (hx : x < B ^ m) (hk : k < m) :
    setDigit B x k w < B ^ m := by
  induction k generalizing x m with
  | zero =>
    obtain ⟨m, rfl⟩ : ∃ l, m = l + 1 := ⟨m - 1, by omega⟩
    have hq : x / B < B ^ m := Nat.div_lt_of_lt_mul (by rw [← Nat.pow_succ']; exact hx)
    rw [setDigit_zero, Nat.pow_succ']
    have := Nat.mul_le_mul_left B hq
    rw [Nat.mul_succ] at this
    omega
  | succ k ih =>
    obtain ⟨m, rfl⟩ : ∃ l, m = l + 1 := ⟨m - 1, by omega⟩
    have hq : x / B < B ^ m := Nat.div_lt_of_lt_mul (by rw [← Nat.pow_succ']; exact hx)
    have hm : x % B < B := Nat.mod_lt _ (by omega)
    rw [setDigit_succ, Nat.pow_succ']
    have := Nat.mul_le_mul_left B (ih hq (by omega))
    rw [Nat.mul_succ] at this
    omega

/-- A number of `m` digits is fixed by its digits. -/
theorem digit_ext {B x y m : Nat} (hx : x < B ^ m) (hy : y < B ^ m)
    (h : ∀ k < m, digit B x k = digit B y k) : x = y := by
  induction m generalizing x y with
  | zero => simp at hx hy; omega
  | succ m ih =>
    have hq : ∀ z, z < B ^ (m + 1) → z / B < B ^ m := fun z hz =>
      Nat.div_lt_of_lt_mul (by rw [← Nat.pow_succ']; exact hz)
    have h0 : x % B = y % B := by simpa [digit] using h 0 (by omega)
    have h1 : x / B = y / B := ih (hq x hx) (hq y hy) fun k hk => by
      rw [← digit_succ, ← digit_succ]; exact h (k + 1) (by omega)
    rw [← Nat.div_add_mod x B, ← Nat.div_add_mod y B, h0, h1]

theorem bigWord_toNat (x k : Nat) : (bigWord x k).toNat = digit (2 ^ 32) x k := by
  simp only [bigWord, digit, BitVec.toNat_ofNat, pow_mul]

theorem setBigWord_eq (x k : Nat) (w : Word) : setBigWord x k w = setDigit (2 ^ 32) x k w.toNat := by
  rw [setBigWord, setDigit, bigWord_toNat, pow_mul]

/-- R28: the written word reads back, and every other word is unchanged. -/
theorem bigWord_setBigWord (x k j : Nat) (w : Word) :
    bigWord (setBigWord x k w) j = if j = k then w else bigWord x j := by
  apply BitVec.eq_of_toNat_eq
  rw [bigWord_toNat, setBigWord_eq, digit_setDigit w.isLt]
  split
  · rfl
  · rw [bigWord_toNat]

/-- A write of a word inside a register of `m` words keeps it within its width. -/
theorem setBigWord_lt {x k m : Nat} (w : Word) (hx : x < 2 ^ (32 * m)) (hk : k < m) :
    setBigWord x k w < 2 ^ (32 * m) := by
  rw [setBigWord_eq, pow_mul]
  exact setDigit_lt w.isLt (by rw [← pow_mul]; exact hx) hk

/-- R28: a register of `m` words is fixed by its words. -/
theorem big_ext {x y m : Nat} (hx : x < 2 ^ (32 * m)) (hy : y < 2 ^ (32 * m))
    (h : ∀ k < m, bigWord x k = bigWord y k) : x = y := by
  rw [pow_mul] at hx hy
  refine digit_ext hx hy fun k hk => ?_
  rw [← bigWord_toNat, ← bigWord_toNat, h k hk]

end Sys2Proof.Machine
end

