-- ==== Sys2Proof/Laws/Arithmetic.lean ====
section
/-! SUPPORT. The arithmetic operations of the commands compute what the rules say: square-and-multiply is
exponentiation modulo `n` (R69, R70), and the Euclidean steps give the inverse (R71, R72). -/

namespace Sys2Proof.Machine

/-- Square-and-multiply over any multiplier that is exact on residues is exponentiation (R70, R77). -/
theorem powBits_eq {n : Nat} {mul : Nat → Nat → Nat} (hn : 0 < n)
    (hmul : ∀ x < n, ∀ y < n, mul x y = x * y % n) {a : Nat} (ha : a < n) (bits e : Nat) (he : e < 2 ^ bits) :
    powBits mul (1 % n) a bits e = a ^ e % n := by
  induction bits generalizing e with
  | zero =>
    have h0 : e = 0 := by simpa using he
    simp [powBits, h0]
  | succ bits ih =>
    by_cases h0 : e = 0
    · simp [powBits, h0]
    · have hlt : ∀ z, z % n < n := fun z => Nat.mod_lt _ hn
      have hh : powBits mul (1 % n) a bits (e / 2) = a ^ (e / 2) % n := ih _ (by omega)
      have hsq : a ^ (e / 2) % n * (a ^ (e / 2) % n) % n = a ^ (2 * (e / 2)) % n := by
        rw [← Nat.mul_mod, two_mul, pow_add]
      simp only [powBits, if_neg h0, hh]
      rw [hmul _ (hlt _) _ (hlt _), hsq]
      split
      · next hodd =>
        rw [hmul _ (hlt _) _ ha, Nat.mod_mul_mod, ← pow_succ]
        congr 2; omega
      · next heven => congr 2; omega

/-- R69: `modPow` is `a^e mod n`, exactly, for every `n >= 1`. -/
theorem modPow_eq {n : Nat} (hn : n ≠ 0) (a e : Nat) : modPow a e n = a ^ e % n := by
  have hpos : 0 < n := by omega
  have h := powBits_eq (mul := fun x y => modMul x y n) hpos (fun _ _ _ _ => rfl) (Nat.mod_lt a hpos) _ _
    (lt_two_pow_bitlen e)
  rw [← Nat.pow_mod] at h
  exact h

theorem modPow_lt {n : Nat} (hn : n ≠ 0) (a e : Nat) : modPow a e n < n := by
  rw [modPow_eq hn]; exact Nat.mod_lt _ (by omega)

/-- One Euclidean step keeps `r_i = a * s_i (mod n)`. -/
theorem euclid_step {n a r0 r1 s0 s1 : Nat} (hn : 0 < n) (h0 : a * s0 ≡ r0 [MOD n]) (h1 : a * s1 ≡ r1 [MOD n]) :
    a * ((s0 + (n - r0 / r1 * s1 % n)) % n) ≡ r0 % r1 [MOD n] := by
  have hlt : r0 / r1 * s1 % n < n := Nat.mod_lt _ hn
  have hs : (s0 + (n - r0 / r1 * s1 % n)) % n + r0 / r1 * s1 ≡ s0 [MOD n] := by
    have e1 : (s0 + (n - r0 / r1 * s1 % n)) % n + r0 / r1 * s1
        ≡ (s0 + (n - r0 / r1 * s1 % n)) + r0 / r1 * s1 % n [MOD n] :=
      (Nat.mod_modEq _ _).add (Nat.mod_modEq _ _).symm
    have e2 : (s0 + (n - r0 / r1 * s1 % n)) + r0 / r1 * s1 % n = s0 + n := by omega
    rw [e2] at e1
    exact e1.trans (by simp [Nat.ModEq])
  have hmul : a * ((s0 + (n - r0 / r1 * s1 % n)) % n) + r0 / r1 * (a * s1) ≡ a * s0 [MOD n] := by
    have := hs.mul_left a
    rw [Nat.mul_add] at this
    rwa [Nat.mul_left_comm] at this
  have hr : r0 = r0 % r1 + r0 / r1 * r1 := by
    have := Nat.mod_add_div r0 r1; rw [Nat.mul_comm] at this; omega
  have hfin : a * ((s0 + (n - r0 / r1 * s1 % n)) % n) + r0 / r1 * r1 ≡ r0 % r1 + r0 / r1 * r1 [MOD n] :=
    ((Nat.ModEq.refl _).add (h1.symm.mul_left _)).trans ((hmul.trans h0).trans (by rw [← hr]))
  exact Nat.ModEq.add_right_cancel' _ hfin

/-- The Euclidean steps, given enough rounds, end in a coefficient of the greatest common divisor. -/
theorem euclid_spec {n a : Nat} (hn : 0 < n) (k fuel r0 r1 s0 s1 : Nat) (hk : r1 < 2 ^ k) (hf : 2 * k + 1 ≤ fuel)
    (hlt : s0 < n) (hlt1 : s1 < n) (h0 : a * s0 ≡ r0 [MOD n]) (h1 : a * s1 ≡ r1 [MOD n]) :
    euclid n fuel r0 r1 s0 s1 < n ∧ a * euclid n fuel r0 r1 s0 s1 ≡ Nat.gcd r0 r1 [MOD n] := by
  have base : ∀ fuel r0 s0 s1, s0 < n → a * s0 ≡ r0 [MOD n] →
      euclid n fuel r0 0 s0 s1 < n ∧ a * euclid n fuel r0 0 s0 s1 ≡ Nat.gcd r0 0 [MOD n] := by
    intro fuel r0 s0 s1 hs hm
    cases fuel <;> simp [euclid, hs, hm]
  induction k generalizing fuel r0 r1 s0 s1 with
  | zero =>
    have : r1 = 0 := by simpa using hk
    subst this
    exact base _ _ _ _ hlt h0
  | succ k ih =>
    by_cases hr1 : r1 = 0
    · subst hr1; exact base _ _ _ _ hlt h0
    obtain ⟨fuel, rfl⟩ : ∃ f, fuel = f + 2 := ⟨fuel - 2, by omega⟩
    have hg : Nat.gcd r0 r1 = Nat.gcd r1 (r0 % r1) := by
      rw [Nat.gcd_comm r0 r1, Nat.gcd_rec r1 r0, Nat.gcd_comm]
    rw [euclid, if_neg hr1, hg]
    have hs2 := euclid_step (r1 := r1) hn h0 h1
    have hs2lt : (s0 + (n - r0 / r1 * s1 % n)) % n < n := Nat.mod_lt _ hn
    by_cases hr2 : r0 % r1 = 0
    · rw [hr2] at hs2 ⊢; exact base _ _ _ _ hlt1 h1
    rw [euclid, if_neg hr2]
    have hg2 : Nat.gcd r1 (r0 % r1) = Nat.gcd (r0 % r1) (r1 % (r0 % r1)) := by
      rw [Nat.gcd_comm r1, Nat.gcd_rec (r0 % r1) r1, Nat.gcd_comm]
    rw [hg2]
    refine ih _ _ _ _ _ ?_ (by omega) hs2lt (Nat.mod_lt _ hn) hs2 (euclid_step hn h1 hs2)
    -- two remainder steps at least halve the divisor
    have hA : r0 % r1 < r1 := Nat.mod_lt _ (by omega)
    have hB : r1 % (r0 % r1) < r0 % r1 := Nat.mod_lt _ (by omega)
    have hC : r1 % (r0 % r1) + r0 % r1 ≤ r1 := by
      have := Nat.div_add_mod r1 (r0 % r1)
      have hq : 1 ≤ r1 / (r0 % r1) := (Nat.one_le_div_iff (by omega)).2 (by omega)
      have := Nat.mul_le_mul_left (r0 % r1) hq
      omega
    have : r1 < 2 * 2 ^ k := by rw [← Nat.pow_succ']; exact hk
    omega

/-- R71: for `gcd(a, n) = 1`, `modInv` is in `[0, n)` and is the inverse of `a` modulo `n`. -/
theorem modInv_spec {a n : Nat} (hn : n ≠ 0) (hg : Nat.gcd a n = 1) :
    modInv a n < n ∧ a * modInv a n % n = 1 % n := by
  have hpos : 0 < n := by omega
  have h := euclid_spec (a := a) hpos (bitlen n) (2 * bitlen n + 2) a n (1 % n) 0 (lt_two_pow_bitlen n) (by omega)
    (Nat.mod_lt _ hpos) hpos (by simp [Nat.ModEq]) (by simp [Nat.ModEq])
  rw [hg] at h
  exact h

/-- R71: the inverse is unique in `[0, n)`. -/
theorem inverse_unique {a n x y : Nat} (hg : Nat.gcd a n = 1) (hx : x < n) (hy : y < n)
    (hax : a * x % n = 1 % n) (hay : a * y % n = 1 % n) : x = y := by
  have h : a * x ≡ a * y [MOD n] := hax.trans hay.symm
  have hc : Nat.gcd n a = 1 := by rw [Nat.gcd_comm]; exact hg
  have := Nat.ModEq.cancel_left_of_coprime hc h
  rwa [Nat.ModEq, Nat.mod_eq_of_lt hx, Nat.mod_eq_of_lt hy] at this

end Sys2Proof.Machine
end

