-- ==== Sys2Proof/Laws/Memory.lean ====
section
/-! SUPPORT. Laws of a block buffer: a read after a write, the canonical form and its keeping by every
operation, and words of a buffer (R29). -/

namespace Sys2Proof.Machine

@[simp] theorem Memory.read_nil (i : Nat) : Memory.read [] i = 0 := rfl

@[simp] theorem Memory.wf_nil : Memory.wf [] := ⟨List.Pairwise.nil, fun _ h => absurd h List.not_mem_nil⟩

theorem Memory.wf_cons {p : Host.Cell} {m : Memory} :
    Memory.wf (p :: m) ↔ (∀ q ∈ m, p.1 < q.1) ∧ p.2 ≠ 0#8 ∧ Memory.wf m := by
  simp only [Memory.wf, List.pairwise_cons, List.forall_mem_cons]
  tauto

/-- An index below every listed one reads 0x00. -/
theorem Memory.read_eq_zero_of_forall_ne {m : Memory} {i : Nat} (h : ∀ p ∈ m, p.1 ≠ i) : m.read i = 0 := by
  induction m with
  | nil => rfl
  | cons p m ih =>
    have hp : p.1 ≠ i := h p (by simp)
    simp only [Memory.read, hp, if_false]
    exact ih fun q hq => h q (by simp [hq])

theorem Memory.mem_write {m : Memory} {i : Nat} {v : Byte} {p : Host.Cell} (h : p ∈ m.write i v) :
    p = (i, v) ∧ v ≠ 0 ∨ p ∈ m := by
  induction m with
  | nil =>
    simp only [Memory.write] at h
    split at h <;> simp_all
  | cons q m ih =>
    simp only [Memory.write] at h
    split at h
    · split at h <;> simp_all
    · split at h
      · split at h
        · exact .inr (List.mem_cons_of_mem _ h)
        · rcases List.mem_cons.1 h with h | h
          · exact .inl ⟨h, by assumption⟩
          · exact .inr (List.mem_cons_of_mem _ h)
      · rcases List.mem_cons.1 h with h | h
        · exact .inr (by simp [h])
        · rcases ih h with h | h
          · exact .inl h
          · exact .inr (List.mem_cons_of_mem _ h)

/-- A write keeps the canonical form. -/
theorem Memory.wf_write {m : Memory} (h : m.wf) (i : Nat) (v : Byte) : (m.write i v).wf := by
  induction m with
  | nil =>
    simp only [Memory.write]
    split
    · exact Memory.wf_nil
    · next hv => exact Memory.wf_cons.2 ⟨fun _ h => absurd h List.not_mem_nil, hv, Memory.wf_nil⟩
  | cons q m ih =>
    obtain ⟨hlt, hq, hm⟩ := Memory.wf_cons.1 h
    simp only [Memory.write]
    split
    · next hi =>
      split
      · exact h
      · next hv =>
        refine Memory.wf_cons.2 ⟨fun p hp => ?_, hv, h⟩
        rcases List.mem_cons.1 hp with rfl | hp
        · exact hi
        · exact lt_trans hi (hlt p hp)
    · next hi =>
      split
      · next he =>
        split
        · exact hm
        · next hv => exact Memory.wf_cons.2 ⟨fun p hp => by simpa [he] using hlt p hp, hv, hm⟩
      · next he =>
        refine Memory.wf_cons.2 ⟨fun p hp => ?_, hq, ih hm⟩
        rcases Memory.mem_write hp with ⟨rfl, -⟩ | hp
        · show q.1 < i; omega
        · exact hlt p hp

/-- A read after a write: the byte written, and every other byte as before. -/
theorem Memory.read_write {m : Memory} (h : m.wf) (i j : Nat) (v : Byte) :
    (m.write i v).read j = if j = i then v else m.read j := by
  induction m with
  | nil =>
    simp only [Memory.write]
    by_cases hj : j = i
    · subst hj
      split
      · next hv => simp [hv]
      · simp [Memory.read]
    · have hne : ¬ i = j := fun e => hj e.symm
      split <;> simp [Memory.read, hne]
  | cons q m ih =>
    obtain ⟨hlt, hq, hm⟩ := Memory.wf_cons.1 h
    have hz : ∀ k ≤ q.1, Memory.read m k = 0 := fun k hk =>
      Memory.read_eq_zero_of_forall_ne fun p hp => by have := hlt p hp; omega
    simp only [Memory.write]
    split
    · next hi =>
      have hqi : q.1 ≠ i := by omega
      split
      · next hv =>
        by_cases hj : j = i
        · subst hj; simp [Memory.read, hqi, hz j (by omega), hv]
        · simp [hj]
      · by_cases hj : j = i
        · subst hj; simp [Memory.read]
        · have : ¬ i = j := fun e => hj e.symm
          simp [Memory.read, hj, this]
    · next hi =>
      split
      · next he =>
        subst he
        split
        · next hv =>
          by_cases hj : j = q.1
          · subst hj; simp [hz, hv]
          · have : ¬ q.1 = j := fun e => hj e.symm
            simp [Memory.read, hj, this]
        · by_cases hj : j = q.1
          · subst hj; simp [Memory.read]
          · have : ¬ q.1 = j := fun e => hj e.symm
            simp [Memory.read, hj, this]
      · next he =>
        by_cases hj : q.1 = j
        · subst hj
          have : ¬ q.1 = i := fun e => he e.symm
          simp [Memory.read, this]
        · simp [Memory.read, hj, ih hm]

/-- Two buffers in canonical form that read alike are equal. -/
theorem Memory.ext_read {m m' : Memory} (h : m.wf) (h' : m'.wf) (heq : ∀ i, m.read i = m'.read i) : m = m' := by
  induction m generalizing m' with
  | nil =>
    cases m' with
    | nil => rfl
    | cons q m' =>
      obtain ⟨-, hq, -⟩ := Memory.wf_cons.1 h'
      exact absurd (heq q.1).symm (by simpa [Memory.read] using hq)
  | cons p m ih =>
    obtain ⟨hlt, hp, hm⟩ := Memory.wf_cons.1 h
    cases m' with
    | nil => exact absurd (heq p.1) (by simpa [Memory.read] using hp)
    | cons q m' =>
      obtain ⟨hlt', hq, hm'⟩ := Memory.wf_cons.1 h'
      have low : ∀ {l : Memory} {b k : Nat}, (∀ r ∈ l, b < r.1) → k ≤ b → l.read k = 0 := fun hl hk =>
        Memory.read_eq_zero_of_forall_ne fun r hr => by have := hl r hr; omega
      have hidx : p.1 = q.1 := by
        rcases Nat.lt_trichotomy p.1 q.1 with hlt1 | he | hlt1
        · have hne : ¬ q.1 = p.1 := by omega
          have := heq p.1
          simp only [Memory.read, if_true, hne, if_false, low hlt' (le_of_lt hlt1)] at this
          exact absurd this hp
        · exact he
        · have hne : ¬ p.1 = q.1 := by omega
          have := heq q.1
          simp only [Memory.read, if_true, hne, if_false, low hlt (le_of_lt hlt1)] at this
          exact absurd this.symm hq
      have hval : p.2 = q.2 := by simpa [Memory.read, hidx] using heq p.1
      have htl : m = m' := ih hm hm' fun i => by
        by_cases hi : i ≤ p.1
        · rw [low hlt hi, low hlt' (hidx ▸ hi)]
        · have h1 : ¬ p.1 = i := by omega
          have h2 : ¬ q.1 = i := by omega
          simpa [Memory.read, h1, h2] using heq i
      rw [htl, Prod.ext hidx hval]

theorem Memory.mem_ofBytesFrom {i : Nat} {s : List Byte} {p : Host.Cell} (h : p ∈ Memory.ofBytesFrom i s) :
    i ≤ p.1 ∧ p.1 < i + s.length ∧ p.2 ≠ 0#8 := by
  induction s generalizing i with
  | nil => simp [Memory.ofBytesFrom] at h
  | cons x xs ih =>
    simp only [Memory.ofBytesFrom] at h
    split at h
    · obtain ⟨h1, h2, h3⟩ := ih h
      simp only [List.length_cons]
      exact ⟨by omega, by omega, h3⟩
    · next hx =>
      rcases List.mem_cons.1 h with rfl | h
      · exact ⟨le_rfl, by simp, hx⟩
      · have := ih h; simp only [List.length_cons]; exact ⟨by omega, by omega, this.2.2⟩

theorem Memory.wf_ofBytesFrom (i : Nat) (s : List Byte) : (Memory.ofBytesFrom i s).wf := by
  induction s generalizing i with
  | nil => exact Memory.wf_nil
  | cons x xs ih =>
    simp only [Memory.ofBytesFrom]
    split
    · exact ih _
    · next hx =>
      refine Memory.wf_cons.2 ⟨fun p hp => ?_, hx, ih _⟩
      have := (Memory.mem_ofBytesFrom hp).1
      show i < p.1
      omega

theorem Memory.read_ofBytesFrom (i j : Nat) (s : List Byte) :
    (Memory.ofBytesFrom i s).read (i + j) = s.getD j 0 := by
  induction s generalizing i j with
  | nil => simp [Memory.ofBytesFrom]
  | cons x xs ih =>
    have low : (Memory.ofBytesFrom (i + 1) xs).read i = 0 :=
      Memory.read_eq_zero_of_forall_ne fun p hp => by have := (Memory.mem_ofBytesFrom hp).1; omega
    cases j with
    | zero =>
      simp only [Memory.ofBytesFrom, Nat.add_zero]
      split
      · next hx => rw [low]; simpa using hx.symm
      · simp [Memory.read]
    | succ j =>
      have e : i + (j + 1) = i + 1 + j := by omega
      simp only [Memory.ofBytesFrom]
      split
      · rw [e, ih]; simp
      · have hne : ¬ i = i + (j + 1) := by omega
        simp only [Memory.read, hne, if_false]
        rw [e, ih]; simp

/-- The buffer of a byte string is in canonical form. -/
theorem Memory.wf_ofBytes (s : List Byte) : (Memory.ofBytes s).wf := Memory.wf_ofBytesFrom 0 s

/-- The buffer of a byte string holds it from index 0 on, and 0x00 past its end. -/
theorem Memory.read_ofBytes (s : List Byte) (i : Nat) : (Memory.ofBytes s).read i = s.getD i 0 := by
  have h := Memory.read_ofBytesFrom 0 i s
  rwa [Nat.zero_add] at h

theorem Memory.mem_ofBytes {s : List Byte} {p : Host.Cell} (h : p ∈ Memory.ofBytes s) : p.1 < s.length := by
  simpa using (Memory.mem_ofBytesFrom h).2.1

@[simp] theorem Memory.bytesFrom_length (m : Memory) (i len : Nat) : (m.bytesFrom i len).length = len := by
  induction len generalizing i with
  | zero => rfl
  | succ len ih => simp [Memory.bytesFrom, ih]

theorem Memory.bytesFrom_getD (m : Memory) (i len k : Nat) (h : k < len) :
    (m.bytesFrom i len).getD k 0 = m.read (i + k) := by
  induction len generalizing i k with
  | zero => omega
  | succ len ih =>
    cases k with
    | zero => simp [Memory.bytesFrom]
    | succ k =>
      have e : i + (k + 1) = i + 1 + k := by omega
      rw [e, ← ih (i + 1) k (by omega)]
      simp [Memory.bytesFrom]

theorem Memory.bytesFrom_congr {m m' : Memory} {i len : Nat} (h : ∀ k < len, m.read (i + k) = m'.read (i + k)) :
    m.bytesFrom i len = m'.bytesFrom i len := by
  induction len generalizing i with
  | zero => rfl
  | succ len ih =>
    have h0 : m.read i = m'.read i := by simpa using h 0 (by omega)
    have ht : m.bytesFrom (i + 1) len = m'.bytesFrom (i + 1) len := ih fun k hk => by
      have e : i + 1 + k = i + (k + 1) := by omega
      rw [e]; exact h (k + 1) (by omega)
    simp [Memory.bytesFrom, h0, ht]

theorem byteString_ext {s t : List Byte} (hl : s.length = t.length)
    (h : ∀ k < s.length, s.getD k 0 = t.getD k 0) : s = t := by
  apply List.ext_getElem hl
  intro k h1 h2
  have := h k h1
  simpa [List.getD_eq_getElem, h1, h2] using this

/-- The bytes of the buffer of `s`, as many as `s` has, are `s`. -/
theorem Memory.bytesFrom_ofBytes (s : List Byte) : (Memory.ofBytes s).bytesFrom 0 s.length = s := by
  refine byteString_ext (by simp) fun k hk => ?_
  rw [Memory.bytesFrom_length] at hk
  rw [Memory.bytesFrom_getD _ _ _ _ hk, Nat.zero_add, Memory.read_ofBytes]

/-- R29: byte `j` of word `k` of a buffer. -/
theorem wordByte_readWord (m : Memory) (k j : Nat) (hj : j < 4) :
    wordByte (m.readWord k) j = m.read (4 * k + j) := by
  have hcat : ∀ b3 b2 b1 b0 : Byte, ∀ l < 4, wordByte (b3 ++ b2 ++ b1 ++ b0) l
      = if l = 0 then b0 else if l = 1 then b1 else if l = 2 then b2 else b3 := by
    intro b3 b2 b1 b0 l hl
    apply BitVec.eq_of_getLsbD_eq
    intro i hi
    interval_cases l <;>
      simp only [wordByte, BitVec.getLsbD_extractLsb', BitVec.getLsbD_append, hi, decide_true,
        Bool.true_and] <;> simp <;> grind
  unfold Memory.readWord
  rw [hcat _ _ _ _ j hj]
  interval_cases j <;> rfl

theorem Memory.wf_writeWord {m : Memory} (h : m.wf) (k : Nat) (w : Word) : (m.writeWord k w).wf :=
  Memory.wf_write (Memory.wf_write (Memory.wf_write (Memory.wf_write h _ _) _ _) _ _) _ _

theorem Memory.mem_writeWord {m : Memory} {k : Nat} {w : Word} {p : Host.Cell} (h : p ∈ m.writeWord k w) :
    p.1 < 4 * k + 4 ∨ p ∈ m := by
  rcases Memory.mem_write h with ⟨rfl, -⟩ | h
  · exact .inl (by simp)
  rcases Memory.mem_write h with ⟨rfl, -⟩ | h
  · exact .inl (by simp)
  rcases Memory.mem_write h with ⟨rfl, -⟩ | h
  · exact .inl (by simp)
  rcases Memory.mem_write h with ⟨rfl, -⟩ | h
  · exact .inl (by simp)
  exact .inr h

/-- R29: a host write of `w` to word `k`: its four bytes, and every other byte as before. -/
theorem Memory.read_writeWord {m : Memory} (h : m.wf) (k i : Nat) (w : Word) :
    (m.writeWord k w).read i = if i / 4 = k then wordByte w (i % 4) else m.read i := by
  have h1 := Memory.wf_write h (4 * k) (wordByte w 0)
  have h2 := Memory.wf_write h1 (4 * k + 1) (wordByte w 1)
  have h3 := Memory.wf_write h2 (4 * k + 2) (wordByte w 2)
  unfold Memory.writeWord
  rw [Memory.read_write h3, Memory.read_write h2, Memory.read_write h1, Memory.read_write h]
  by_cases hk : i / 4 = k
  · rw [if_pos hk]
    have : i = 4 * k ∨ i = 4 * k + 1 ∨ i = 4 * k + 2 ∨ i = 4 * k + 3 := by omega
    rcases this with rfl | rfl | rfl | rfl
    · simp
    · rw [show (4 * k + 1) % 4 = 1 by omega]; simp
    · rw [show (4 * k + 2) % 4 = 2 by omega]; simp
    · rw [show (4 * k + 3) % 4 = 3 by omega]; simp
  · rw [if_neg hk, if_neg (by omega), if_neg (by omega), if_neg (by omega), if_neg (by omega)]

end Sys2Proof.Machine
end

