-- ==== Sys2Proof/Laws/State.lean ====
section
/-! SUPPORT. What each update of the state leaves in each field: one lemma a field and an update, true by
unfolding, so that no later proof unfolds a record update. -/

namespace Sys2Proof.Machine

variable (s : State)

/-! Fields after `complete(code)` (R62). -/

@[simp] theorem State.complete_cfg (c : ErrCode) : (s.complete c).cfg = s.cfg := rfl
@[simp] theorem State.complete_a (c : ErrCode) : (s.complete c).a = s.a := rfl
@[simp] theorem State.complete_b (c : ErrCode) : (s.complete c).b = s.b := rfl
@[simp] theorem State.complete_e (c : ErrCode) : (s.complete c).e = s.e := rfl
@[simp] theorem State.complete_n (c : ErrCode) : (s.complete c).n = s.n := rfl
@[simp] theorem State.complete_r (c : ErrCode) : (s.complete c).r = s.r := rfl
@[simp] theorem State.complete_g (c : ErrCode) : (s.complete c).g = s.g := rfl
@[simp] theorem State.complete_inBuf (c : ErrCode) : (s.complete c).inBuf = s.inBuf := rfl
@[simp] theorem State.complete_outBuf (c : ErrCode) : (s.complete c).outBuf = s.outBuf := rfl
@[simp] theorem State.complete_irqEn (c : ErrCode) : (s.complete c).irqEn = s.irqEn := rfl
@[simp] theorem State.complete_busy (c : ErrCode) : (s.complete c).busy = false := rfl
@[simp] theorem State.complete_done (c : ErrCode) : (s.complete c).done = true := rfl
@[simp] theorem State.complete_ovr (c : ErrCode) : (s.complete c).ovr = s.ovr := rfl
@[simp] theorem State.complete_wbusy (c : ErrCode) : (s.complete c).wbusy = s.wbusy := rfl
@[simp] theorem State.complete_err (c : ErrCode) : (s.complete c).err = c.bits := rfl
@[simp] theorem State.complete_inLen (c : ErrCode) : (s.complete c).inLen = s.inLen := rfl
@[simp] theorem State.complete_outLen (c : ErrCode) : (s.complete c).outLen = s.outLen := rfl
@[simp] theorem State.complete_curCmd (c : ErrCode) : (s.complete c).curCmd = s.curCmd := rfl
@[simp] theorem State.complete_rstLine (c : ErrCode) : (s.complete c).rstLine = s.rstLine := rfl
@[simp] theorem State.complete_agenda (c : ErrCode) : (s.complete c).agenda = s.agenda := rfl
@[simp] theorem State.complete_resp (c : ErrCode) : (s.complete c).resp = s.resp := rfl
@[simp] theorem State.complete_draws (c : ErrCode) : (s.complete c).draws = s.draws := rfl

/-! Fields after acceptance of a command word (R59). -/

@[simp] theorem State.accept_cfg (w : Word) : (s.accept w).cfg = s.cfg := rfl
@[simp] theorem State.accept_a (w : Word) : (s.accept w).a = s.a := rfl
@[simp] theorem State.accept_b (w : Word) : (s.accept w).b = s.b := rfl
@[simp] theorem State.accept_e (w : Word) : (s.accept w).e = s.e := rfl
@[simp] theorem State.accept_n (w : Word) : (s.accept w).n = s.n := rfl
@[simp] theorem State.accept_r (w : Word) : (s.accept w).r = s.r := rfl
@[simp] theorem State.accept_g (w : Word) : (s.accept w).g = s.g := rfl
@[simp] theorem State.accept_inBuf (w : Word) : (s.accept w).inBuf = s.inBuf := rfl
@[simp] theorem State.accept_outBuf (w : Word) : (s.accept w).outBuf = s.outBuf := rfl
@[simp] theorem State.accept_irqEn (w : Word) : (s.accept w).irqEn = s.irqEn := rfl
@[simp] theorem State.accept_busy (w : Word) : (s.accept w).busy = true := rfl
@[simp] theorem State.accept_done (w : Word) : (s.accept w).done = false := rfl
@[simp] theorem State.accept_ovr (w : Word) : (s.accept w).ovr = s.ovr := rfl
@[simp] theorem State.accept_wbusy (w : Word) : (s.accept w).wbusy = s.wbusy := rfl
@[simp] theorem State.accept_err (w : Word) : (s.accept w).err = 0 := rfl
@[simp] theorem State.accept_inLen (w : Word) : (s.accept w).inLen = s.inLen := rfl
@[simp] theorem State.accept_outLen (w : Word) : (s.accept w).outLen = s.outLen := rfl
@[simp] theorem State.accept_curCmd (w : Word) : (s.accept w).curCmd = w := rfl
@[simp] theorem State.accept_rstLine (w : Word) : (s.accept w).rstLine = s.rstLine := rfl
@[simp] theorem State.accept_agenda (w : Word) : (s.accept w).agenda = s.agenda := rfl
@[simp] theorem State.accept_resp (w : Word) : (s.accept w).resp = s.resp := rfl
@[simp] theorem State.accept_draws (w : Word) : (s.accept w).draws = s.draws := rfl

/-! Fields after refusal of a command word (R60). -/

@[simp] theorem State.refuseCmd_cfg : s.refuseCmd.cfg = s.cfg := rfl
@[simp] theorem State.refuseCmd_a : s.refuseCmd.a = s.a := rfl
@[simp] theorem State.refuseCmd_b : s.refuseCmd.b = s.b := rfl
@[simp] theorem State.refuseCmd_e : s.refuseCmd.e = s.e := rfl
@[simp] theorem State.refuseCmd_n : s.refuseCmd.n = s.n := rfl
@[simp] theorem State.refuseCmd_r : s.refuseCmd.r = s.r := rfl
@[simp] theorem State.refuseCmd_g : s.refuseCmd.g = s.g := rfl
@[simp] theorem State.refuseCmd_inBuf : s.refuseCmd.inBuf = s.inBuf := rfl
@[simp] theorem State.refuseCmd_outBuf : s.refuseCmd.outBuf = s.outBuf := rfl
@[simp] theorem State.refuseCmd_irqEn : s.refuseCmd.irqEn = s.irqEn := rfl
@[simp] theorem State.refuseCmd_busy : s.refuseCmd.busy = s.busy := rfl
@[simp] theorem State.refuseCmd_done : s.refuseCmd.done = s.done := rfl
@[simp] theorem State.refuseCmd_ovr : s.refuseCmd.ovr = true := rfl
@[simp] theorem State.refuseCmd_wbusy : s.refuseCmd.wbusy = s.wbusy := rfl
@[simp] theorem State.refuseCmd_err : s.refuseCmd.err = s.err := rfl
@[simp] theorem State.refuseCmd_inLen : s.refuseCmd.inLen = s.inLen := rfl
@[simp] theorem State.refuseCmd_outLen : s.refuseCmd.outLen = s.outLen := rfl
@[simp] theorem State.refuseCmd_curCmd : s.refuseCmd.curCmd = s.curCmd := rfl
@[simp] theorem State.refuseCmd_rstLine : s.refuseCmd.rstLine = s.rstLine := rfl
@[simp] theorem State.refuseCmd_agenda : s.refuseCmd.agenda = s.agenda := rfl
@[simp] theorem State.refuseCmd_resp : s.refuseCmd.resp = s.resp := rfl
@[simp] theorem State.refuseCmd_draws : s.refuseCmd.draws = s.draws := rfl

/-! Fields after a dropped operand write (R105). -/

@[simp] theorem State.dropWrite_cfg : s.dropWrite.cfg = s.cfg := rfl
@[simp] theorem State.dropWrite_a : s.dropWrite.a = s.a := rfl
@[simp] theorem State.dropWrite_b : s.dropWrite.b = s.b := rfl
@[simp] theorem State.dropWrite_e : s.dropWrite.e = s.e := rfl
@[simp] theorem State.dropWrite_n : s.dropWrite.n = s.n := rfl
@[simp] theorem State.dropWrite_r : s.dropWrite.r = s.r := rfl
@[simp] theorem State.dropWrite_g : s.dropWrite.g = s.g := rfl
@[simp] theorem State.dropWrite_inBuf : s.dropWrite.inBuf = s.inBuf := rfl
@[simp] theorem State.dropWrite_outBuf : s.dropWrite.outBuf = s.outBuf := rfl
@[simp] theorem State.dropWrite_irqEn : s.dropWrite.irqEn = s.irqEn := rfl
@[simp] theorem State.dropWrite_busy : s.dropWrite.busy = s.busy := rfl
@[simp] theorem State.dropWrite_done : s.dropWrite.done = s.done := rfl
@[simp] theorem State.dropWrite_ovr : s.dropWrite.ovr = s.ovr := rfl
@[simp] theorem State.dropWrite_wbusy : s.dropWrite.wbusy = true := rfl
@[simp] theorem State.dropWrite_err : s.dropWrite.err = s.err := rfl
@[simp] theorem State.dropWrite_inLen : s.dropWrite.inLen = s.inLen := rfl
@[simp] theorem State.dropWrite_outLen : s.dropWrite.outLen = s.outLen := rfl
@[simp] theorem State.dropWrite_curCmd : s.dropWrite.curCmd = s.curCmd := rfl
@[simp] theorem State.dropWrite_rstLine : s.dropWrite.rstLine = s.rstLine := rfl
@[simp] theorem State.dropWrite_agenda : s.dropWrite.agenda = s.agenda := rfl
@[simp] theorem State.dropWrite_resp : s.dropWrite.resp = s.resp := rfl
@[simp] theorem State.dropWrite_draws : s.dropWrite.draws = s.draws := rfl

/-! Fields after a write of STATUS (R23). -/

@[simp] theorem State.clearStatus_cfg (w : Word) : (s.clearStatus w).cfg = s.cfg := rfl
@[simp] theorem State.clearStatus_a (w : Word) : (s.clearStatus w).a = s.a := rfl
@[simp] theorem State.clearStatus_b (w : Word) : (s.clearStatus w).b = s.b := rfl
@[simp] theorem State.clearStatus_e (w : Word) : (s.clearStatus w).e = s.e := rfl
@[simp] theorem State.clearStatus_n (w : Word) : (s.clearStatus w).n = s.n := rfl
@[simp] theorem State.clearStatus_r (w : Word) : (s.clearStatus w).r = s.r := rfl
@[simp] theorem State.clearStatus_g (w : Word) : (s.clearStatus w).g = s.g := rfl
@[simp] theorem State.clearStatus_inBuf (w : Word) : (s.clearStatus w).inBuf = s.inBuf := rfl
@[simp] theorem State.clearStatus_outBuf (w : Word) : (s.clearStatus w).outBuf = s.outBuf := rfl
@[simp] theorem State.clearStatus_irqEn (w : Word) : (s.clearStatus w).irqEn = s.irqEn := rfl
@[simp] theorem State.clearStatus_busy (w : Word) : (s.clearStatus w).busy = s.busy := rfl
@[simp] theorem State.clearStatus_done (w : Word) : (s.clearStatus w).done = (s.done && !w.getLsbD 1) := rfl
@[simp] theorem State.clearStatus_ovr (w : Word) : (s.clearStatus w).ovr = (s.ovr && !w.getLsbD 2) := rfl
@[simp] theorem State.clearStatus_wbusy (w : Word) : (s.clearStatus w).wbusy = (s.wbusy && !w.getLsbD 3) := rfl
@[simp] theorem State.clearStatus_err (w : Word) : (s.clearStatus w).err = s.err := rfl
@[simp] theorem State.clearStatus_inLen (w : Word) : (s.clearStatus w).inLen = s.inLen := rfl
@[simp] theorem State.clearStatus_outLen (w : Word) : (s.clearStatus w).outLen = s.outLen := rfl
@[simp] theorem State.clearStatus_curCmd (w : Word) : (s.clearStatus w).curCmd = s.curCmd := rfl
@[simp] theorem State.clearStatus_rstLine (w : Word) : (s.clearStatus w).rstLine = s.rstLine := rfl
@[simp] theorem State.clearStatus_agenda (w : Word) : (s.clearStatus w).agenda = s.agenda := rfl
@[simp] theorem State.clearStatus_resp (w : Word) : (s.clearStatus w).resp = s.resp := rfl
@[simp] theorem State.clearStatus_draws (w : Word) : (s.clearStatus w).draws = s.draws := rfl

/-! Fields after the reset action (R102, R103). -/

@[simp] theorem State.resetState_cfg : s.resetState.cfg = s.cfg := rfl
@[simp] theorem State.resetState_a : s.resetState.a = 0 := rfl
@[simp] theorem State.resetState_b : s.resetState.b = 0 := rfl
@[simp] theorem State.resetState_e : s.resetState.e = 0 := rfl
@[simp] theorem State.resetState_n : s.resetState.n = 0 := rfl
@[simp] theorem State.resetState_r : s.resetState.r = 0 := rfl
@[simp] theorem State.resetState_g : s.resetState.g = 0 := rfl
@[simp] theorem State.resetState_inBuf : s.resetState.inBuf = [] := rfl
@[simp] theorem State.resetState_outBuf : s.resetState.outBuf = [] := rfl
@[simp] theorem State.resetState_irqEn : s.resetState.irqEn = false := rfl
@[simp] theorem State.resetState_busy : s.resetState.busy = false := rfl
@[simp] theorem State.resetState_done : s.resetState.done = false := rfl
@[simp] theorem State.resetState_ovr : s.resetState.ovr = false := rfl
@[simp] theorem State.resetState_wbusy : s.resetState.wbusy = false := rfl
@[simp] theorem State.resetState_err : s.resetState.err = 0 := rfl
@[simp] theorem State.resetState_inLen : s.resetState.inLen = 0 := rfl
@[simp] theorem State.resetState_outLen : s.resetState.outLen = 0 := rfl
@[simp] theorem State.resetState_curCmd : s.resetState.curCmd = 0 := rfl
@[simp] theorem State.resetState_rstLine : s.resetState.rstLine = s.rstLine := rfl
@[simp] theorem State.resetState_agenda : s.resetState.agenda = s.agenda := rfl
@[simp] theorem State.resetState_resp : s.resetState.resp = s.resp := rfl
@[simp] theorem State.resetState_draws : s.resetState.draws = s.draws := rfl

/-! Fields after a drawn value (R106). -/

@[simp] theorem State.afterDraw_cfg : s.afterDraw.cfg = s.cfg := rfl
@[simp] theorem State.afterDraw_a : s.afterDraw.a = s.a := rfl
@[simp] theorem State.afterDraw_b : s.afterDraw.b = s.b := rfl
@[simp] theorem State.afterDraw_e : s.afterDraw.e = s.e := rfl
@[simp] theorem State.afterDraw_n : s.afterDraw.n = s.n := rfl
@[simp] theorem State.afterDraw_r : s.afterDraw.r = s.r := rfl
@[simp] theorem State.afterDraw_g : s.afterDraw.g = s.g := rfl
@[simp] theorem State.afterDraw_inBuf : s.afterDraw.inBuf = s.inBuf := rfl
@[simp] theorem State.afterDraw_outBuf : s.afterDraw.outBuf = s.outBuf := rfl
@[simp] theorem State.afterDraw_irqEn : s.afterDraw.irqEn = s.irqEn := rfl
@[simp] theorem State.afterDraw_busy : s.afterDraw.busy = s.busy := rfl
@[simp] theorem State.afterDraw_done : s.afterDraw.done = s.done := rfl
@[simp] theorem State.afterDraw_ovr : s.afterDraw.ovr = s.ovr := rfl
@[simp] theorem State.afterDraw_wbusy : s.afterDraw.wbusy = s.wbusy := rfl
@[simp] theorem State.afterDraw_err : s.afterDraw.err = s.err := rfl
@[simp] theorem State.afterDraw_inLen : s.afterDraw.inLen = s.inLen := rfl
@[simp] theorem State.afterDraw_outLen : s.afterDraw.outLen = s.outLen := rfl
@[simp] theorem State.afterDraw_curCmd : s.afterDraw.curCmd = s.curCmd := rfl
@[simp] theorem State.afterDraw_rstLine : s.afterDraw.rstLine = s.rstLine := rfl
@[simp] theorem State.afterDraw_agenda : s.afterDraw.agenda = s.agenda := rfl
@[simp] theorem State.afterDraw_resp : s.afterDraw.resp = s.resp := rfl
@[simp] theorem State.afterDraw_draws : s.afterDraw.draws = s.draws + 1 := rfl

/-! Fields after a result write of R. -/

@[simp] theorem State.setR_cfg (v : Nat) : (s.setR v).cfg = s.cfg := rfl
@[simp] theorem State.setR_a (v : Nat) : (s.setR v).a = s.a := rfl
@[simp] theorem State.setR_b (v : Nat) : (s.setR v).b = s.b := rfl
@[simp] theorem State.setR_e (v : Nat) : (s.setR v).e = s.e := rfl
@[simp] theorem State.setR_n (v : Nat) : (s.setR v).n = s.n := rfl
@[simp] theorem State.setR_r (v : Nat) : (s.setR v).r = v := rfl
@[simp] theorem State.setR_g (v : Nat) : (s.setR v).g = s.g := rfl
@[simp] theorem State.setR_inBuf (v : Nat) : (s.setR v).inBuf = s.inBuf := rfl
@[simp] theorem State.setR_outBuf (v : Nat) : (s.setR v).outBuf = s.outBuf := rfl
@[simp] theorem State.setR_irqEn (v : Nat) : (s.setR v).irqEn = s.irqEn := rfl
@[simp] theorem State.setR_busy (v : Nat) : (s.setR v).busy = s.busy := rfl
@[simp] theorem State.setR_done (v : Nat) : (s.setR v).done = s.done := rfl
@[simp] theorem State.setR_ovr (v : Nat) : (s.setR v).ovr = s.ovr := rfl
@[simp] theorem State.setR_wbusy (v : Nat) : (s.setR v).wbusy = s.wbusy := rfl
@[simp] theorem State.setR_err (v : Nat) : (s.setR v).err = s.err := rfl
@[simp] theorem State.setR_inLen (v : Nat) : (s.setR v).inLen = s.inLen := rfl
@[simp] theorem State.setR_outLen (v : Nat) : (s.setR v).outLen = s.outLen := rfl
@[simp] theorem State.setR_curCmd (v : Nat) : (s.setR v).curCmd = s.curCmd := rfl
@[simp] theorem State.setR_rstLine (v : Nat) : (s.setR v).rstLine = s.rstLine := rfl
@[simp] theorem State.setR_agenda (v : Nat) : (s.setR v).agenda = s.agenda := rfl
@[simp] theorem State.setR_resp (v : Nat) : (s.setR v).resp = s.resp := rfl
@[simp] theorem State.setR_draws (v : Nat) : (s.setR v).draws = s.draws := rfl

/-! Fields after a result write of G. -/

@[simp] theorem State.setG_cfg (v : Nat) : (s.setG v).cfg = s.cfg := rfl
@[simp] theorem State.setG_a (v : Nat) : (s.setG v).a = s.a := rfl
@[simp] theorem State.setG_b (v : Nat) : (s.setG v).b = s.b := rfl
@[simp] theorem State.setG_e (v : Nat) : (s.setG v).e = s.e := rfl
@[simp] theorem State.setG_n (v : Nat) : (s.setG v).n = s.n := rfl
@[simp] theorem State.setG_r (v : Nat) : (s.setG v).r = s.r := rfl
@[simp] theorem State.setG_g (v : Nat) : (s.setG v).g = v := rfl
@[simp] theorem State.setG_inBuf (v : Nat) : (s.setG v).inBuf = s.inBuf := rfl
@[simp] theorem State.setG_outBuf (v : Nat) : (s.setG v).outBuf = s.outBuf := rfl
@[simp] theorem State.setG_irqEn (v : Nat) : (s.setG v).irqEn = s.irqEn := rfl
@[simp] theorem State.setG_busy (v : Nat) : (s.setG v).busy = s.busy := rfl
@[simp] theorem State.setG_done (v : Nat) : (s.setG v).done = s.done := rfl
@[simp] theorem State.setG_ovr (v : Nat) : (s.setG v).ovr = s.ovr := rfl
@[simp] theorem State.setG_wbusy (v : Nat) : (s.setG v).wbusy = s.wbusy := rfl
@[simp] theorem State.setG_err (v : Nat) : (s.setG v).err = s.err := rfl
@[simp] theorem State.setG_inLen (v : Nat) : (s.setG v).inLen = s.inLen := rfl
@[simp] theorem State.setG_outLen (v : Nat) : (s.setG v).outLen = s.outLen := rfl
@[simp] theorem State.setG_curCmd (v : Nat) : (s.setG v).curCmd = s.curCmd := rfl
@[simp] theorem State.setG_rstLine (v : Nat) : (s.setG v).rstLine = s.rstLine := rfl
@[simp] theorem State.setG_agenda (v : Nat) : (s.setG v).agenda = s.agenda := rfl
@[simp] theorem State.setG_resp (v : Nat) : (s.setG v).resp = s.resp := rfl
@[simp] theorem State.setG_draws (v : Nat) : (s.setG v).draws = s.draws := rfl

/-! Fields after a stored output block (R79, R80). -/

@[simp] theorem State.storeBlock_cfg (x : List Byte) (v : Nat) : (s.storeBlock x v).cfg = s.cfg := rfl
@[simp] theorem State.storeBlock_a (x : List Byte) (v : Nat) : (s.storeBlock x v).a = s.a := rfl
@[simp] theorem State.storeBlock_b (x : List Byte) (v : Nat) : (s.storeBlock x v).b = s.b := rfl
@[simp] theorem State.storeBlock_e (x : List Byte) (v : Nat) : (s.storeBlock x v).e = s.e := rfl
@[simp] theorem State.storeBlock_n (x : List Byte) (v : Nat) : (s.storeBlock x v).n = s.n := rfl
@[simp] theorem State.storeBlock_r (x : List Byte) (v : Nat) : (s.storeBlock x v).r = v := rfl
@[simp] theorem State.storeBlock_g (x : List Byte) (v : Nat) : (s.storeBlock x v).g = s.g := rfl
@[simp] theorem State.storeBlock_inBuf (x : List Byte) (v : Nat) : (s.storeBlock x v).inBuf = s.inBuf := rfl
@[simp] theorem State.storeBlock_outBuf (x : List Byte) (v : Nat) : (s.storeBlock x v).outBuf = Memory.ofBytes x := rfl
@[simp] theorem State.storeBlock_irqEn (x : List Byte) (v : Nat) : (s.storeBlock x v).irqEn = s.irqEn := rfl
@[simp] theorem State.storeBlock_busy (x : List Byte) (v : Nat) : (s.storeBlock x v).busy = s.busy := rfl
@[simp] theorem State.storeBlock_done (x : List Byte) (v : Nat) : (s.storeBlock x v).done = s.done := rfl
@[simp] theorem State.storeBlock_ovr (x : List Byte) (v : Nat) : (s.storeBlock x v).ovr = s.ovr := rfl
@[simp] theorem State.storeBlock_wbusy (x : List Byte) (v : Nat) : (s.storeBlock x v).wbusy = s.wbusy := rfl
@[simp] theorem State.storeBlock_err (x : List Byte) (v : Nat) : (s.storeBlock x v).err = s.err := rfl
@[simp] theorem State.storeBlock_inLen (x : List Byte) (v : Nat) : (s.storeBlock x v).inLen = s.inLen := rfl
@[simp] theorem State.storeBlock_outLen (x : List Byte) (v : Nat) : (s.storeBlock x v).outLen = BitVec.ofNat 16 x.length := rfl
@[simp] theorem State.storeBlock_curCmd (x : List Byte) (v : Nat) : (s.storeBlock x v).curCmd = s.curCmd := rfl
@[simp] theorem State.storeBlock_rstLine (x : List Byte) (v : Nat) : (s.storeBlock x v).rstLine = s.rstLine := rfl
@[simp] theorem State.storeBlock_agenda (x : List Byte) (v : Nat) : (s.storeBlock x v).agenda = s.agenda := rfl
@[simp] theorem State.storeBlock_resp (x : List Byte) (v : Nat) : (s.storeBlock x v).resp = s.resp := rfl
@[simp] theorem State.storeBlock_draws (x : List Byte) (v : Nat) : (s.storeBlock x v).draws = s.draws := rfl

/-! Fields after a command placed in flight. -/

@[simp] theorem State.placeCommand_cfg (w : Word) : (s.placeCommand w).cfg = s.cfg := rfl
@[simp] theorem State.placeCommand_a (w : Word) : (s.placeCommand w).a = s.a := rfl
@[simp] theorem State.placeCommand_b (w : Word) : (s.placeCommand w).b = s.b := rfl
@[simp] theorem State.placeCommand_e (w : Word) : (s.placeCommand w).e = s.e := rfl
@[simp] theorem State.placeCommand_n (w : Word) : (s.placeCommand w).n = s.n := rfl
@[simp] theorem State.placeCommand_r (w : Word) : (s.placeCommand w).r = s.r := rfl
@[simp] theorem State.placeCommand_g (w : Word) : (s.placeCommand w).g = s.g := rfl
@[simp] theorem State.placeCommand_inBuf (w : Word) : (s.placeCommand w).inBuf = s.inBuf := rfl
@[simp] theorem State.placeCommand_outBuf (w : Word) : (s.placeCommand w).outBuf = s.outBuf := rfl
@[simp] theorem State.placeCommand_irqEn (w : Word) : (s.placeCommand w).irqEn = s.irqEn := rfl
@[simp] theorem State.placeCommand_busy (w : Word) : (s.placeCommand w).busy = true := rfl
@[simp] theorem State.placeCommand_done (w : Word) : (s.placeCommand w).done = false := rfl
@[simp] theorem State.placeCommand_ovr (w : Word) : (s.placeCommand w).ovr = s.ovr := rfl
@[simp] theorem State.placeCommand_wbusy (w : Word) : (s.placeCommand w).wbusy = s.wbusy := rfl
@[simp] theorem State.placeCommand_err (w : Word) : (s.placeCommand w).err = 0 := rfl
@[simp] theorem State.placeCommand_inLen (w : Word) : (s.placeCommand w).inLen = s.inLen := rfl
@[simp] theorem State.placeCommand_outLen (w : Word) : (s.placeCommand w).outLen = s.outLen := rfl
@[simp] theorem State.placeCommand_curCmd (w : Word) : (s.placeCommand w).curCmd = w := rfl
@[simp] theorem State.placeCommand_rstLine (w : Word) : (s.placeCommand w).rstLine = s.rstLine := rfl
@[simp] theorem State.placeCommand_agenda (w : Word) : (s.placeCommand w).agenda = .engine :: s.agenda := rfl
@[simp] theorem State.placeCommand_resp (w : Word) : (s.placeCommand w).resp = s.resp := rfl
@[simp] theorem State.placeCommand_draws (w : Word) : (s.placeCommand w).draws = s.draws := rfl

/-! Fields after a bus response. -/

@[simp] theorem State.respond_cfg (x : Response) : (s.respond x).cfg = s.cfg := rfl
@[simp] theorem State.respond_a (x : Response) : (s.respond x).a = s.a := rfl
@[simp] theorem State.respond_b (x : Response) : (s.respond x).b = s.b := rfl
@[simp] theorem State.respond_e (x : Response) : (s.respond x).e = s.e := rfl
@[simp] theorem State.respond_n (x : Response) : (s.respond x).n = s.n := rfl
@[simp] theorem State.respond_r (x : Response) : (s.respond x).r = s.r := rfl
@[simp] theorem State.respond_g (x : Response) : (s.respond x).g = s.g := rfl
@[simp] theorem State.respond_inBuf (x : Response) : (s.respond x).inBuf = s.inBuf := rfl
@[simp] theorem State.respond_outBuf (x : Response) : (s.respond x).outBuf = s.outBuf := rfl
@[simp] theorem State.respond_irqEn (x : Response) : (s.respond x).irqEn = s.irqEn := rfl
@[simp] theorem State.respond_busy (x : Response) : (s.respond x).busy = s.busy := rfl
@[simp] theorem State.respond_done (x : Response) : (s.respond x).done = s.done := rfl
@[simp] theorem State.respond_ovr (x : Response) : (s.respond x).ovr = s.ovr := rfl
@[simp] theorem State.respond_wbusy (x : Response) : (s.respond x).wbusy = s.wbusy := rfl
@[simp] theorem State.respond_err (x : Response) : (s.respond x).err = s.err := rfl
@[simp] theorem State.respond_inLen (x : Response) : (s.respond x).inLen = s.inLen := rfl
@[simp] theorem State.respond_outLen (x : Response) : (s.respond x).outLen = s.outLen := rfl
@[simp] theorem State.respond_curCmd (x : Response) : (s.respond x).curCmd = s.curCmd := rfl
@[simp] theorem State.respond_rstLine (x : Response) : (s.respond x).rstLine = s.rstLine := rfl
@[simp] theorem State.respond_agenda (x : Response) : (s.respond x).agenda = s.agenda := rfl
@[simp] theorem State.respond_resp (x : Response) : (s.respond x).resp = x := rfl
@[simp] theorem State.respond_draws (x : Response) : (s.respond x).draws = s.draws := rfl

/-! Fields after a level of the reset input. -/

@[simp] theorem State.setLine_cfg (x : Bool) : (s.setLine x).cfg = s.cfg := rfl
@[simp] theorem State.setLine_a (x : Bool) : (s.setLine x).a = s.a := rfl
@[simp] theorem State.setLine_b (x : Bool) : (s.setLine x).b = s.b := rfl
@[simp] theorem State.setLine_e (x : Bool) : (s.setLine x).e = s.e := rfl
@[simp] theorem State.setLine_n (x : Bool) : (s.setLine x).n = s.n := rfl
@[simp] theorem State.setLine_r (x : Bool) : (s.setLine x).r = s.r := rfl
@[simp] theorem State.setLine_g (x : Bool) : (s.setLine x).g = s.g := rfl
@[simp] theorem State.setLine_inBuf (x : Bool) : (s.setLine x).inBuf = s.inBuf := rfl
@[simp] theorem State.setLine_outBuf (x : Bool) : (s.setLine x).outBuf = s.outBuf := rfl
@[simp] theorem State.setLine_irqEn (x : Bool) : (s.setLine x).irqEn = s.irqEn := rfl
@[simp] theorem State.setLine_busy (x : Bool) : (s.setLine x).busy = s.busy := rfl
@[simp] theorem State.setLine_done (x : Bool) : (s.setLine x).done = s.done := rfl
@[simp] theorem State.setLine_ovr (x : Bool) : (s.setLine x).ovr = s.ovr := rfl
@[simp] theorem State.setLine_wbusy (x : Bool) : (s.setLine x).wbusy = s.wbusy := rfl
@[simp] theorem State.setLine_err (x : Bool) : (s.setLine x).err = s.err := rfl
@[simp] theorem State.setLine_inLen (x : Bool) : (s.setLine x).inLen = s.inLen := rfl
@[simp] theorem State.setLine_outLen (x : Bool) : (s.setLine x).outLen = s.outLen := rfl
@[simp] theorem State.setLine_curCmd (x : Bool) : (s.setLine x).curCmd = s.curCmd := rfl
@[simp] theorem State.setLine_rstLine (x : Bool) : (s.setLine x).rstLine = x := rfl
@[simp] theorem State.setLine_agenda (x : Bool) : (s.setLine x).agenda = s.agenda := rfl
@[simp] theorem State.setLine_resp (x : Bool) : (s.setLine x).resp = s.resp := rfl
@[simp] theorem State.setLine_draws (x : Bool) : (s.setLine x).draws = s.draws := rfl

/-! Fields after a new list of steps to come. -/

@[simp] theorem State.withAgenda_cfg (x : List Event) : (s.withAgenda x).cfg = s.cfg := rfl
@[simp] theorem State.withAgenda_a (x : List Event) : (s.withAgenda x).a = s.a := rfl
@[simp] theorem State.withAgenda_b (x : List Event) : (s.withAgenda x).b = s.b := rfl
@[simp] theorem State.withAgenda_e (x : List Event) : (s.withAgenda x).e = s.e := rfl
@[simp] theorem State.withAgenda_n (x : List Event) : (s.withAgenda x).n = s.n := rfl
@[simp] theorem State.withAgenda_r (x : List Event) : (s.withAgenda x).r = s.r := rfl
@[simp] theorem State.withAgenda_g (x : List Event) : (s.withAgenda x).g = s.g := rfl
@[simp] theorem State.withAgenda_inBuf (x : List Event) : (s.withAgenda x).inBuf = s.inBuf := rfl
@[simp] theorem State.withAgenda_outBuf (x : List Event) : (s.withAgenda x).outBuf = s.outBuf := rfl
@[simp] theorem State.withAgenda_irqEn (x : List Event) : (s.withAgenda x).irqEn = s.irqEn := rfl
@[simp] theorem State.withAgenda_busy (x : List Event) : (s.withAgenda x).busy = s.busy := rfl
@[simp] theorem State.withAgenda_done (x : List Event) : (s.withAgenda x).done = s.done := rfl
@[simp] theorem State.withAgenda_ovr (x : List Event) : (s.withAgenda x).ovr = s.ovr := rfl
@[simp] theorem State.withAgenda_wbusy (x : List Event) : (s.withAgenda x).wbusy = s.wbusy := rfl
@[simp] theorem State.withAgenda_err (x : List Event) : (s.withAgenda x).err = s.err := rfl
@[simp] theorem State.withAgenda_inLen (x : List Event) : (s.withAgenda x).inLen = s.inLen := rfl
@[simp] theorem State.withAgenda_outLen (x : List Event) : (s.withAgenda x).outLen = s.outLen := rfl
@[simp] theorem State.withAgenda_curCmd (x : List Event) : (s.withAgenda x).curCmd = s.curCmd := rfl
@[simp] theorem State.withAgenda_rstLine (x : List Event) : (s.withAgenda x).rstLine = s.rstLine := rfl
@[simp] theorem State.withAgenda_agenda (x : List Event) : (s.withAgenda x).agenda = x := rfl
@[simp] theorem State.withAgenda_resp (x : List Event) : (s.withAgenda x).resp = s.resp := rfl
@[simp] theorem State.withAgenda_draws (x : List Event) : (s.withAgenda x).draws = s.draws := rfl

/-! Fields of the reset state (R32). -/

@[simp] theorem State.resetWith_cfg (c : Config) : (State.resetWith c).cfg = c := rfl
@[simp] theorem State.resetWith_a (c : Config) : (State.resetWith c).a = 0 := rfl
@[simp] theorem State.resetWith_b (c : Config) : (State.resetWith c).b = 0 := rfl
@[simp] theorem State.resetWith_e (c : Config) : (State.resetWith c).e = 0 := rfl
@[simp] theorem State.resetWith_n (c : Config) : (State.resetWith c).n = 0 := rfl
@[simp] theorem State.resetWith_r (c : Config) : (State.resetWith c).r = 0 := rfl
@[simp] theorem State.resetWith_g (c : Config) : (State.resetWith c).g = 0 := rfl
@[simp] theorem State.resetWith_inBuf (c : Config) : (State.resetWith c).inBuf = [] := rfl
@[simp] theorem State.resetWith_outBuf (c : Config) : (State.resetWith c).outBuf = [] := rfl
@[simp] theorem State.resetWith_irqEn (c : Config) : (State.resetWith c).irqEn = false := rfl
@[simp] theorem State.resetWith_busy (c : Config) : (State.resetWith c).busy = false := rfl
@[simp] theorem State.resetWith_done (c : Config) : (State.resetWith c).done = false := rfl
@[simp] theorem State.resetWith_ovr (c : Config) : (State.resetWith c).ovr = false := rfl
@[simp] theorem State.resetWith_wbusy (c : Config) : (State.resetWith c).wbusy = false := rfl
@[simp] theorem State.resetWith_err (c : Config) : (State.resetWith c).err = 0 := rfl
@[simp] theorem State.resetWith_inLen (c : Config) : (State.resetWith c).inLen = 0 := rfl
@[simp] theorem State.resetWith_outLen (c : Config) : (State.resetWith c).outLen = 0 := rfl
@[simp] theorem State.resetWith_curCmd (c : Config) : (State.resetWith c).curCmd = 0 := rfl
@[simp] theorem State.resetWith_rstLine (c : Config) : (State.resetWith c).rstLine = false := rfl
@[simp] theorem State.resetWith_agenda (c : Config) : (State.resetWith c).agenda = [] := rfl
@[simp] theorem State.resetWith_resp (c : Config) : (State.resetWith c).resp = .none := rfl
@[simp] theorem State.resetWith_draws (c : Config) : (State.resetWith c).draws = 0 := rfl

end Sys2Proof.Machine
end

