-- ==== Sys2Proof/Laws/Ops.lean ====
section
/-! SUPPORT. What each shared operation of the commands can do, said once. -/

namespace Sys2Proof.Machine

variable {s t : State}

/-- The modulus check (R63): with `N = 0` the command ends with MODULUS_ZERO, else it goes on. -/
theorem withModulus_zero (h : s.n = 0) (go : StepResult) :
    s.withModulus go = .next (s.complete .modulusZero) := by simp [State.withModulus, h]

theorem withModulus_pos (h : s.n ≠ 0) (go : StepResult) : s.withModulus go = go := by
  simp [State.withModulus, h]

theorem withModulus_cases {go : StepResult} (h : s.withModulus go = .next t) :
    s.n = 0 ∧ t = s.complete .modulusZero ∨ s.n ≠ 0 ∧ go = .next t := by
  by_cases h0 : s.n = 0
  · rw [withModulus_zero h0] at h
    exact .inl ⟨h0, (Host.Outcome.next.inj h).symm⟩
  · rw [withModulus_pos h0] at h
    exact .inr ⟨h0, h⟩

/-- The length check (R63): a longer block ends with LENGTH, else the command goes on. -/
theorem withBlockLen_long {limit : Nat} (h : limit < s.inLen.toNat) (go : StepResult) :
    s.withBlockLen limit go = .next (s.complete .length) := by simp [State.withBlockLen, h]

theorem withBlockLen_fits {limit : Nat} (h : s.inLen.toNat ≤ limit) (go : StepResult) :
    s.withBlockLen limit go = go := by simp [State.withBlockLen, Nat.not_lt.2 h]

theorem withBlockLen_cases {limit : Nat} {go : StepResult} (h : s.withBlockLen limit go = .next t) :
    limit < s.inLen.toNat ∧ t = s.complete .length ∨ s.inLen.toNat ≤ limit ∧ go = .next t := by
  by_cases h0 : limit < s.inLen.toNat
  · rw [withBlockLen_long h0] at h
    exact .inl ⟨h0, (Host.Outcome.next.inj h).symm⟩
  · rw [withBlockLen_fits (by omega)] at h
    exact .inr ⟨by omega, h⟩

@[simp] theorem errBits_toNat (c : ErrCode) :
    c.bits.toNat = match c with
      | .ok => 0 | .illegalCmd => 1 | .modulusZero => 2 | .length => 3 | .notCoprime => 4 := by
  cases c <;> rfl

theorem errBits_le (c : ErrCode) : c.bits.toNat ≤ 4 := by cases c <;> decide

/-- The block's power is a residue (R79, R80). -/
theorem blockPow_eq (h : s.n ≠ 0) : s.blockPow = s.blockInt ^ s.e % s.n := modPow_eq h _ _

theorem blockPow_lt (h : s.n ≠ 0) : s.blockPow < s.n := modPow_lt h _ _

/-- A residue's block is at most `L` bytes long. -/
theorem byteLength_blockPow_le (h : s.n ≠ 0) : byteLength s.blockPow ≤ s.modLen :=
  byteLength_le_of_le (le_of_lt (blockPow_lt h))

theorem blockPow_lt_pow (h : s.n ≠ 0) : s.blockPow < 256 ^ s.modLen :=
  lt_trans (blockPow_lt h) (lt_pow_byteLength s.n)

/-- R78: the integer of a plaintext block is a residue below `N`. -/
theorem beInt_lt_modulus {n : Nat} (h : n ≠ 0) {x : List Byte} (hx : x.length ≤ byteLength n - 1) :
    beInt x < n :=
  lt_of_lt_of_le (beInt_lt x)
    (le_trans (Nat.pow_le_pow_right (by norm_num) hx) (pow_byteLength_pred_le h))

/-- What a stored block reads as (R79, R80): the block, then 0x00. -/
theorem storeBlock_read (x : List Byte) (v i : Nat) : (s.storeBlock x v).outBuf.read i = x.getD i 0 :=
  Memory.read_ofBytes x i

theorem storeBlock_outLen {x : List Byte} (v : Nat) (h : x.length < 2 ^ 16) :
    (s.storeBlock x v).outLen.toNat = x.length := by
  simp only [State.storeBlock_outLen, BitVec.toNat_ofNat]
  exact Nat.mod_eq_of_lt h

theorem storeBlock_bytes (x : List Byte) (v : Nat) :
    (s.storeBlock x v).outBuf.bytesFrom 0 x.length = x := Memory.bytesFrom_ofBytes x

/-- Both buffers of the reset state are in canonical form. -/
theorem resetWith_buffers_wf (c : Config) :
    (State.resetWith c).inBuf.wf ∧ (State.resetWith c).outBuf.wf := ⟨Memory.wf_nil, Memory.wf_nil⟩

/-- A stored block leaves OUT_BUF in canonical form. -/
theorem storeBlock_wf (x : List Byte) (v : Nat) : (s.storeBlock x v).outBuf.wf := Memory.wf_ofBytes x

end Sys2Proof.Machine
end

