-- ==== Sys2Proof/Laws/Bus.lean ====
section
/-! SUPPORT. What one host transaction can do, said once, and where each register stands (R18). -/

namespace Sys2Proof.Machine

variable {s t : State}

theorem config_ok_iff (c : Config) :
    c.ok = true ↔ c.maxBytes % 4 = 0 ∧ 4 ≤ c.maxBytes ∧ c.maxBytes ≤ 4096 ∧ c.base % 0x10000 = 0 := by
  simp [Config.ok, Config.maxBytesOk, Config.baseOk, and_assoc]

/-- The number of a window (R18). -/
def Window.number : Window → Nat
  | .a => 1
  | .b => 2
  | .e => 3
  | .n => 4
  | .r => 5
  | .g => 6
  | .inBuf => 7
  | .outBuf => 8

theorem windowOf_number (win : Window) : windowOf win.number = some win := by cases win <;> rfl

theorem windowOf_some {j : Nat} {win : Window} (h : windowOf j = some win) : j = win.number := by
  unfold windowOf at h
  split_ifs at h <;> simp_all [Window.number] <;> subst h <;> rfl

theorem window_number_range (win : Window) : 1 ≤ win.number ∧ win.number ≤ 8 := by cases win <;> decide

/-- Word `k` of a window stands at its base plus `4k` (R18, R28, R29). -/
theorem regAt_window {c : Config} (hc : c.ok = true) (win : Window) {k : Nat} (hk : k < c.maxBytes / 4) :
    regAt c (0x1000 * win.number + 4 * k) = .word win k := by
  obtain ⟨h4, -, hm, -⟩ := (config_ok_iff c).1 hc
  have hw := window_number_range win
  have e1 : (0x1000 * win.number + 4 * k) / 0x1000 = win.number := by omega
  have e2 : (0x1000 * win.number + 4 * k) % 0x1000 = 4 * k := by omega
  have hge : ¬ 0x1000 * win.number + 4 * k < 0x1000 := by omega
  simp only [regAt, if_neg hge, e1, windowOf_number, e2]
  rw [if_pos (by omega)]
  congr 1
  omega

theorem regAt_control {c : Config} {off : Nat} (h : off < 0x1000) : regAt c off = controlReg off := by
  simp [regAt, h]

/-- A register of the map is a window word inside the capacity, or none of the windows. -/
theorem regAt_word {c : Config} (hc : c.ok = true) {off k : Nat} {win : Window} (h : regAt c off = .word win k) :
    k < c.maxBytes / 4 ∧ off / 0x1000 = win.number ∧ off % 0x1000 / 4 = k := by
  obtain ⟨h4, -, hm, -⟩ := (config_ok_iff c).1 hc
  unfold regAt at h
  split at h
  · unfold controlReg at h; split_ifs at h
  · split at h
    · next win' hw =>
      split at h
      · obtain ⟨rfl, rfl⟩ := Reg.word.inj h
        exact ⟨by omega, windowOf_some hw, rfl⟩
      · cases h
    · cases h

/-- An aligned 32-bit read inside the aperture is served (R33, R35, R36). -/
theorem busRead_eq (hc : s.cfg.ok = true) {off : Nat} (ho : off < 0x10000) (ha : off % 4 = 0) :
    s.busRead off = s.readReg (regAt s.cfg off) := by
  obtain ⟨-, -, -, hb⟩ := (config_ok_iff s.cfg).1 hc
  have h1 : inAperture s.cfg (s.cfg.base + off) = true := by simp [inAperture]; omega
  have h2 : (s.cfg.base + off) % 4 = 0 := by omega
  have h3 : s.cfg.base + off - s.cfg.base = off := by omega
  simp [State.busRead, State.hostAccess, Access.addr, Access.accepted, State.transact, h1, h2, h3]

/-- An aligned 32-bit write with every lane enabled inside the aperture is served (R33, R35, R36). -/
theorem busWrite_eq (hc : s.cfg.ok = true) {off : Nat} (ho : off < 0x10000) (ha : off % 4 = 0) (w : Word) :
    s.busWrite off w = s.writeReg (regAt s.cfg off) w := by
  obtain ⟨-, -, -, hb⟩ := (config_ok_iff s.cfg).1 hc
  have h1 : inAperture s.cfg (s.cfg.base + off) = true := by simp [inAperture]; omega
  have h2 : (s.cfg.base + off) % 4 = 0 := by omega
  have h3 : s.cfg.base + off - s.cfg.base = off := by omega
  simp [State.busWrite, State.hostAccess, Access.addr, Access.accepted, State.transact, h1, h2, h3]

/-- What a read can do: a drawn answer while busy, or the register's defined word. -/
theorem readReg_cases (s : State) (x : Reg) :
    s.busy = true ∧ x.isResult = true ∧ s.readReg x = s.afterDraw.respond (.data s.drawn) ∨
      s.readReg x = s.respond (.data (s.regWord x)) := by
  unfold State.readReg
  split
  · next h => simp at h; exact .inl ⟨h.1, h.2, rfl⟩
  · exact .inr rfl

/-- What a write can do to MEE's state. -/
inductive WriteEffect (s : State) (w : Word) : Reg → State → Prop where
  /-- Read-only and reserved offsets ignore it. -/
  | ignored {x : Reg} (h : x ∉ [Reg.ctrl, .cmd, .status]) : WriteEffect s w x s
  /-- CTRL with SRST = 1 (R103). -/
  | softReset (h : w.getLsbD 1 = true) : WriteEffect s w .ctrl s.resetState
  /-- CTRL with SRST = 0 (R21). -/
  | irqEnable (h : w.getLsbD 1 = false) : WriteEffect s w .ctrl { s with irqEn := w.getLsbD 0 }
  /-- CMD while busy (R60). -/
  | refused (h : s.busy = true) : WriteEffect s w .cmd s.refuseCmd
  /-- CMD while idle (R59). -/
  | accepted (h : s.busy = false) : WriteEffect s w .cmd (s.accept w)
  /-- STATUS (R23). -/
  | cleared : WriteEffect s w .status (s.clearStatus w)
  /-- An operand write while busy (R105). -/
  | dropped {x : Reg} (h : s.busy = true) (hx : x = .inLen ∨ ∃ win k, x = .word win k ∧ win ∈ [Window.a, .b, .e, .n, .inBuf]) :
      WriteEffect s w x s.dropWrite
  /-- IN_LEN while idle (R24). -/
  | inLen (h : s.busy = false) : WriteEffect s w .inLen { s with inLen := w.extractLsb' 0 16 }
  /-- A word of A while idle (R28). -/
  | wordA (h : s.busy = false) (k : Nat) : WriteEffect s w (.word .a k) { s with a := setBigWord s.a k w }
  /-- A word of B while idle (R28). -/
  | wordB (h : s.busy = false) (k : Nat) : WriteEffect s w (.word .b k) { s with b := setBigWord s.b k w }
  /-- A word of E while idle (R28). -/
  | wordE (h : s.busy = false) (k : Nat) : WriteEffect s w (.word .e k) { s with e := setBigWord s.e k w }
  /-- A word of N while idle (R28). -/
  | wordN (h : s.busy = false) (k : Nat) : WriteEffect s w (.word .n k) { s with n := setBigWord s.n k w }
  /-- A word of IN_BUF while idle (R29). -/
  | wordIn (h : s.busy = false) (k : Nat) :
      WriteEffect s w (.word .inBuf k) { s with inBuf := s.inBuf.writeWord k w }

theorem effectOfWrite_cases (s : State) (x : Reg) (w : Word) : WriteEffect s w x (s.effectOfWrite x w) := by
  have operand : ∀ {x : Reg} {u : State},
      (x = .inLen ∨ ∃ win k, x = .word win k ∧ win ∈ [Window.a, .b, .e, .n, .inBuf]) →
      (s.busy = false → WriteEffect s w x u) → WriteEffect s w x (s.writeOperand u) := by
    intro x u hx hu
    cases hb : s.busy
    · simpa [State.writeOperand, hb] using hu hb
    · simpa [State.writeOperand, hb] using WriteEffect.dropped hb hx
  cases x with
  | ctrl =>
    show WriteEffect s w .ctrl (s.writeCtrl w)
    unfold State.writeCtrl
    split
    · next h => exact .softReset h
    · next h => exact .irqEnable (by simpa using h)
  | cmd =>
    show WriteEffect s w .cmd (s.writeCmd w)
    unfold State.writeCmd
    split
    · next h => exact .refused h
    · next h => exact .accepted (by simpa using h)
  | status => exact .cleared
  | inLen => exact operand (.inl rfl) fun h => .inLen h
  | word win k =>
    cases win with
    | a => exact operand (.inr ⟨_, _, rfl, by decide⟩) fun h => .wordA h k
    | b => exact operand (.inr ⟨_, _, rfl, by decide⟩) fun h => .wordB h k
    | e => exact operand (.inr ⟨_, _, rfl, by decide⟩) fun h => .wordE h k
    | n => exact operand (.inr ⟨_, _, rfl, by decide⟩) fun h => .wordN h k
    | inBuf => exact operand (.inr ⟨_, _, rfl, by decide⟩) fun h => .wordIn h k
    | r => exact .ignored (by simp)
    | g => exact .ignored (by simp)
    | outBuf => exact .ignored (by simp)
  | id => exact .ignored (by decide)
  | param => exact .ignored (by decide)
  | outLen => exact .ignored (by decide)
  | nlen => exact .ignored (by decide)
  | reserved => exact .ignored (by decide)

/-- What one host transaction can do (R35, R36, R38, R39, R90, log entry 7). -/
theorem hostAccess_cases (s : State) (x : Access) :
    inAperture s.cfg x.addr = false ∧ s.hostAccess x = s.respond .unclaimed ∨
      inAperture s.cfg x.addr = true ∧ x.accepted = false ∧
        s.hostAccess x = s.respond (.busError x.addr) ∨
      inAperture s.cfg x.addr = true ∧ x.accepted = true ∧ s.hostAccess x = s.transact x := by
  unfold State.hostAccess
  cases hc : inAperture s.cfg x.addr
  · simp
  · cases ha : x.accepted <;> simp

/-- A read touches only the response and the count of draws (R43). -/
theorem readReg_frame (s : State) (x : Reg) :
    s.readReg x = { s with resp := (s.readReg x).resp, draws := (s.readReg x).draws } := by
  rcases readReg_cases s x with ⟨-, -, h⟩ | h <;> rw [h] <;> rfl

/-- What one host transaction does to the machine: an answer alone, or a served write and its effect. -/
theorem hostAccess_effect (s : State) (x : Access) :
    (∃ answer count, s.hostAccess x = { s with resp := answer, draws := count }) ∨
      ∃ off w t, off < 0x10000 ∧ (s.cfg.base + off) % 4 = 0 ∧
        x = .write (s.cfg.base + off) .w32 0xF#4 w ∧ WriteEffect s w (regAt s.cfg off) t ∧
        s.hostAccess x = t.respond .written := by
  rcases hostAccess_cases s x with ⟨-, h⟩ | ⟨-, -, h⟩ | ⟨hc, ha, h⟩
  · exact .inl ⟨_, s.draws, h⟩
  · exact .inl ⟨_, s.draws, h⟩
  · cases x with
    | read addr width => exact .inl ⟨_, _, h.trans (readReg_frame s _)⟩
    | write addr width lanes w =>
      simp only [inAperture, Access.addr, Bool.and_eq_true] at hc
      have hlo : s.cfg.base ≤ addr := of_decide_eq_true hc.1
      have hhi : addr < s.cfg.base + 0x10000 := of_decide_eq_true hc.2
      simp only [Access.accepted, Bool.and_eq_true, beq_iff_eq] at ha
      obtain ⟨⟨rfl, rfl⟩, ha4⟩ := ha
      have e : s.cfg.base + (addr - s.cfg.base) = addr := by omega
      refine .inr ⟨addr - s.cfg.base, w, _, by omega, by omega, by rw [e],
        effectOfWrite_cases s (regAt s.cfg (addr - s.cfg.base)) w, h⟩

/-- CTRL, CMD, STATUS and IN_LEN stand at one offset each (R18). -/
theorem offset_of_regAt {c : Config} {off : Nat} :
    (regAt c off = .ctrl → off = 0x0008) ∧ (regAt c off = .cmd → off = 0x000C) ∧
      (regAt c off = .status → off = 0x0010) ∧ (regAt c off = .inLen → off = 0x0014) := by
  have high : ¬ off < 0x1000 → ∀ x ∈ [Reg.ctrl, .cmd, .status, .inLen], regAt c off ≠ x := by
    intro h x hx hr
    simp only [regAt, if_neg h] at hr
    split at hr
    · split at hr <;> subst hr <;> simp at hx
    · subst hr; simp at hx
  by_cases h : off < 0x1000
  · rw [regAt_control h]
    unfold controlReg
    split_ifs <;> simp_all
  · exact ⟨fun hr => absurd hr (high h _ (by simp)), fun hr => absurd hr (high h _ (by simp)),
      fun hr => absurd hr (high h _ (by simp)), fun hr => absurd hr (high h _ (by simp))⟩

/-- A window word stands inside its 4 KiB range, below `MAXBYTES` (R18, R37). -/
theorem regAt_word_offset {c : Config} {off k : Nat} {win : Window} (h : regAt c off = .word win k) :
    off % 0x1000 < c.maxBytes := by
  unfold regAt at h
  split at h
  · unfold controlReg at h; split_ifs at h
  · split at h
    · split at h
      · assumption
      · cases h
    · cases h

/-- The control and status registers stand at their offsets (R18). -/
theorem regAt_controls (c : Config) :
    regAt c 0x0000 = .id ∧ regAt c 0x0004 = .param ∧ regAt c 0x0008 = .ctrl ∧ regAt c 0x000C = .cmd ∧
      regAt c 0x0010 = .status ∧ regAt c 0x0014 = .inLen ∧ regAt c 0x0018 = .outLen ∧
      regAt c 0x001C = .nlen := by
  refine ⟨?_, ?_, ?_, ?_, ?_, ?_, ?_, ?_⟩ <;> rw [regAt_control (by norm_num)] <;> rfl

/-- What an offset must be for the bus to serve it as the register `x` (R18, R33, R36). -/
def ServedAs (c : Config) (off : Nat) (x : Reg) : Prop := off < 0x10000 ∧ off % 4 = 0 ∧ regAt c off = x

/-- Word `k` of a window is served at its base plus `4k`. -/
theorem servedAs_window {c : Config} (hc : c.ok = true) (win : Window) {k off : Nat} (hk : k < c.maxBytes / 4)
    (ho : off = 0x1000 * win.number + 4 * k) : ServedAs c off (.word win k) := by
  have hw := window_number_range win
  have := (config_ok_iff c).1 hc
  subst ho
  exact ⟨by omega, by omega, regAt_window hc win hk⟩

/-- A reserved offset is served as reserved (R37). -/
theorem servedAs_reserved {off : Nat} (h : s.reservedOffset off) : ServedAs s.cfg off .reserved := by
  obtain ⟨h4, h⟩ := h
  refine ⟨by omega, h4, ?_⟩
  unfold regAt
  rcases h with h | h | h
  · rw [if_pos (by omega)]
    unfold controlReg
    repeat rw [if_neg (by omega)]
  · rw [if_neg (by omega)]
    have : windowOf (off / 0x1000) = none := by
      unfold windowOf
      repeat rw [if_neg (by omega)]
    rw [this]
  · rw [if_neg (by omega)]
    split
    · rw [if_neg (by omega)]
    · rfl

/-- A read that draws nothing answers the register's word, and changes nothing else (R38). -/
theorem answers_of_served (hc : s.cfg.ok = true) {off v : Nat} {x : Reg} (ho : ServedAs s.cfg off x)
    (hx : (s.busy && x.isResult) = false) (hv : (s.regWord x).toNat = v) : s.answers off v := by
  refine ⟨s.regWord x, ?_, hv⟩
  rw [busRead_eq hc ho.1 ho.2.1, ho.2.2, State.readReg, if_neg (by simp [hx])]
  rfl

/-- A read of a result register while busy answers a fresh drawn value (R106). -/
theorem answersDrawn_of_served (hc : s.cfg.ok = true) {off : Nat} {x : Reg} (ho : ServedAs s.cfg off x)
    (hb : s.busy = true) (hx : x.isResult = true) : s.answersDrawn off := by
  unfold State.answersDrawn
  rw [busRead_eq hc ho.1 ho.2.1, ho.2.2, State.readReg, if_pos (by simp [hb, hx])]
  rfl

/-- A served write has the register's effect and completes normally (R39). -/
theorem busWrite_of_served (hc : s.cfg.ok = true) {off : Nat} {x : Reg} (ho : ServedAs s.cfg off x) {w : Word}
    (ht : s.effectOfWrite x w = t) : s.busWrite off w = t.respond .written := by
  rw [busWrite_eq hc ho.1 ho.2.1, ho.2.2, State.writeReg, ht]

theorem writeOperand_idle (h : s.busy = false) (u : State) : s.writeOperand u = u := by
  simp [State.writeOperand, h]

theorem writeOperand_busy (h : s.busy = true) (u : State) : s.writeOperand u = s.dropWrite := by
  simp [State.writeOperand, h]

/-- The value of the STATUS word, bit by bit (R23). -/
theorem statusWord_toNat (s : State) :
    s.statusWord.toNat =
      s.busy.toNat + 2 * s.done.toNat + 4 * s.ovr.toNat + 8 * s.wbusy.toNat + 16 * s.err.toNat := by
  have hb : ∀ b : Bool, (BitVec.ofBool b).toNat < 2 ^ 1 := fun b => (BitVec.ofBool b).isLt
  have hv : ∀ b : Bool, (BitVec.ofBool b).toNat = b.toNat := fun b => by cases b <;> rfl
  unfold State.statusWord
  simp only [BitVec.toNat_append]
  rw [← Nat.shiftLeft_add_eq_or_of_lt (hb _), ← Nat.shiftLeft_add_eq_or_of_lt (hb _),
    ← Nat.shiftLeft_add_eq_or_of_lt (hb _), ← Nat.shiftLeft_add_eq_or_of_lt (hb _)]
  simp only [Nat.shiftLeft_eq, hv, BitVec.toNat_ofNat]
  simp
  omega

/-- The value of four bytes as a bus word, the last named in the lowest lane (R29, R41). -/
theorem wordOfBytes_toNat (b3 b2 b1 b0 : Byte) :
    (b3 ++ b2 ++ b1 ++ b0 : Word).toNat =
      b0.toNat + 2 ^ 8 * b1.toNat + 2 ^ 16 * b2.toNat + 2 ^ 24 * b3.toNat := by
  have h0 := b0.isLt
  have h1 := b1.isLt
  have h2 := b2.isLt
  simp only [BitVec.toNat_append]
  rw [← Nat.shiftLeft_add_eq_or_of_lt h2, ← Nat.shiftLeft_add_eq_or_of_lt h1,
    ← Nat.shiftLeft_add_eq_or_of_lt h0]
  simp only [Nat.shiftLeft_eq]
  omega

/-- A 16-bit field alone in a bus word (R20, R24 to R26). -/
theorem halfWord_toNat (x : Half) : (0#16 ++ x : Word).toNat = x.toNat := by
  show (0#16 ++ x : BitVec (16 + 16)).toNat = _
  rw [BitVec.toNat_append]
  simp

end Sys2Proof.Machine
end

