-- ==== Sys2Proof/Laws/Step.lean ====
section
/-! SUPPORT. What one step can do, said once: whose turn it is, and what that turn leads to. -/

namespace Sys2Proof.Machine

variable {s t : State}

/-- A completion always ends in a next state: the command's results and `complete(code)` (R62). -/
inductive Completion (s : State) : State → Prop where
  /-- No result is written (R64, R65, and every failed check of R63). -/
  | plain (code : ErrCode) (hc : code ≠ .notCoprime) : Completion s (s.complete code)
  /-- R is written with a residue (R69, R75). -/
  | product (v : Nat) (hn : s.n ≠ 0) (hv : v < s.n) : Completion s ((s.setR v).complete .ok)
  /-- R and G are written (R71). -/
  | inverse (v : Nat) (hn : s.n ≠ 0) (hv : v < s.n) : Completion s (((s.setR v).setG 1).complete .ok)
  /-- G is written with the greatest common divisor (R71). -/
  | notCoprime (hn : s.n ≠ 0) : Completion s ((s.setG (Nat.gcd s.a s.n)).complete .notCoprime)
  /-- A block is stored (R79, R80). -/
  | block (x : List Byte) (v : Nat) (hn : s.n ≠ 0) (hv : v < s.n) (hx : x.length ≤ s.modLen) :
      Completion s ((s.storeBlock x v).complete .ok)

/-- Every command completes. -/
theorem exec_completes (i : Instr) (s : State) : ∃ t, exec i s = .next t ∧ Completion s t := by
  have zero : ∀ go : StepResult, s.n = 0 → ∃ t, s.withModulus go = .next t ∧ Completion s t :=
    fun go h => ⟨_, withModulus_zero h go, .plain _ (by decide)⟩
  have product : ∀ v, (s.n ≠ 0 → v < s.n) →
      ∃ t, s.withModulus (.next ((s.setR v).complete .ok)) = .next t ∧ Completion s t := by
    intro v hv
    by_cases h : s.n = 0
    · exact zero _ h
    · exact ⟨_, withModulus_pos h _, .product v h (hv h)⟩
  have block : ∀ (limit v : Nat) (x : List Byte), (s.n ≠ 0 → v < s.n) → (s.n ≠ 0 → x.length ≤ s.modLen) →
      ∃ t, s.withModulus (s.withBlockLen limit (.next ((s.storeBlock x v).complete .ok))) = .next t ∧
        Completion s t := by
    intro limit v x hv hx
    by_cases h : s.n = 0
    · exact zero _ h
    · rw [withModulus_pos h]
      by_cases hl : limit < s.inLen.toNat
      · exact ⟨_, withBlockLen_long hl _, .plain _ (by decide)⟩
      · exact ⟨_, withBlockLen_fits (by omega) _, .block x v h (hv h) (hx h)⟩
  cases i with
  | nop => exact ⟨_, rfl, .plain .ok (by decide)⟩
  | modmul => exact product _ fun h => Nat.mod_lt _ (by omega)
  | modexp => exact product _ fun h => modPow_lt h _ _
  | modinv =>
    by_cases h : s.n = 0
    · exact zero _ h
    · by_cases hg : Nat.gcd s.a s.n = 1
      · refine ⟨((s.setR (modInv s.a s.n)).setG 1).complete .ok, ?_, .inverse _ h (modInv_spec h hg).1⟩
        show execModinv s = _
        rw [execModinv, withModulus_pos h, if_pos hg]
      · refine ⟨(s.setG (Nat.gcd s.a s.n)).complete .notCoprime, ?_, .notCoprime h⟩
        show execModinv s = _
        rw [execModinv, withModulus_pos h, if_neg hg]
  | encBlock => exact block _ _ _ (fun h => blockPow_lt h) fun _ => by simp
  | decBlock => exact block _ _ _ (fun h => blockPow_lt h) fun h => by simpa using byteLength_blockPow_le h

/-- The engine's step always ends in a next state. -/
theorem engineStep_completes (s : State) : ∃ t, engineStep s = .next t ∧ Completion s t := by
  unfold engineStep
  split
  · exact exec_completes _ s
  · exact ⟨_, rfl, .plain .illegalCmd (by decide)⟩

theorem engineTurn_busy (h : s.busy = true) : engineTurn s = engineStep s := by simp [engineTurn, h]

theorem engineTurn_idle (h : s.busy = false) : engineTurn s = .next s := by simp [engineTurn, h]

/-- The engine's turn only leaves the agenda before it acts. -/
theorem step_engine (h : s.engineNext) : step s = engineTurn (s.withAgenda s.agenda.tail) := by
  rcases h with h | ⟨rest, h⟩
  · have hs : s.withAgenda s.agenda.tail = s := by
      obtain ⟨⟩ := s
      cases h
      rfl
    rw [hs]
    simp [step, nextTurn, h]
  · simp [step, nextTurn, takeEvent, h]

/-- The host's turn performs its transaction. -/
theorem step_host {x : Access} {rest : List Event} (h : s.agenda = .host x :: rest) :
    step s = hostTurn (s.withAgenda rest) x := by simp [step, nextTurn, takeEvent, h]

theorem hostTurn_live (h : s.rstLine = false) (x : Access) : hostTurn s x = .next (s.hostAccess x) := by
  simp [hostTurn, h]

theorem hostTurn_reset (h : s.rstLine = true) (x : Access) : hostTurn s x = .fault .accessDuringReset := by
  simp [hostTurn, h]

/-- What a step can do. -/
theorem step_cases (s : State) :
    s.engineNext ∧ s.busy = false ∧ step s = .next (s.withAgenda s.agenda.tail) ∨
    s.engineNext ∧ s.busy = true ∧ (∃ t, step s = .next t ∧ Completion (s.withAgenda s.agenda.tail) t) ∨
    (∃ x rest, s.agenda = .host x :: rest ∧ s.rstLine = false ∧
      step s = .next ((s.withAgenda rest).hostAccess x)) ∨
    (∃ x rest, s.agenda = .host x :: rest ∧ s.rstLine = true ∧ step s = .fault .accessDuringReset) ∨
    (∃ rest, s.agenda = .resetAssert :: rest ∧
      step s = .next ((s.withAgenda rest).resetState.setLine true)) ∨
    ∃ rest, s.agenda = .resetRelease :: rest ∧ step s = .next ((s.withAgenda rest).setLine false) := by
  have engine : s.engineNext →
      s.engineNext ∧ s.busy = false ∧ step s = .next (s.withAgenda s.agenda.tail) ∨
      s.engineNext ∧ s.busy = true ∧
        (∃ t, step s = .next t ∧ Completion (s.withAgenda s.agenda.tail) t) := by
    intro h
    rw [step_engine h]
    cases hb : s.busy
    · exact .inl ⟨h, rfl, engineTurn_idle hb⟩
    · rw [engineTurn_busy (s := s.withAgenda s.agenda.tail) hb]
      exact .inr ⟨h, rfl, engineStep_completes _⟩
  rcases hag : s.agenda with _ | ⟨ev, rest⟩
  · rcases engine (.inl hag) with h | h
    · rw [hag] at h; exact .inl h
    · rw [hag] at h; exact .inr (.inl h)
  · cases ev with
    | engine =>
      rcases engine (.inr ⟨rest, hag⟩) with h | h
      · rw [hag] at h; exact .inl h
      · rw [hag] at h; exact .inr (.inl h)
    | host x =>
      rw [step_host hag]
      cases hr : s.rstLine
      · exact .inr (.inr (.inl ⟨x, rest, rfl, rfl, by simp [hostTurn, hr]⟩))
      · exact .inr (.inr (.inr (.inl ⟨x, rest, rfl, rfl, by simp [hostTurn, hr]⟩)))
    | resetAssert =>
      exact .inr (.inr (.inr (.inr (.inl ⟨rest, rfl, by simp [step, nextTurn, takeEvent, hag]⟩))))
    | resetRelease =>
      exact .inr (.inr (.inr (.inr (.inr ⟨rest, rfl, by simp [step, nextTurn, takeEvent, hag]⟩))))

/-- Beside the results, a completion writes ERR, BUSY and DONE and nothing else (R62). -/
theorem Completion.frame (h : Completion s t) : ∃ code, t = { s with
    r := t.r, g := t.g, outBuf := t.outBuf, outLen := t.outLen, err := ErrCode.bits code,
    busy := false, done := true } := by cases h <;> exact ⟨_, rfl⟩

theorem Completion.operands (h : Completion s t) : t.operands = s.operands := by cases h <;> rfl

/-- What a step that answers a next state did. -/
theorem step_next (h : step s = .next t) :
    s.engineNext ∧ s.busy = false ∧ t = s.withAgenda s.agenda.tail ∨
    s.engineNext ∧ s.busy = true ∧ Completion (s.withAgenda s.agenda.tail) t ∨
    (∃ x rest, s.agenda = .host x :: rest ∧ s.rstLine = false ∧
      ((∃ answer count, t = { s with agenda := rest, resp := answer, draws := count }) ∨
        ∃ off w u, x = .write (s.cfg.base + off) .w32 0xF#4 w ∧
          WriteEffect (s.withAgenda rest) w (regAt s.cfg off) u ∧ t = u.respond .written)) ∨
    (∃ rest, s.agenda = .resetAssert :: rest ∧ t = (s.withAgenda rest).resetState.setLine true) ∨
    ∃ rest, s.agenda = .resetRelease :: rest ∧ t = (s.withAgenda rest).setLine false := by
  rcases step_cases s with ⟨a, b, e⟩ | ⟨a, b, u, e, c⟩ | ⟨x, rest, ha, hr, e⟩ | ⟨x, rest, ha, hr, e⟩ |
    ⟨rest, ha, e⟩ | ⟨rest, ha, e⟩ <;> rw [e] at h <;> cases h
  · exact .inl ⟨a, b, rfl⟩
  · exact .inr (.inl ⟨a, b, c⟩)
  · refine .inr (.inr (.inl ⟨x, rest, ha, hr, ?_⟩))
    rcases hostAccess_effect (s.withAgenda rest) x with ⟨an, ct, he⟩ | ⟨off, w, u, -, -, hx, hw, he⟩
    · exact .inl ⟨an, ct, he⟩
    · exact .inr ⟨off, w, u, hx, hw, he⟩
  · exact .inr (.inr (.inr (.inl ⟨rest, ha, rfl⟩)))
  · exact .inr (.inr (.inr (.inr ⟨rest, ha, rfl⟩)))

/-- A completion does not depend on the steps to come or on the last response, and leaves both. -/
theorem engineStep_frame (steps : List Event) (answer : Response) (h : engineStep s = .next t) :
    engineStep { s with agenda := steps, resp := answer }
      = .next { t with agenda := steps, resp := answer } := by
  have modulus : ∀ go go' : StepResult, (go = .next t → go' = .next { t with agenda := steps, resp := answer }) →
      s.withModulus go = .next t → State.withModulus { s with agenda := steps, resp := answer } go'
        = .next { t with agenda := steps, resp := answer } := by
    intro go go' hg h
    rcases withModulus_cases h with ⟨h0, rfl⟩ | ⟨h0, h⟩
    · exact withModulus_zero (s := { s with agenda := steps, resp := answer }) h0 _
    · rw [withModulus_pos (s := { s with agenda := steps, resp := answer }) h0]; exact hg h
  have length : ∀ l, ∀ go go' : StepResult, (go = .next t → go' = .next { t with agenda := steps, resp := answer }) →
      s.withBlockLen l go = .next t → State.withBlockLen { s with agenda := steps, resp := answer } l go'
        = .next { t with agenda := steps, resp := answer } := by
    intro l go go' hg h
    rcases withBlockLen_cases h with ⟨h0, rfl⟩ | ⟨h0, h⟩
    · exact withBlockLen_long (s := { s with agenda := steps, resp := answer }) h0 _
    · rw [withBlockLen_fits (s := { s with agenda := steps, resp := answer }) h0]; exact hg h
  unfold engineStep at h ⊢
  split at h
  · next i hd =>
    have hd' : decode ({ s with agenda := steps, resp := answer } : State).curCmd = .ok i := hd
    rw [hd']
    cases i with
    | nop => cases h; rfl
    | modmul => exact modulus _ _ (fun h => by cases h; rfl) h
    | modexp => exact modulus _ _ (fun h => by cases h; rfl) h
    | modinv =>
      refine modulus _ _ (fun h => ?_) h
      by_cases hg : Nat.gcd s.a s.n = 1
      · have := h.symm.trans (if_pos hg); cases this; exact if_pos hg
      · have := h.symm.trans (if_neg hg); cases this; exact if_neg hg
    | encBlock => exact modulus _ _ (length _ _ _ fun h => by cases h; rfl) h
    | decBlock => exact modulus _ _ (length _ _ _ fun h => by cases h; rfl) h
  · next hd =>
    have hd' : decode ({ s with agenda := steps, resp := answer } : State).curCmd = .error _ := hd
    rw [hd']
    cases h; rfl

/-- A host transaction does not depend on the steps to come, and leaves them. -/
theorem hostAccess_withAgenda (s : State) (x : Access) (steps : List Event) :
    (s.withAgenda steps).hostAccess x = (s.hostAccess x).withAgenda steps := by
  have hc : (s.withAgenda steps).cfg = s.cfg := rfl
  unfold State.hostAccess
  rw [hc]
  cases inAperture s.cfg x.addr
  · rfl
  cases x.accepted
  · rfl
  show (s.withAgenda steps).transact x = (s.transact x).withAgenda steps
  obtain ⟨_, _, _, _, _, _, _, _, _, _, busy, _, _, _, _, _, _, _, _, _, _, _⟩ := s
  cases x with
  | read addr width =>
    simp only [State.transact, State.withAgenda_cfg]
    generalize regAt _ _ = x
    cases busy <;> cases x with
    | word win k => cases win <;> rfl
    | _ => rfl
  | write addr width lanes w =>
    simp only [State.transact, State.withAgenda_cfg]
    generalize regAt _ _ = x
    cases busy <;> cases x with
    | word win k => cases win <;> rfl
    | ctrl =>
      simp only [State.writeReg, State.effectOfWrite, State.writeCtrl]
      by_cases hw : w.getLsbD 1 = true
      · simp only [if_pos hw]; rfl
      · simp only [if_neg hw]; rfl
    | _ => rfl

end Sys2Proof.Machine
end

