-- ==== Sys2Proof/Laws/Driver.lean ====
section
/-! SUPPORT. How a list of transactions is played: piece by piece, and what each single piece does to a
machine whose reset input is low (R57, R58). -/

namespace Sys2Proof.Machine

variable {s t : State}

/-- `k + 1` steps of a core are one step, then `k`. -/
theorem core_run_succ (M : Host.Core) {s t : M.State} (h : M.step s = .next t) (k : Nat) :
    M.run (k + 1) s = M.run k t := by simp [Host.Core.run, h]

/-- The same for this machine. -/
theorem run_succ (h : step s = .next t) (k : Nat) :
    Host.Core.run Sys2Proof.core (k + 1) s = Host.Core.run Sys2Proof.core k t := core_run_succ Sys2Proof.core h k

@[simp] theorem play_nil (s : State) : play [] s = some (s, []) := rfl

/-- Playing a list piece by piece. -/
theorem play_append (xs ys : List Event) (s : State) :
    play (xs ++ ys) s = (play xs s).bind fun out => (play ys out.1).map fun o => (o.1, out.2 ++ o.2) := by
  induction xs generalizing s with
  | nil => cases h : play ys s <;> simp [h]
  | cons ev evs ih =>
    simp only [List.cons_append, play]
    cases step (s.withAgenda [ev]) with
    | next s' =>
      simp only [ih, Option.bind_map]
      cases h : play evs s' with
      | none => rfl
      | some o => cases h' : play ys o.1 <;> simp [h']
    | fault r => rfl
    | refused r => rfl

/-- Two pieces, each with its known outcome. -/
theorem play_append_eq {xs ys : List Event} {u : State} {as bs : List Response} (hx : play xs s = some (t, as))
    (hy : play ys t = some (u, bs)) : play (xs ++ ys) s = some (u, as ++ bs) := by
  simp [play_append, hx, hy]

/-- One host transaction while the reset input is low. -/
theorem play_host (h : s.rstLine = false) (x : Access) :
    play [.host x] s = some ((s.withAgenda []).hostAccess x, [((s.withAgenda []).hostAccess x).resp]) := by
  have hs : step (s.withAgenda [.host x]) = .next ((s.withAgenda []).hostAccess x) :=
    (step_host (s := s.withAgenda [.host x]) rfl).trans (hostTurn_live (s := s.withAgenda []) h x)
  simp [play, hs, answerOf]

/-- One `wr` while the reset input is low (R57). -/
theorem play_wr (h : s.rstLine = false) (hc : s.cfg.ok = true) {off : Nat} (ho : off < 0x10000) (ha : off % 4 = 0)
    (w : Word) :
    play [wr s.cfg off w] s = some ((s.withAgenda []).writeReg (regAt s.cfg off) w, [.written]) := by
  have hw := busWrite_eq (s := s.withAgenda []) hc ho ha w
  rw [wr, play_host h]
  simp only [State.busWrite, State.withAgenda_cfg] at hw
  rw [hw]
  rfl

/-- One `rd` while the reset input is low (R57). -/
theorem play_rd (h : s.rstLine = false) (hc : s.cfg.ok = true) {off : Nat} (ho : off < 0x10000) (ha : off % 4 = 0) :
    play [rd s.cfg off] s = some ((s.withAgenda []).readReg (regAt s.cfg off),
      [((s.withAgenda []).readReg (regAt s.cfg off)).resp]) := by
  have hr := busRead_eq (s := s.withAgenda []) hc ho ha
  rw [rd, play_host h]
  simp only [State.busRead, State.withAgenda_cfg] at hr
  rw [hr]

/-- One turn of the engine with a command in flight (R61). -/
theorem play_engine (h : s.busy = true) :
    ∃ t, play [.engine] s = some (t, []) ∧ engineStep (s.withAgenda []) = .next t ∧
      Completion (s.withAgenda []) t := by
  obtain ⟨t, ht, hc⟩ := engineStep_completes (s.withAgenda [])
  refine ⟨t, ?_, ht, hc⟩
  have hs : step (s.withAgenda [.engine]) = .next t :=
    (step_engine (s := s.withAgenda [.engine]) (.inr ⟨[], rfl⟩)).trans
      ((engineTurn_busy (s := s.withAgenda []) h).trans ht)
  simp [play, hs, answerOf]

/-- One `rd` of an idle machine answers the register's word (R38, R57). -/
theorem play_rd_idle (h : s.rstLine = false) (hc : s.cfg.ok = true) (hb : s.busy = false) {off : Nat} {x : Reg}
    (ho : ServedAs s.cfg off x) :
    play [rd s.cfg off] s =
      some ({ s with agenda := [], resp := .data (s.regWord x) }, [.data (s.regWord x)]) := by
  have hb' : (s.withAgenda []).busy = false := hb
  have hread : (s.withAgenda []).readReg x = { s with agenda := [], resp := .data (s.regWord x) } := by
    simp only [State.readReg, hb', Bool.false_and, Bool.false_eq_true, if_false]
    cases x with
    | word win k => cases win <;> rfl
    | _ => rfl
  rw [play_rd h hc ho.1 ho.2.1, ho.2.2, hread]

/-- One `rd off -> t` of an idle machine (R57). -/
theorem readOff_idle (h : s.rstLine = false) (hc : s.cfg.ok = true) (hb : s.busy = false) {off : Nat} {x : Reg}
    (ho : ServedAs s.cfg off x) :
    readOff off s = some ({ s with agenda := [], resp := .data (s.regWord x) }, s.regWord x) := by
  simp only [readOff, play_rd_idle h hc hb ho, Option.map_some, bigOfAnswers, Response.word]
  congr 2
  apply BitVec.eq_of_toNat_eq
  simp

/-- The field ERR of the STATUS word (R23). -/
theorem errField_statusWord (s : State) : errField s.statusWord = s.err := by
  apply BitVec.eq_of_toNat_eq
  have h0 : s.busy.toNat ≤ 1 := Bool.toNat_le _
  have h1 : s.done.toNat ≤ 1 := Bool.toNat_le _
  have h2 : s.ovr.toNat ≤ 1 := Bool.toNat_le _
  have h3 : s.wbusy.toNat ≤ 1 := Bool.toNat_le _
  have h4 := s.err.isLt
  rw [errField, BitVec.extractLsb'_toNat, statusWord_toNat, Nat.shiftRight_eq_div_pow]
  omega

/-- BUSY and DONE in the STATUS word (R23). -/
theorem statusWord_busy_done (s : State) : s.statusWord.getLsbD 0 = s.busy ∧ s.statusWord.getLsbD 1 = s.done := by
  simp only [BitVec.getLsbD, statusWord_toNat]
  cases s.busy <;> cases s.done <;> simp [Nat.testBit] <;> omega

/-- A poll of STATUS while the reset input is low, idle or busy (R38, R58). -/
theorem readOff_status (h : s.rstLine = false) (hc : s.cfg.ok = true) :
    readOff 0x0010 s = some ({ s with agenda := [], resp := .data s.statusWord }, s.statusWord) := by
  have hreg : regAt s.cfg 0x0010 = .status := rfl
  have hread : (s.withAgenda []).readReg .status = { s with agenda := [], resp := .data s.statusWord } := by
    simp [State.readReg, Reg.isResult, State.respond, State.withAgenda, State.regWord, State.statusWord]
  simp only [readOff, play_rd h hc (show 0x0010 < 0x10000 by decide) (show 0x0010 % 4 = 0 by decide), hreg, hread,
    Option.map_some, bigOfAnswers, Response.word]
  congr 2
  apply BitVec.eq_of_toNat_eq
  simp

/-- A poll that reads BUSY = 1 leads to the next one (R58). -/
theorem waitIdle_poll {evs : List Event} {rs : List Response} (hp : play evs s = some (t, rs))
    (hr : t.rstLine = false) (hc : t.cfg.ok = true) (hb : t.busy = true) (others : WaitSteps) :
    waitIdle (evs :: others) s =
      (waitIdle others { t with agenda := [], resp := .data t.statusWord }).map fun out =>
        (out.1, t.statusWord :: out.2) := by
  simp only [waitIdle, hp, Option.bind_some, readOff_status hr hc, (statusWord_busy_done t).1.trans hb, if_true]

/-- A poll that reads BUSY = 0 ends the wait, whatever cleared it (R58, 90_conflicts.md C9). -/
theorem waitIdle_end {evs : List Event} {rs : List Response} (hp : play evs s = some (t, rs))
    (hr : t.rstLine = false) (hc : t.cfg.ok = true) (hb : t.busy = false) (others : WaitSteps) :
    waitIdle (evs :: others) s = some ({ t with agenda := [], resp := .data t.statusWord }, [t.statusWord]) := by
  simp only [waitIdle, hp, Option.bind_some, readOff_status hr hc, (statusWord_busy_done t).1.trans hb,
    Bool.false_eq_true, if_false]

/-- The last poll, after the engine's turn (R61). -/
theorem waitIdle_last {rs : List Response} (hp : play [.engine] s = some (t, rs)) (hr : t.rstLine = false)
    (hc : t.cfg.ok = true) :
    waitIdle [] s = some ({ t with agenda := [], resp := .data t.statusWord }, [t.statusWord]) := by
  simp [waitIdle, hp, readOff_status hr hc]

/-- One turn of the engine while idle (R61). -/
theorem play_engine_idle (h : s.busy = false) : play [.engine] s = some (s.withAgenda [], []) := by
  have hs : step (s.withAgenda [.engine]) = .next (s.withAgenda []) :=
    (step_engine (s := s.withAgenda [.engine]) (.inr ⟨[], rfl⟩)).trans
      (engineTurn_idle (s := s.withAgenda []) h)
  simp [play, hs, answerOf]

/-- A hardware reset, asserted and released (R102). -/
theorem play_reset (s : State) :
    play [.resetAssert, .resetRelease] s =
      some ({ State.resetWith s.cfg with agenda := [], resp := s.resp, draws := s.draws }, []) := rfl

end Sys2Proof.Machine
end

