-- ==== Sys2Proof/Laws/PerInstr.lean ====
section
/-! SUPPORT. What holds of every command as syntax, said per command: it is well formed, its word is not
reserved, and its word has the OPCODE in bits [3:0] and 0 above them (R51, R52, R54, R55). -/

namespace Sys2Proof.Laws.EncodedWord

/-- The command `i` is well formed (R54), its word is an assigned word of the opcode map (R52, R55), and
the fields of its word are its OPCODE and 0 (R51). -/
def Statement (i : Instr) : Prop :=
  i.wellFormed = true ∧ commandWordOk (encode i) = true ∧ opcodeField (encode i) = opcodeOf i ∧
    rsvField (encode i) = 0

theorem nop : Statement .nop := ⟨rfl, rfl, rfl, rfl⟩

theorem modmul : Statement .modmul := ⟨rfl, rfl, rfl, rfl⟩

theorem modexp : Statement .modexp := ⟨rfl, rfl, rfl, rfl⟩

theorem modinv : Statement .modinv := ⟨rfl, rfl, rfl, rfl⟩

theorem encBlock : Statement .encBlock := ⟨rfl, rfl, rfl, rfl⟩

theorem decBlock : Statement .decBlock := ⟨rfl, rfl, rfl, rfl⟩

end Sys2Proof.Laws.EncodedWord
end

