-- ==== Sys2Proof/Tests/Slice0.lean ====
section
/-! SUPPORT. Tests: each well-formedness check refuses an ill-formed term; each command's word, written out
bit by bit from R51 and R52, decodes to it; one or two small steps per command with values from
spec/95_test_vectors.md; and a witness that the hypotheses of each statement can be met. -/

namespace Sys2Proof.Tests
open Sys2Proof Sys2Proof.Machine

/-- A field of the state an outcome goes on with. -/
def after {α : Type} (f : State → α) : StepResult → Option α
  | .next t => some (f t)
  | .fault _ => none
  | .refused _ => none

/-- The result registers and the error code, as the tables of spec/95_test_vectors.md list them. -/
def numbers (t : State) : Nat × Nat × Nat := (t.r, t.g, t.err.toNat)

/-- The output block, OUT_LEN, R and the error code. -/
def block (t : State) : List Byte × Nat × Nat × Nat :=
  (t.outBuf.bytesFrom 0 t.outLen.toNat, t.outLen.toNat, t.r, t.err.toNat)

/-- A small machine: `MAXBYTES = 4`, the key (17, 3233) and the block [0x41] loaded. -/
def idle : State := { State.resetWith ⟨4, 0x10000, 3⟩ with
  a := 65, b := 2, e := 17, n := 3233, inBuf := Memory.ofBytes [0x41#8], inLen := 1 }

/-- The same machine with MODEXP in flight. -/
def flying : State := { idle with busy := true, curCmd := 0x00000002#32 }

/-! ## Well-formedness: an ill-formed term for each check (R5, R6, R51, R52) -/

theorem test_maxBytes_not_multiple_of_four : Config.maxBytesOk ⟨6, 0, 0⟩ = false := by decide
theorem test_maxBytes_zero : Config.maxBytesOk ⟨0, 0, 0⟩ = false := by decide
theorem test_maxBytes_too_large : Config.maxBytesOk ⟨4100, 0, 0⟩ = false := by decide
theorem test_base_not_aligned : Config.baseOk ⟨4, 0x8000, 0⟩ = false := by decide
theorem test_config_bounds : Config.ok ⟨4, 0x10000, 9⟩ = true ∧ Config.ok ⟨4096, 0, 0⟩ = true := by decide
theorem test_rsv_bit_set : rsvOk 0x00000012#32 = false ∧ rsvOk 0x80000001#32 = false := by decide
theorem test_opcode_reserved : opcodeOk 0x00000006#32 = false ∧ opcodeOk 0x0000000F#32 = false := by decide
theorem test_reserved_words_not_ok :
    commandWordOk 0x00000007#32 = false ∧ commandWordOk 0x00000012#32 = false := by decide
theorem test_assigned_words_ok :
    commandWordOk 0x00000000#32 = true ∧ commandWordOk 0x00000005#32 = true := by decide

/-! ## Decoding: RSV = 0 in bits [31:4], then `oooo` (R51), with the opcodes of R52 -/

theorem test_decode_nop : decode 0b00000000000000000000000000000000#32 = .ok .nop := by decide
theorem test_decode_modmul : decode 0b00000000000000000000000000000001#32 = .ok .modmul := by decide
theorem test_decode_modexp : decode 0b00000000000000000000000000000010#32 = .ok .modexp := by decide
theorem test_decode_modinv : decode 0b00000000000000000000000000000011#32 = .ok .modinv := by decide
theorem test_decode_encBlock : decode 0b00000000000000000000000000000100#32 = .ok .encBlock := by decide
theorem test_decode_decBlock : decode 0b00000000000000000000000000000101#32 = .ok .decBlock := by decide
theorem test_decode_reserved_opcode :
    decode 0b00000000000000000000000000000110#32 = .error .reservedOpcode := by decide
theorem test_decode_reserved_bits :
    decode 0b00000000000000000000000000010010#32 = .error .reservedBits := by decide
theorem test_table_words : decodeTableWord 32 4 = some .encBlock ∧ decodeTableWord 32 7 = none ∧
    decodeTableWord 40 0x100000001 = none := by decide

/-! ## The commands -/

/-- Table 2.1: NOP after reset, with N = 0. -/
theorem test_nop_completes : after State.statusWord (step (State.reset.withFetchWord 32 0)) = some 0x00000002#32 := by
  decide

/-- Table 2.1: `0x0000_000F` gives ILLEGAL_CMD ahead of MODULUS_ZERO. -/
theorem test_reserved_completes : after State.statusWord (step (State.reset.withFetchWord 32 0xF)) = some 0x00000012#32 := by
  decide

/-- Table 2.2, first row. -/
theorem test_modmul_square :
    after numbers (exec .modmul { State.reset with a := 2790, b := 2790, n := 3233 }) = some (2269, 0, 0) := by
  decide

/-- Table 2.2: operands far above N, exact. -/
theorem test_modmul_wide :
    after numbers (exec .modmul { State.reset with a := 2 ^ 127, b := 2 ^ 127, n := 2 ^ 61 - 1 })
      = some (1024, 0, 0) := by decide

/-- Table 2.3: W3. -/
theorem test_modexp_encrypts :
    after numbers (exec .modexp { State.reset with a := 65, e := 17, n := 3233 }) = some (2790, 0, 0) := by decide

/-- Table 2.3: `0^0 = 1`; N = 1 gives 0; A >= N. -/
theorem test_modexp_corners :
    after numbers (exec .modexp { State.reset with n := 5 }) = some (1, 0, 0) ∧
    after numbers (exec .modexp { State.reset with a := 7, n := 1 }) = some (0, 0, 0) ∧
    after numbers (exec .modexp { State.reset with a := 5000, e := 3, n := 3233 }) = some (2493, 0, 0) := by decide

/-- Table 2.4: W2; A >= N; N = 1. -/
theorem test_modinv_inverse :
    after numbers (exec .modinv { State.reset with a := 17, n := 3120 }) = some (2753, 1, 0) ∧
    after numbers (exec .modinv { State.reset with a := 10, n := 7 }) = some (5, 1, 0) ∧
    after numbers (exec .modinv { State.reset with a := 5, n := 1 }) = some (0, 1, 0) := by decide

/-- Table 2.4: NOT_COPRIME keeps R and writes the gcd; MODULUS_ZERO comes first. -/
theorem test_modinv_fails :
    after numbers (exec .modinv { State.reset with a := 6, n := 3120, r := 2753 }) = some (2753, 6, 4) ∧
    after numbers (exec .modinv { State.reset with a := 0, n := 7 }) = some (0, 7, 4) ∧
    after numbers (exec .modinv { State.reset with a := 0, n := 0 }) = some (0, 0, 2) := by decide

/-- Table 2.5: W3, and the leading zero of W8. -/
theorem test_encBlock_pads :
    after block (exec .encBlock idle) = some ([0x0A#8, 0xE6#8], 2, 2790, 0) ∧
    after block (exec .encBlock { idle with inBuf := Memory.ofBytes [0x0D#8] }) = some ([0x00#8, 0x2F#8], 2, 47, 0) := by
  decide

/-- Table 2.5: LENGTH for len > L - 1; an empty block. -/
theorem test_encBlock_lengths :
    after block (exec .encBlock { idle with inLen := 2 }) = some ([], 0, 0, 3) ∧
    after block (exec .encBlock { idle with inLen := 0 }) = some ([0x00#8, 0x00#8], 2, 0, 0) := by decide

/-- Table 2.5: W4, and m = 0 with an empty output. -/
theorem test_decBlock_minimal :
    after block (exec .decBlock { idle with e := 2753, inBuf := Memory.ofBytes [0x0A#8, 0xE6#8], inLen := 2 })
      = some ([0x41#8], 1, 65, 0) ∧
    after block (exec .decBlock { idle with e := 2753, inBuf := [], inLen := 2 }) = some ([], 0, 0, 0) := by decide

/-- Table 2.5: c >= N with an output of L bytes; LENGTH for len > L. -/
theorem test_decBlock_lengths :
    after block (exec .decBlock { idle with e := 2753, inBuf := Memory.ofBytes [0xFF#8, 0xFF#8], inLen := 2 })
      = some ([0x01#8, 0x11#8], 2, 273, 0) ∧
    after block (exec .decBlock { idle with e := 2753, inLen := 3 }) = some ([], 0, 0, 3) := by decide

/-! ## The bus and the lifecycle -/

/-- Table 2.6: reads of ID, PARAM, CMD and three reserved offsets. -/
theorem test_bus_reads :
    (State.reset.busRead 0x0000).resp = .data 0x4D454501#32 ∧
    (State.reset.busRead 0x0004).resp = .data 0x00000100#32 ∧
    (State.reset.busRead 0x000C).resp = .data 0#32 ∧ (State.reset.busRead 0x0020).resp = .data 0#32 ∧
    (State.reset.busRead 0x9000).resp = .data 0#32 ∧ (State.reset.busRead 0x1400).resp = .data 0#32 := by decide

/-- Table 2.6: the two bus errors. -/
theorem test_bus_errors :
    (State.reset.hostAccess (.read 0x0002 .w32)).resp = .busError 0x0002 ∧
    (State.reset.hostAccess (.write 0x1000 .w8 0x1#4 0x05#32)) = { State.reset with resp := .busError 0x1000 } := by
  decide

/-- Table 2.6: the word order of a big-integer register, and NLEN. -/
theorem test_big_register_words :
    ((((State.reset.busWrite 0x4000 0x00001321#32).busWrite 0x4008 0xFFFFFF72#32).busWrite 0x400C 0xFFFFFFFF#32).n
      = 0xffffffffffffff720000000000001321) ∧
    ((State.reset.busWrite 0x4000 0x00001321#32).busRead 0x001C).resp = .data 2#32 := by decide

/-- Table 2.6: the byte order of IN_BUF; the reserved bits of IN_LEN and CTRL. -/
theorem test_buffer_and_reserved_bits :
    (State.reset.busWrite 0x7000 0x2D415352#32).inBuf.bytesFrom 0 4 = [0x52#8, 0x53#8, 0x41#8, 0x2D#8] ∧
    ((State.reset.busWrite 0x0014 0x00012345#32).busRead 0x0014).resp = .data 0x00002345#32 ∧
    ((State.reset.busWrite 0x0008 0xFFFFFFFD#32).busRead 0x0008).resp = .data 0x00000001#32 := by decide

/-- Table 2.1: a second command is refused, an operand write is dropped; W1C clears all three bits. -/
theorem test_hazard_bits :
    after State.statusWord (engineTurn ((State.reset.busWrite 0x000C 0#32).busWrite 0x000C 2#32)) = some 0x00000006#32 ∧
    after State.statusWord (engineTurn ((State.reset.busWrite 0x000C 0#32).busWrite 0x1000 5#32)) = some 0x0000000A#32 ∧
    ({ State.reset with done := true, ovr := true, wbusy := true }.busWrite 0x0010 0xE#32).statusWord = 0#32 := by
  decide

/-- Table 2.1, last row: a soft reset abandons a command; table 2.7: R is read-only while busy too. -/
theorem test_soft_reset :
    (flying.busWrite 0x0008 3#32).arch = State.resetWith flying.cfg ∧
    flying.busWrite 0x5000 7#32 = { flying with resp := .written } := by decide

/-- R91: IRQ needs both IRQ_EN and DONE. -/
theorem test_irq : after State.irq (exec .nop { State.reset with irqEn := true }) = some true ∧
    after State.irq (exec .nop State.reset) = some false := by decide

/-- The word placed by withFetchWord runs at the very next step, before anything listed. -/
theorem test_withFetchWord_runs_next :
    after State.r (step ({ idle with agenda := [.resetAssert] }.withFetchWord 32 2)) = some 2790 := by decide

/-- R61: with nothing listed and nothing in flight, a step changes nothing. -/
theorem test_reset_state_rests : after id (step State.reset) = some State.reset := by decide

/-- R76's trace for `mm(2790, 2790)`, and R72's for `egcd_ref(17, 3120)` and `egcd_ref(5, 1)`. -/
theorem test_reference_traces :
    barrettMu 3233 = 5189 ∧ barrettQuotient 3233 7784100 = 2407 ∧ modmulRef 2790 2790 3233 = 2269 ∧
    modexpRef 65 17 3233 = 2790 ∧ egcdRef 17 3120 = (2753, 1) ∧ egcdRef 5 1 = (0, 1) := by decide

/-! ## Witnesses: for each statement with hypotheses, states and operands that meet all of them, one for
each clause, at a boundary of its range. The name says whose hypotheses they are. -/

theorem test_inv_idle : idle.Inv where
  config := by decide
  registers := by unfold State.registersFit; decide
  buffers := by unfold State.buffersFit; decide
  status := by unfold State.statusFits; decide
  held := by unfold State.resetHeld; decide

theorem test_inv_flying : flying.Inv where
  config := by decide
  registers := by unfold State.registersFit; decide
  buffers := by unfold State.buffersFit; decide
  status := by unfold State.statusFits; decide
  held := by unfold State.resetHeld; decide

theorem test_engineNext_nil : flying.engineNext := .inl rfl

theorem test_engineNext_cons : ({ flying with agenda := [.engine] } : State).engineNext := .inr ⟨[], rfl⟩

/-- A write of `w` to the offset `off` of the small machine. -/
def wrote (off : Nat) (w : Word) : Access := .write (idle.cfg.base + off) .w32 0xF#4 w

theorem test_witness_DecodeEncodeAgree : decode 0x00000005#32 = .ok .decBlock := by decide

theorem test_witness_DecodingFollowsTheOpcodeMap :
    (0x00000010#32).toNat / 16 ≠ 0 ∧ (0x0000000F#32).toNat / 16 = 0 ∧ 0x6 ≤ (0x0000000F#32).toNat % 16 ∧
    (0x00000006#32).toNat / 16 = 0 ∧ 0x6 ≤ (0x00000006#32).toNat % 16 ∧
    (∀ k ∈ [0, 1, 2, 3, 4, 5], (BitVec.ofNat 32 k).toNat / 16 = 0 ∧ (BitVec.ofNat 32 k).toNat % 16 = k) ∧
    ({ flying with curCmd := 0x12#32 } : State).busy = true ∧
    decode ({ flying with curCmd := 0x12#32 } : State).curCmd = .error .reservedBits ∧
    idle.cfg.ok = true ∧ idle.busy = false := by decide

theorem test_witness_StepRunsDecodedCommand :
    (flying.busy = true ∧ flying.engineNext ∧ decode flying.curCmd = .ok .modexp) ∧
    idle.busy = false ∧ idle.engineNext := ⟨⟨rfl, .inl rfl, by decide⟩, rfl, .inl rfl⟩

theorem test_witness_StepServesHostTransaction :
    ({ idle with agenda := [.host (wrote 8 1#32)] } : State).agenda = .host (wrote 8 1#32) :: [] ∧
    ({ idle with agenda := [.host (wrote 8 1#32)] } : State).rstLine = false ∧
    ({ State.resetWith idle.cfg with rstLine := true, agenda := [.host (wrote 8 1#32)] } : State).rstLine = true := by
  decide

theorem test_witness_CmdWriteWhileIdleStartsCommand :
    idle.cfg.ok = true ∧ idle.rstLine = false ∧ idle.busy = false ∧
    ({ idle with agenda := [.host (wrote 0xC 2#32)] } : State).agenda
      = .host (.write (idle.cfg.base + 0x000C) .w32 0xF#4 2#32) :: [] := by decide

theorem test_witness_CmdWriteWhileBusyIsRefused :
    flying.cfg.ok = true ∧ flying.rstLine = false ∧ flying.busy = true ∧
    ({ flying with agenda := [.host (wrote 0xC 1#32)] } : State).agenda
      = .host (.write (flying.cfg.base + 0x000C) .w32 0xF#4 1#32) :: [] := by decide

theorem test_witness_CompletionChangesOnlyResultsAndStatus : flying.busy = true ∧ flying.engineNext :=
  ⟨rfl, .inl rfl⟩

/-- R63: a state for each line of the table of checks, in its order, and one that passes them all. -/
theorem test_witness_CompletionChecksInOrder :
    flying.busy = true ∧ flying.engineNext ∧
    6 ≤ ({ flying with curCmd := 6#32 } : State).curCmd.toNat ∧
    ({ flying with curCmd := 1#32, n := 0 } : State).n = 0 ∧
    byteLength flying.n - 1 < ({ flying with curCmd := 4#32, inLen := 2 } : State).inLen.toNat ∧
    byteLength flying.n < ({ flying with curCmd := 5#32, inLen := 3 } : State).inLen.toNat ∧
    Nat.gcd 61 ({ flying with curCmd := 3#32, a := 61 } : State).n ≠ 1 ∧ flying.n ≠ 0 :=
  ⟨rfl, .inl rfl, by decide, rfl, by decide, by decide, by decide, by decide⟩

theorem test_witness_NopCompletes : idle.busy = false := rfl

theorem test_witness_ReservedWordCompletesIllegal :
    flying.busy = true ∧ flying.engineNext ∧ 0x6 ≤ (0x00000006#32).toNat % 16 ∧
    0x6 ≤ (0x0000000F#32).toNat % 16 ∧ (0x00000010#32).toNat / 16 ≠ 0 ∧ (0xFFFFFFFF#32).toNat / 16 ≠ 0 :=
  ⟨rfl, .inl rfl, by decide, by decide, by decide, by decide⟩

theorem test_witness_ModmulResult : ({ idle with n := 0 } : State).n = 0 ∧ idle.n ≠ 0 := by decide

theorem test_witness_ModexpResult : ({ idle with n := 0 } : State).n = 0 ∧ ({ idle with n := 1 } : State).n ≠ 0 := by
  decide

theorem test_witness_ModinvResult :
    ({ idle with n := 0 } : State).n = 0 ∧ (idle.n ≠ 0 ∧ Nat.gcd 61 idle.n ≠ 1) ∧
    idle.n ≠ 0 ∧ Nat.gcd idle.a idle.n = 1 := by decide

theorem test_inv_zero_modulus : ({ idle with n := 0 } : State).Inv := { test_inv_idle with
  registers := by unfold State.registersFit; decide
  held := by unfold State.resetHeld; decide }

theorem test_inv_inLen (len : Half) : ({ idle with inLen := len } : State).Inv := { test_inv_idle with
  held := fun h => by cases h }

theorem test_witness_EncBlockResult :
    ({ idle with n := 0 } : State).Inv ∧ ({ idle with n := 0 } : State).n = 0 ∧
    ({ idle with inLen := 2 } : State).Inv ∧ byteLength idle.n - 1 < (2 : Half).toNat ∧
    ({ idle with inLen := 1 } : State).Inv ∧ (1 : Half).toNat ≤ byteLength idle.n - 1 ∧ idle.n ≠ 0 :=
  ⟨test_inv_zero_modulus, rfl, test_inv_inLen 2, by decide, test_inv_inLen 1, by decide, by decide⟩

theorem test_witness_DecBlockResult :
    ({ idle with n := 0 } : State).Inv ∧ ({ idle with n := 0 } : State).n = 0 ∧
    ({ idle with inLen := 3 } : State).Inv ∧ byteLength idle.n < (3 : Half).toNat ∧
    ({ idle with inLen := 2 } : State).Inv ∧ (2 : Half).toNat ≤ byteLength idle.n ∧ idle.n ≠ 0 :=
  ⟨test_inv_zero_modulus, rfl, test_inv_inLen 3, by decide, test_inv_inLen 2, by decide, by decide⟩

theorem test_witness_CommandsWriteOnlyTheirResults : ∀ i, ∃ t, exec i idle = .next t := by
  intro i
  cases i <;> exact ⟨_, rfl⟩

theorem test_witness_UnreducedOperandsGiveTheSameResult :
    ({ idle with a := 5000 } : State).n ≠ 0 ∧ Nat.gcd ({ idle with a := 5000 } : State).a idle.n = 1 := by decide

theorem test_witness_ModinvCornerCases :
    ({ idle with n := 1 } : State).n = 1 ∧ (2 ≤ ({ idle with n := 2, a := 1 } : State).n ∧ 1 = 2 - 1) ∧
    (({ idle with a := 1 } : State).n ≠ 0 ∧ ({ idle with a := 1 } : State).a = 1) ∧
    2 ≤ ({ idle with n := 2, a := 0 } : State).n ∧ ({ idle with n := 2, a := 0 } : State).a = 0 := by decide

theorem test_witness_ModmulWithLargestModulusIsPlainProduct :
    ({ idle with a := 0xFFFF, b := 0xFFFF, n := 2 ^ 32 - 1 } : State).Inv ∧
    ({ idle with a := 0xFFFF, b := 0xFFFF, n := 2 ^ 32 - 1 } : State).n = 2 ^ (8 * idle.cfg.maxBytes) - 1 ∧
    0xFFFF * 0xFFFF < 2 ^ (8 * idle.cfg.maxBytes) - 1 :=
  ⟨{ test_inv_idle with
    registers := by unfold State.registersFit; decide
    held := by unfold State.resetHeld; decide }, by decide, by decide⟩

theorem test_witness_PlaintextBlockIsBelowModulus :
    1 ≤ 3233 ∧ [0xFF#8].length ≤ byteLength 3233 - 1 ∧ 1 ≤ 1 ∧ ([] : List Byte).length ≤ byteLength 1 - 1 := by decide

/-- R37: the first and last reserved offsets of each range, for `MAXBYTES = 4`, and offsets beside them
that are not reserved. -/
theorem test_reserved_offsets :
    (∀ off ∈ [0x0020, 0x0FFC, 0x1004, 0x1FFC, 0x8004, 0x8FFC, 0x9000, 0xFFFC], idle.reservedOffset off) ∧
    ∀ off ∈ [0x001C, 0x1000, 0x8000, 0x10000, 0x0022], ¬ idle.reservedOffset off := by
  unfold State.reservedOffset; decide

theorem test_witness_HostReadTable :
    idle.Inv ∧ idle.busy = false ∧ flying.Inv ∧ flying.busy = true ∧ 0 < idle.cfg.maxBytes / 4 ∧
    idle.reservedOffset 0x1004 :=
  ⟨test_inv_idle, rfl, test_inv_flying, rfl, by decide, test_reserved_offsets.1 _ (by decide)⟩

theorem test_witness_HostWriteTable :
    idle.Inv ∧ idle.busy = false ∧ flying.Inv ∧ flying.busy = true ∧ 0 < idle.cfg.maxBytes / 4 ∧
    (1#32).getLsbD 1 = false ∧ (3#32).getLsbD 1 = true ∧ idle.reservedOffset 0xFFFC :=
  ⟨test_inv_idle, rfl, test_inv_flying, rfl, by decide, by decide, by decide, test_reserved_offsets.1 _ (by decide)⟩

theorem test_witness_ReservedReadZeroWriteIgnored :
    idle.Inv ∧ idle.busy = false ∧ idle.reservedOffset 0x0020 ∧ (0xFFFFFFFD#32).toNat % 2 ^ 2 = (1#32).toNat % 2 ^ 2 ∧
    (0x12#32).toNat % 2 ^ 4 = (2#32).toNat % 2 ^ 4 ∧ (0x12345#32).toNat % 2 ^ 16 = (0x2345#32).toNat % 2 ^ 16 :=
  ⟨test_inv_idle, rfl, test_reserved_offsets.1 _ (by decide), by decide, by decide, by decide⟩

theorem test_witness_ReadOnlyWritesAreIgnored :
    flying.cfg.ok = true ∧ ∀ off ∈ [0x0000, 0x0004, 0x0018, 0x001C, 0x5000, 0x6FFC, 0x8000, 0x8FFC],
      off % 4 = 0 ∧ (off = 0x0000 ∨ off = 0x0004 ∨ off = 0x0018 ∨ off = 0x001C ∨
        0x5000 ≤ off ∧ off < 0x7000 ∨ 0x8000 ≤ off ∧ off < 0x9000) := by decide

theorem test_witness_BigRegisterWords : idle.Inv ∧ idle.busy = false ∧ 0 < idle.cfg.maxBytes / 4 :=
  ⟨test_inv_idle, rfl, by decide⟩

theorem test_witness_InputBufferWordWrite : idle.Inv ∧ idle.busy = false ∧ 0 < idle.cfg.maxBytes / 4 :=
  ⟨test_inv_idle, rfl, by decide⟩

theorem test_witness_OnlyAlignedWordAccessesAreServed :
    idle.cfg.ok = true ∧ 0xFFFF < 0x10000 ∧ (AccessWidth.w8 ≠ .w32) ∧ 0xFFFE % 4 ≠ 0 ∧ (0x7#4 ≠ 0xF#4) ∧
    0xFFFC % 4 = 0 ∧ (Access.write (idle.cfg.base - 1) .w8 0x1#4 0#32).addr < idle.cfg.base ∧
    idle.cfg.base + 0x10000 ≤ (Access.write (idle.cfg.base + 0x10000) .w32 0xF#4 0#32).addr := by decide

theorem test_witness_NlenIsModulusByteLength : idle.Inv ∧ idle.n < 256 ^ 2 := ⟨test_inv_idle, by decide⟩

theorem test_witness_IrqRisesOnlyByCompletionOrEnable :
    (∃ t, step { flying with irqEn := true } = .next t ∧
      ({ flying with irqEn := true } : State).irq = false ∧ t.irq = true) ∧
    ∃ t, step { idle with done := true, agenda := [.host (wrote 8 1#32)] } = .next t ∧
      ({ idle with done := true, agenda := [.host (wrote 8 1#32)] } : State).irq = false ∧ t.irq = true :=
  ⟨⟨_, rfl, rfl, rfl⟩, _, rfl, rfl, rfl⟩

theorem test_witness_HardwareResetClearsEverything :
    ({ flying with agenda := [.resetAssert, .engine] } : State).agenda = .resetAssert :: [.engine] ∧
    ({ State.resetWith idle.cfg with rstLine := true, agenda := [.engine] } : State).engineNext :=
  ⟨rfl, .inr ⟨[], rfl⟩⟩

theorem test_witness_SoftResetClearsEverything :
    flying.Inv ∧ flying.rstLine = false ∧ (3#32).getLsbD 1 = true ∧
    ({ flying with agenda := [.host (wrote 8 3#32)] } : State).agenda
      = .host (.write (flying.cfg.base + 0x0008) .w32 0xF#4 3#32) :: [] :=
  ⟨test_inv_flying, rfl, by decide, rfl⟩

theorem test_witness_ResetValues :
    Config.ok ⟨4, 0, 0⟩ = true ∧ Config.ok ⟨4096, 0x20000, 5⟩ = true ∧
    (({ flying with agenda := [.resetAssert] } : State).resetNext ∧
      ∃ t, step { flying with agenda := [.resetAssert] } = .next t) ∧
    ({ flying with agenda := [.host (wrote 8 2#32)] } : State).resetNext ∧
      ∃ t, step { flying with agenda := [.host (wrote 8 2#32)] } = .next t :=
  ⟨by decide, by decide, ⟨.inl ⟨[], rfl⟩, _, rfl⟩, .inr ⟨wrote 8 2#32, ⟨[], rfl⟩, 2#32, by decide, rfl⟩, _, rfl⟩

theorem test_witness_ResetMeetsInvariant : Config.ok ⟨4, 0, 0⟩ = true ∧ Config.ok ⟨4096, 0x20000, 5⟩ = true := by
  decide

theorem test_witness_StepKeepsInvariant : flying.Inv ∧ ∃ t, step flying = .next t := ⟨test_inv_flying, _, rfl⟩

/-- No reset is next where the next step is a write of 0 to SRST. -/
theorem test_not_resetNext (s : State) (rest : List Event) (x : Access) (h : s.agenda = .host x :: rest)
    (hx : ¬ x.softResets s.cfg) : ¬ s.resetNext := by
  rintro (⟨r, hr⟩ | ⟨y, ⟨r, hr⟩, hy⟩)
  · rw [h] at hr; cases hr
  · rw [h] at hr; cases hr; exact hx hy

theorem test_not_softResets : ¬ (wrote 0x1000 7#32).softResets idle.cfg ∧ ¬ (wrote 8 1#32).softResets idle.cfg := by
  constructor <;> rintro ⟨w, hw, h⟩ <;> simp only [wrote, Access.write.injEq, true_and] at h
  · exact absurd h.1 (by decide)
  · rw [← h] at hw; exact absurd hw (by decide)

theorem test_witness_OperandsStableWhileBusy :
    flying.busy = true ∧ ¬ ({ flying with agenda := [.host (wrote 0x1000 7#32)] } : State).resetNext ∧
    ∃ t, step { flying with agenda := [.host (wrote 0x1000 7#32)] } = .next t :=
  ⟨rfl, test_not_resetNext _ [] _ rfl test_not_softResets.1, _, rfl⟩

theorem test_witness_ResultsChangeOnlyByCompletionOrReset :
    (∃ t, step flying = .next t ∧ t.results ≠ flying.results) ∧
    ∃ t, step { idle with r := 5, agenda := [.resetAssert] } = .next t ∧ t.results ≠ (5, 0, [], 0) :=
  ⟨⟨_, rfl, by decide⟩, _, rfl, by decide⟩

theorem test_witness_CommandInFlightStays :
    flying.busy = true ∧ ¬ ({ flying with agenda := [.host (wrote 8 1#32)] } : State).engineNext ∧
    ¬ ({ flying with agenda := [.host (wrote 8 1#32)] } : State).resetNext ∧
    ∃ t, step { flying with agenda := [.host (wrote 8 1#32)] } = .next t :=
  ⟨rfl, (by rintro (h | ⟨r, h⟩) <;> cases h), test_not_resetNext _ [] _ rfl test_not_softResets.2, _, rfl⟩

theorem test_witness_CommandStartsOnlyByCmdWrite :
    idle.busy = false ∧ ∃ t, step { idle with agenda := [.host (wrote 0xC 7#32)] } = .next t ∧ t.busy = true :=
  ⟨rfl, _, rfl, rfl⟩

theorem test_witness_HazardBitsSetOnlyByHazards :
    flying.cfg.ok = true ∧
    (∃ t, step { flying with agenda := [.host (wrote 0xC 7#32)] } = .next t ∧ flying.ovr = false ∧ t.ovr = true) ∧
    (∃ t, step { flying with agenda := [.host (wrote 0x14 7#32)] } = .next t ∧
      flying.wbusy = false ∧ t.wbusy = true) ∧
    (∃ t, step { flying with agenda := [.host (wrote 0x4000 7#32)] } = .next t ∧
      flying.wbusy = false ∧ t.wbusy = true) ∧
    ∃ t, step { flying with agenda := [.host (wrote 0x7000 7#32)] } = .next t ∧
      flying.wbusy = false ∧ t.wbusy = true :=
  ⟨by decide, ⟨_, rfl, rfl, rfl⟩, ⟨_, rfl, rfl, rfl⟩, ⟨_, rfl, rfl, rfl⟩, _, rfl, rfl, rfl⟩

theorem test_witness_DoneSetOnlyByCompletion :
    (∃ t, step flying = .next t ∧ flying.done = false ∧ t.done = true) ∧
    (∃ t, step { idle with done := true, agenda := [.resetAssert] } = .next t ∧ t.done = false) ∧
    (∃ t, step { idle with done := true, agenda := [.host (wrote 0xC 0#32)] } = .next t ∧ t.done = false) ∧
    ∃ t, step { idle with done := true, agenda := [.host (wrote 0x10 2#32)] } = .next t ∧ t.done = false :=
  ⟨⟨_, rfl, rfl, rfl⟩, ⟨_, rfl, rfl⟩, ⟨_, rfl, rfl⟩, _, rfl, rfl⟩

theorem test_witness_CommandSeesOperandsAtAcceptance :
    flying.busy = true ∧ decode flying.curCmd = .ok .modexp ∧ flying.rstLine = false ∧
    ({ flying with agenda := [.host (wrote 0x1000 7#32), .host (wrote 8 1#32), .engine] } : State).agenda
      = [wrote 0x1000 7#32, wrote 8 1#32].map Event.host ++ .engine :: [] ∧
    ∀ x ∈ [wrote 0x1000 7#32, wrote 8 1#32], ¬ x.softResets flying.cfg :=
  ⟨rfl, by decide, rfl, rfl, by
    intro x hx
    simp only [List.mem_cons, List.not_mem_nil, or_false] at hx
    rcases hx with rfl | rfl
    · exact test_not_softResets.1
    · exact test_not_softResets.2⟩

theorem test_witness_BusyMachineHidesItsResults :
    flying.cfg.ok = true ∧ flying.busy = true ∧ ¬ (wrote 8 1#32).softResets flying.cfg ∧
    (wrote 8 2#32).softResets flying.cfg :=
  ⟨by decide, rfl, test_not_softResets.2, 2#32, by decide, rfl⟩

theorem test_witness_ParametersNeverChange : ∃ t, step flying = .next t := ⟨_, rfl⟩

theorem test_witness_SquareAndMultiplyReference : 1 ≤ 1 := by decide

theorem test_witness_BarrettReference : 1 ≤ 3233 ∧ 2790 < 3233 ∧ 3232 < 3233 ∧ 1 ≤ 1 ∧ 0 < 1 := by decide

theorem test_witness_EuclidReference : 1 ≤ 1 ∧ Nat.gcd 5 1 = 1 ∧ 1 ≤ 3120 ∧ Nat.gcd 17 3120 = 1 := by decide

theorem test_witness_MultiplierVariantIsInvisible :
    idle.n ≠ 0 ∧ ∀ x y, x < idle.n → y < idle.n → (fun x y => x * y % idle.n) x y = x * y % idle.n :=
  ⟨by decide, fun _ _ _ _ => rfl⟩

/-- A key pair modulo 323 = 17 * 19: each exponent undoes the other. -/
theorem test_key_323 : ∀ m, m < 323 → (m ^ 5) ^ 173 % 323 = m := by
  have h : (List.range 323).all (fun m => (m ^ 5) ^ 173 % 323 == m) = true := by decide +kernel
  intro m hm
  simpa using List.all_eq_true.1 h m (List.mem_range.2 hm)

theorem test_inv_key_323 : ({ idle with e := 5, n := 323 } : State).Inv := { test_inv_idle with
  registers := by unfold State.registersFit; decide
  held := by unfold State.resetHeld; decide }

theorem test_witness_BlockRoundTrip :
    ({ idle with e := 5, n := 323 } : State).Inv ∧ ({ idle with e := 5, n := 323 } : State).n ≠ 0 ∧
    idle.inLen.toNat ≤ byteLength 323 - 1 ∧ ∀ m, m < 323 → (m ^ 5) ^ 173 % 323 = m :=
  ⟨test_inv_key_323, by decide, by decide, test_key_323⟩

theorem test_witness_PlayIsARunOfTheMachine : [rd idle.cfg 0] ≠ [] ∧ ∃ t answers, play [rd idle.cfg 0] idle = some (t, answers) :=
  ⟨by decide, _, _, rfl⟩

theorem test_witness_LdbigLoadsRegister :
    idle.Inv ∧ idle.busy = false ∧ idle.rstLine = false ∧ 2 ^ 32 - 1 < 2 ^ (8 * idle.cfg.maxBytes) :=
  ⟨test_inv_idle, rfl, rfl, by decide⟩

/-- Two polls that read BUSY = 1, and then the completion step before the third. -/
def twoPolls : WaitSteps := [[], [], [.engine]]

theorem test_quiet_twoPolls : twoPolls.quiet := by unfold WaitSteps.quiet; decide

/-- 90_conflicts.md C9: a hardware reset before the second poll ends the wait, and STATUS then reads 0. -/
theorem test_wait_ends_on_reset :
    (waitIdle [[], [.resetAssert, .resetRelease], [.engine]] flying).map (fun out => (out.2, out.1.r))
      = some ([1#32, 0#32], 0) := by decide

theorem test_witness_WaitEndsAfterCompletion :
    (idle.Inv ∧ idle.rstLine = false ∧ idle.busy = false) ∧
    (flying.Inv ∧ flying.busy = true ∧ flying.rstLine = false) ∧ twoPolls.quiet ∧
    [wr flying.cfg 0x0008 0x2#32] ∈ [[Event.resetAssert, Event.resetRelease], [wr flying.cfg 0x0008 0x2#32]] :=
  ⟨⟨test_inv_idle, rfl, rfl⟩, ⟨test_inv_flying, rfl, rfl⟩, test_quiet_twoPolls, by simp⟩

theorem test_witness_KeygenAnswersInverseExponents :
    idle.Inv ∧ idle.busy = false ∧ idle.rstLine = false ∧ twoPolls.quiet ∧ 17 * 19 < 2 ^ (8 * idle.cfg.maxBytes) ∧
    (∃ t, keygen (fun _ => twoPolls) 17 19 [[6#8], [5#8]] idle = some (t, 5, 173, 323)) ∧
    [5#8].length = byteLength ((17 - 1) * (19 - 1)) - 1 ∧ 1 < beInt [5#8] ∧
    Nat.gcd (beInt [5#8]) ((17 - 1) * (19 - 1)) = 1 :=
  ⟨test_inv_idle, rfl, rfl, test_quiet_twoPolls, by decide, ⟨_, rfl⟩, by decide, by decide, by decide⟩

theorem test_witness_KeygenNeverEndsForSmallPhi : (17 - 1) * (16 - 1) < 256 := by decide

theorem test_witness_EncryptOutputLength :
    idle.Inv ∧ flying.Inv ∧ idle.rstLine = false ∧ twoPolls.quiet ∧ 1 ≤ 1 ∧ 1 ≤ 255 ∧
    2 ≤ byteLength 256 ∧ 2 ^ 32 - 1 < 2 ^ (8 * idle.cfg.maxBytes) ∧
    StreamFaults.stopsAfter ⟨some 2, some 2⟩ (streamBlocks 1 [0x48#8, 0x69#8]).length 2 ∧
    StreamFaults.stopsAfter ⟨some 2, some 1⟩ (streamBlocks 1 [0x48#8, 0x69#8]).length 1 ∧
    ∀ m, ¬ StreamFaults.stopsAfter ⟨some 3, some 2⟩ (streamBlocks 1 [0x48#8, 0x69#8]).length m := by
  refine ⟨test_inv_idle, test_inv_flying, rfl, test_quiet_twoPolls, by decide, by decide, by decide, by decide,
    .inl ⟨rfl, by decide, fun k h => by cases h; decide⟩, .inr ⟨rfl, by decide, fun k h => by cases h; decide⟩, ?_⟩
  rintro m (⟨h, hm, -⟩ | ⟨h, hm, -⟩) <;> cases h <;> exact absurd hm (by decide)

theorem test_witness_StreamRoundTrip :
    idle.Inv ∧ idle.rstLine = false ∧ twoPolls.quiet ∧ 256 ≤ 323 ∧ 323 < 2 ^ (8 * idle.cfg.maxBytes) ∧
    5 < 2 ^ (8 * idle.cfg.maxBytes) ∧ 173 < 2 ^ (8 * idle.cfg.maxBytes) ∧ ∀ m, m < 323 → (m ^ 5) ^ 173 % 323 = m :=
  ⟨test_inv_idle, rfl, test_quiet_twoPolls, by decide, by decide, by decide, by decide, test_key_323⟩

theorem test_witness_GeneratedKeysInvertEachOther :
    idle.Inv ∧ idle.busy = false ∧ idle.rstLine = false ∧ WaitSteps.quiet [] ∧ Nat.Prime 17 ∧ Nat.Prime 19 ∧ 17 ≠ 19 ∧
    (∃ t, keygen (fun _ => []) 17 19 [[5#8]] idle = some (t, 5, 173, 323)) ∧ 322 < 323 :=
  ⟨test_inv_idle, rfl, rfl, by simp [WaitSteps.quiet], by norm_num, by norm_num, by decide, ⟨_, rfl⟩, by decide⟩

theorem test_witness_RepeatedAccessesChangeNothingMore :
    idle.Inv ∧ flying.Inv ∧ 0xFFFC < 0x10000 ∧ 0xFFFC % 4 = 0 ∧ 0xFFFC ≠ 0x000C ∧ idle.busy = false :=
  ⟨test_inv_idle, test_inv_flying, by decide, by decide, by decide, rfl⟩

end Sys2Proof.Tests
end

section
/-! PROOFS. The scope's statements: what the engine's turn runs (R14, R61), and that no step changes the
parameters (R5, R6, R20). -/

namespace Sys2Proof.Machine

variable {s t : State}

theorem engineStep_of_decode {i : Instr} (h : decode s.curCmd = .ok i) : engineStep s = exec i s := by
  simp [engineStep, h]

/-- Settles O4: with BUSY = 1 the engine's turn is `engineStep`, which runs the decoded command. -/
theorem stepRunsDecodedCommand : Obligations.StepRunsDecodedCommand := by
  refine ⟨fun s i hb he hd => ?_, fun s hb he => (step_engine he).trans (engineTurn_idle hb)⟩
  calc step s = engineTurn (s.withAgenda s.agenda.tail) := step_engine he
    _ = engineStep (s.withAgenda s.agenda.tail) := engineTurn_busy hb
    _ = exec i (s.withAgenda s.agenda.tail) := engineStep_of_decode hd

theorem Completion.cfg_draws (h : Completion s t) : t.cfg = s.cfg ∧ t.draws = s.draws := by
  obtain ⟨code, ht⟩ := h.frame
  rw [ht]
  exact ⟨rfl, rfl⟩

/-- The soft reset included: it leaves both (R103). -/
theorem WriteEffect.cfg_draws {w : Word} {x : Reg} (h : WriteEffect s w x t) :
    t.cfg = s.cfg ∧ t.draws = s.draws := by
  cases h <;> exact ⟨rfl, rfl⟩

/-- `t` has the parameters of `s`, and the draw counter stands still or the bus answers the one draw made
since (log entry 4). -/
def DrawsAtMostOnce (s t : State) : Prop :=
  t.cfg = s.cfg ∧ (t.draws = s.draws ∨ t.draws = s.draws + 1 ∧ t.resp = .data (Config.draw s.draws))

theorem DrawsAtMostOnce.of_eq (h : t.cfg = s.cfg ∧ t.draws = s.draws) : DrawsAtMostOnce s t := ⟨h.1, .inl h.2⟩

theorem readReg_drawsAtMostOnce (s : State) (x : Reg) : DrawsAtMostOnce s (s.readReg x) := by
  rcases readReg_cases s x with ⟨-, -, h⟩ | h <;> rw [h]
  · exact ⟨rfl, .inr ⟨rfl, rfl⟩⟩
  · exact .of_eq ⟨rfl, rfl⟩

/-- Only a served read can draw. -/
theorem hostAccess_drawsAtMostOnce (s : State) (x : Access) : DrawsAtMostOnce s (s.hostAccess x) := by
  rcases hostAccess_cases s x with ⟨-, h⟩ | ⟨-, -, h⟩ | ⟨-, -, h⟩ <;> rw [h]
  · exact .of_eq ⟨rfl, rfl⟩
  · exact .of_eq ⟨rfl, rfl⟩
  · cases x with
    | read addr width => exact readReg_drawsAtMostOnce s _
    | write addr width lanes w => exact .of_eq (effectOfWrite_cases s _ w).cfg_draws

theorem step_drawsAtMostOnce (h : step s = .next t) : DrawsAtMostOnce s t := by
  rcases step_cases s with ⟨-, -, e⟩ | ⟨-, -, u, e, c⟩ | ⟨x, rest, -, -, e⟩ | ⟨x, rest, -, -, e⟩ |
    ⟨rest, -, e⟩ | ⟨rest, -, e⟩ <;> rw [e] at h <;> cases h
  · exact .of_eq ⟨rfl, rfl⟩
  · exact .of_eq c.cfg_draws
  · exact hostAccess_drawsAtMostOnce (s.withAgenda rest) x
  · exact .of_eq ⟨rfl, rfl⟩
  · exact .of_eq ⟨rfl, rfl⟩

/-- Settles O46, by what each agent's step can do: only a host's read of a result while busy draws. -/
theorem parametersNeverChange : Obligations.ParametersNeverChange := fun _ _ h => step_drawsAtMostOnce h

end Sys2Proof.Machine
end

section
/-! PROOFS. The state's statements: the invariant at reset and through every step (R23, R25, R27, R29, R32,
R88, R102). -/

namespace Sys2Proof.Machine

variable {s t : State}

/-- A busy machine is not the reset state that an asserted reset input holds (R102). -/
theorem State.Inv.line_low_of_busy (hi : s.Inv) (hb : s.busy = true) : s.rstLine = false := by
  by_contra hr
  have hreset : s.resetState.busy = s.busy := by rw [hi.held (by simpa using hr)]
  simp [hb] at hreset

theorem State.resetHeld_of_line_low (hr : s.rstLine = false) : s.resetHeld := by
  simp [State.resetHeld, hr]

/-- The invariant says nothing about the steps to come, the last response and the count of draws. -/
theorem State.Inv.of_modelFields (hi : s.Inv) (steps : List Event) (answer : Response) (count : Nat) :
    State.Inv { s with agenda := steps, resp := answer, draws := count } where
  config := hi.config
  registers := hi.registers
  buffers := hi.buffers
  status := hi.status
  held hr := congrArg (fun u : State => { u with agenda := steps, resp := answer, draws := count }) (hi.held hr)

theorem State.Inv.withAgenda (hi : s.Inv) (steps : List Event) : (s.withAgenda steps).Inv :=
  hi.of_modelFields steps s.resp s.draws

theorem State.Inv.respond (hi : s.Inv) (answer : Response) : (s.respond answer).Inv :=
  hi.of_modelFields s.agenda answer s.draws

/-- The reset action gives the invariant from any state with legal parameters, whatever the level of the reset
input is. -/
theorem inv_resetState_setLine (hc : s.cfg.ok = true) (level : Bool) : (s.resetState.setLine level).Inv where
  config := hc
  registers := by simp [State.registersFit]
  buffers := ⟨Memory.wf_nil, Memory.wf_nil, by simp, by simp, Nat.zero_le _⟩
  status := by simp [State.statusFits]
  held _ := rfl

theorem inv_resetWith {c : Config} (hc : c.ok = true) : (State.resetWith c).Inv :=
  inv_resetState_setLine (s := State.resetWith c) hc false

/-- Settles O36: the reset state is its own reset action's result. -/
theorem resetMeetsInvariant : Obligations.ResetMeetsInvariant :=
  ⟨inv_resetWith (c := Config.standard) (by decide), fun _ hc => inv_resetWith hc⟩

/-! Results of a completion are residues of N, divisors of N, or blocks of at most `byteLength(N)` bytes. -/

theorem Completion.registersFit (h : Completion s t) (hi : s.Inv) : t.registersFit := by
  obtain ⟨ha, hb, he, hn, hr, hg⟩ := hi.registers
  cases h with
  | plain => exact ⟨ha, hb, he, hn, hr, hg⟩
  | product v h0 hv => exact ⟨ha, hb, he, hn, hv.trans hn, hg⟩
  | inverse v h0 hv => exact ⟨ha, hb, he, hn, hv.trans hn, (Nat.one_le_iff_ne_zero.2 h0).trans_lt hn⟩
  | notCoprime h0 => exact ⟨ha, hb, he, hn, hr, (Nat.gcd_le_right _ (Nat.pos_of_ne_zero h0)).trans_lt hn⟩
  | block x v h0 hv => exact ⟨ha, hb, he, hn, hv.trans hn, hg⟩

/-- `byteLength(N) <= MAXBYTES` (R26), so it fits a 16-bit field. -/
theorem State.Inv.modLen_le (hi : s.Inv) : s.modLen ≤ s.cfg.maxBytes := by
  obtain ⟨-, -, -, hn, -⟩ := hi.registers
  exact byteLength_le_of_fits hn

theorem State.Inv.modLen_lt (hi : s.Inv) : s.modLen < 2 ^ 16 := by
  obtain ⟨-, -, hmax, -⟩ := (config_ok_iff s.cfg).1 hi.config
  have := hi.modLen_le
  omega

theorem Completion.buffersFit (h : Completion s t) (hi : s.Inv) : t.buffersFit := by
  cases h with
  | block x v h0 hv hx =>
    obtain ⟨hin, -, hinMax, -, -⟩ := hi.buffers
    have hlen : (s.storeBlock x v).outLen.toNat = x.length := storeBlock_outLen v (hx.trans_lt hi.modLen_lt)
    exact ⟨hin, storeBlock_wf (s := s) x v, hinMax, fun p hp => (Memory.mem_ofBytes hp).trans_eq hlen.symm,
      hlen.trans_le (hx.trans hi.modLen_le)⟩
  | _ => exact hi.buffers

theorem Completion.statusFits (h : Completion s t) : t.statusFits := by
  obtain ⟨code, ht⟩ := h.frame
  rw [ht]
  exact ⟨fun hb => absurd hb (by simp), errBits_le code⟩

theorem Completion.inv (h : Completion s t) (hi : s.Inv) (hb : s.busy = true) : t.Inv := by
  obtain ⟨code, ht⟩ := h.frame
  refine ⟨?_, h.registersFit hi, h.buffersFit hi, h.statusFits, State.resetHeld_of_line_low ?_⟩
  · rw [ht]; exact hi.config
  · rw [ht]; exact hi.line_low_of_busy hb

/-- A register is a whole number of words (R5, R28). -/
theorem registerBits_eq {c : Config} (hc : c.ok = true) : 8 * c.maxBytes = 32 * (c.maxBytes / 4) := by
  obtain ⟨h4, -⟩ := (config_ok_iff c).1 hc
  omega

/-- R28: a write of one of its words keeps a register within `8*MAXBYTES` bits. -/
theorem setBigWord_fits {c : Config} (hc : c.ok = true) {x k : Nat} (w : Word) (hx : x < 2 ^ (8 * c.maxBytes))
    (hk : k < c.maxBytes / 4) : setBigWord x k w < 2 ^ (8 * c.maxBytes) := by
  rw [registerBits_eq hc] at hx ⊢
  exact setBigWord_lt w hx hk

/-- R29: a write of one of its words leaves IN_BUF canonical and within `MAXBYTES`. -/
theorem State.Inv.buffersFit_writeWord (hi : s.Inv) {k : Nat} (w : Word) (hk : k < s.cfg.maxBytes / 4) :
    State.buffersFit { s with inBuf := s.inBuf.writeWord k w } := by
  obtain ⟨hin, hout, hinMax, hrest⟩ := hi.buffers
  refine ⟨Memory.wf_writeWord hin k w, hout, fun p hp => ?_, hrest⟩
  rcases Memory.mem_writeWord hp with hlt | hp
  · show p.1 < s.cfg.maxBytes
    omega
  · exact hinMax p hp

/-- Every served write keeps the invariant of a machine whose reset input is low. -/
theorem WriteEffect.inv {w : Word} {off : Nat} (h : WriteEffect s w (regAt s.cfg off) t) (hi : s.Inv)
    (hr : s.rstLine = false) : t.Inv := by
  have hlow : ∀ {u : State}, u.rstLine = s.rstLine → u.resetHeld := fun e => State.resetHeld_of_line_low (e.trans hr)
  have hword : ∀ win k, regAt s.cfg off = .word win k → k < s.cfg.maxBytes / 4 :=
    fun _ _ hx => (regAt_word hi.config hx).1
  obtain ⟨ha, hb, he, hn, hres⟩ := hi.registers
  generalize regAt s.cfg off = x at h hword
  cases h with
  | ignored => exact hi
  | softReset => exact inv_resetState_setLine hi.config s.rstLine
  | irqEnable => exact ⟨hi.config, hi.registers, hi.buffers, hi.status, hlow rfl⟩
  | refused => exact ⟨hi.config, hi.registers, hi.buffers, hi.status, hlow rfl⟩
  | accepted => exact ⟨hi.config, hi.registers, hi.buffers, ⟨fun _ => ⟨rfl, rfl⟩, Nat.zero_le 4⟩, hlow rfl⟩
  | cleared =>
    obtain ⟨hbusy, herr⟩ := hi.status
    exact ⟨hi.config, hi.registers, hi.buffers, ⟨fun hb => by simp [hbusy hb], herr⟩, hlow rfl⟩
  | dropped => exact ⟨hi.config, hi.registers, hi.buffers, hi.status, hlow rfl⟩
  | inLen => exact ⟨hi.config, hi.registers, hi.buffers, hi.status, hlow rfl⟩
  | wordA _ k =>
    have hfit := setBigWord_fits hi.config w ha (hword _ _ rfl)
    exact ⟨hi.config, ⟨hfit, hb, he, hn, hres⟩, hi.buffers, hi.status, hlow rfl⟩
  | wordB _ k =>
    have hfit := setBigWord_fits hi.config w hb (hword _ _ rfl)
    exact ⟨hi.config, ⟨ha, hfit, he, hn, hres⟩, hi.buffers, hi.status, hlow rfl⟩
  | wordE _ k =>
    have hfit := setBigWord_fits hi.config w he (hword _ _ rfl)
    exact ⟨hi.config, ⟨ha, hb, hfit, hn, hres⟩, hi.buffers, hi.status, hlow rfl⟩
  | wordN _ k =>
    have hfit := setBigWord_fits hi.config w hn (hword _ _ rfl)
    exact ⟨hi.config, ⟨ha, hb, he, hfit, hres⟩, hi.buffers, hi.status, hlow rfl⟩
  | wordIn _ k =>
    exact ⟨hi.config, hi.registers, hi.buffersFit_writeWord w (hword _ _ rfl), hi.status, hlow rfl⟩

/-- Releasing the reset input ends the claim on the reset state (R102). -/
theorem State.Inv.setLine_false (hi : s.Inv) : (s.setLine false).Inv :=
  ⟨hi.config, hi.registers, hi.buffers, hi.status, State.resetHeld_of_line_low rfl⟩

/-- Settles O37, by what each agent's step can do; a completion and a host access find the reset input low. -/
theorem stepKeepsInvariant : Obligations.StepKeepsInvariant := by
  intro s t hi hs
  rcases step_next hs with ⟨-, -, rfl⟩ | ⟨-, hb, hc⟩ | ⟨x, rest, -, hr, h⟩ | ⟨rest, -, rfl⟩ | ⟨rest, -, rfl⟩
  · exact hi.withAgenda _
  · exact hc.inv (hi.withAgenda _) hb
  · rcases h with ⟨answer, count, rfl⟩ | ⟨off, w, u, -, hw, rfl⟩
    · exact hi.of_modelFields _ _ _
    · exact (hw.inv (hi.withAgenda rest) hr).respond _
  · exact inv_resetState_setLine (s := s.withAgenda rest) hi.config true
  · exact (hi.withAgenda rest).setLine_false

end Sys2Proof.Machine
end

section
/-! PROOFS. The state's statements: which steps may change the results, start a command, and set or clear a
status bit (R17, R23, R27). -/

namespace Sys2Proof.Machine

variable {s t : State}

/-- What a step did to R15's state: nothing, a completion, a hardware reset, or the effect of a served write. -/
theorem step_arch_cases (hs : step s = .next t) :
    t.arch = s.arch ∨
    s.busy = true ∧ s.engineNext ∧ Completion (s.withAgenda s.agenda.tail) t ∨
    (∃ rest, s.agenda = .resetAssert :: rest ∧ t.arch = State.resetWith s.cfg) ∨
    ∃ off w rest u, s.agenda = .host (.write (s.cfg.base + off) .w32 0xF#4 w) :: rest ∧
      WriteEffect (s.withAgenda rest) w (regAt s.cfg off) u ∧ t = u.respond .written := by
  rcases step_next hs with ⟨-, -, rfl⟩ | ⟨he, hb, hc⟩ | ⟨x, rest, ha, -, h⟩ | ⟨rest, ha, rfl⟩ | ⟨rest, -, rfl⟩
  · exact .inl rfl
  · exact .inr (.inl ⟨hb, he, hc⟩)
  · rcases h with ⟨answer, count, rfl⟩ | ⟨off, w, u, rfl, hw, rfl⟩
    · exact .inl rfl
    · exact .inr (.inr (.inr ⟨off, w, rest, u, ha, hw, rfl⟩))
  · exact .inr (.inr (.inl ⟨rest, ha, rfl⟩))
  · exact .inl rfl

/-- A write of SRST = 1 to CTRL is next (R103). -/
theorem resetNext_of_softReset {off : Nat} {w : Word} {rest : List Event}
    (ha : s.agenda = .host (.write (s.cfg.base + off) .w32 0xF#4 w) :: rest)
    (hx : regAt s.cfg off = .ctrl) (hw : w.getLsbD 1 = true) : s.resetNext := by
  obtain ⟨hctrl, -⟩ := offset_of_regAt (c := s.cfg) (off := off)
  obtain rfl := hctrl hx
  exact .inr ⟨_, ⟨rest, ha⟩, w, hw, rfl⟩

/-- A write to CMD is next (R22). -/
theorem hostNext_cmd {off : Nat} {w : Word} {rest : List Event}
    (ha : s.agenda = .host (.write (s.cfg.base + off) .w32 0xF#4 w) :: rest)
    (hx : regAt s.cfg off = .cmd) : s.hostNext (.write (s.cfg.base + 0x000C) .w32 0xF#4 w) := by
  obtain ⟨-, hcmd, -⟩ := offset_of_regAt (c := s.cfg) (off := off)
  obtain rfl := hcmd hx
  exact ⟨rest, ha⟩

/-! What a served write does to one part of the state. -/

section
variable {w : Word} {x : Reg}

/-- R27, R40: of all writes only the soft reset reaches a result. -/
theorem WriteEffect.results (h : WriteEffect s w x t) :
    x = .ctrl ∧ w.getLsbD 1 = true ∨ t.results = s.results := by
  cases h with
  | softReset hw => exact .inl ⟨rfl, hw⟩
  | _ => exact .inr rfl

theorem WriteEffect.starts_command (h : WriteEffect s w x t) (hidle : s.busy = false) (hbusy : t.busy = true) :
    x = .cmd ∧ t.curCmd = w := by
  cases h with
  | accepted => exact ⟨rfl, rfl⟩
  | softReset => exact absurd hbusy (by simp)
  | _ => exact absurd (hidle.symm.trans hbusy) (by decide)

theorem WriteEffect.sets_ovr (h : WriteEffect s w x t) (hclear : s.ovr = false) (hset : t.ovr = true) :
    s.busy = true ∧ x = .cmd := by
  cases h with
  | refused hb => exact ⟨hb, rfl⟩
  | softReset => exact absurd hset (by simp)
  | cleared => exact absurd hset (by simp [hclear])
  | _ => exact absurd (hclear.symm.trans hset) (by decide)

theorem WriteEffect.sets_wbusy (h : WriteEffect s w x t) (hclear : s.wbusy = false) (hset : t.wbusy = true) :
    s.busy = true ∧ (x = .inLen ∨ ∃ win k, x = .word win k ∧ win ∈ [Window.a, .b, .e, .n, .inBuf]) := by
  cases h with
  | dropped hb hx => exact ⟨hb, hx⟩
  | softReset => exact absurd hset (by simp)
  | cleared => exact absurd hset (by simp [hclear])
  | _ => exact absurd (hclear.symm.trans hset) (by decide)

/-- No write sets DONE (R23). -/
theorem WriteEffect.done_of_done (h : WriteEffect s w x t) (hset : t.done = true) : s.done = true := by
  cases h with
  | softReset => exact absurd hset (by simp)
  | accepted => exact absurd hset (by simp)
  | cleared => exact (Bool.and_eq_true_iff.1 hset).1
  | _ => exact hset

theorem WriteEffect.clears_done (h : WriteEffect s w x t) (hset : s.done = true) (hclear : t.done = false) :
    x = .ctrl ∧ w.getLsbD 1 = true ∨ x = .cmd ∧ s.busy = false ∨ x = .status ∧ w.getLsbD 1 = true := by
  cases h with
  | softReset hw => exact .inl ⟨rfl, hw⟩
  | accepted hb => exact .inr (.inl ⟨rfl, hb⟩)
  | cleared => exact .inr (.inr ⟨rfl, by simpa [hset] using hclear⟩)
  | _ => exact absurd (hset.symm.trans hclear) (by decide)

end

/-- The operand windows, which set WBUSY while busy (R105), by their offsets (R18). -/
theorem operandWindow_offset {c : Config} (hc : c.ok = true) {off k : Nat} {win : Window}
    (hx : regAt c off = .word win k) (hwin : win ∈ [Window.a, .b, .e, .n, .inBuf]) :
    (0x1000 ≤ off ∧ off < 0x5000 ∨ 0x7000 ≤ off ∧ off < 0x8000) ∧ off % 0x1000 < c.maxBytes := by
  obtain ⟨-, hnum, -⟩ := regAt_word hc hx
  refine ⟨?_, regAt_word_offset hx⟩
  have hrange : 1 ≤ win.number ∧ win.number ≤ 4 ∨ win.number = 7 := by
    revert hwin; cases win <;> decide
  omega

/-- Settles O39, by what a step did to R15's state. -/
theorem resultsChangeOnlyByCompletionOrReset : Obligations.ResultsChangeOnlyByCompletionOrReset := by
  intro s t hs hne
  rcases step_arch_cases hs with h | ⟨hb, he, -⟩ | ⟨rest, ha, -⟩ | ⟨off, w, rest, u, ha, hw, rfl⟩
  · exact absurd (congrArg State.results h) hne
  · exact .inl ⟨hb, he⟩
  · exact .inr (.inl ⟨rest, ha⟩)
  · rcases hw.results with ⟨hx, hw⟩ | h
    · exact .inr (resetNext_of_softReset ha hx hw)
    · exact absurd h hne

/-- Settles O41: of all steps only the effect of a write to CMD raises BUSY, and it latches the word written. -/
theorem commandStartsOnlyByCmdWrite : Obligations.CommandStartsOnlyByCmdWrite := by
  intro s t hidle hs hbusy
  rcases step_arch_cases hs with h | ⟨hb, -⟩ | ⟨rest, -, h⟩ | ⟨off, w, rest, u, ha, hw, rfl⟩
  · exact absurd ((congrArg State.busy h).symm.trans hbusy) (by simp [State.arch, hidle])
  · exact absurd (hidle.symm.trans hb) (by decide)
  · exact absurd ((congrArg State.busy h).symm.trans hbusy) (by simp)
  · obtain ⟨hx, hcur⟩ := hw.starts_command hidle hbusy
    rw [State.respond_curCmd, hcur]
    exact hostNext_cmd ha hx

/-- A completion leaves OVR and WBUSY (R62). -/
theorem Completion.hazardBits (h : Completion s t) : t.ovr = s.ovr ∧ t.wbusy = s.wbusy := by
  obtain ⟨code, ht⟩ := h.frame
  rw [ht]
  exact ⟨rfl, rfl⟩

theorem Completion.done (h : Completion s t) : t.done = true := by
  obtain ⟨code, ht⟩ := h.frame
  rw [ht]

/-- A step that sets OVR or WBUSY is a served write to a register that does so. -/
theorem step_sets_hazardBit (hs : step s = .next t)
    (hset : s.ovr = false ∧ t.ovr = true ∨ s.wbusy = false ∧ t.wbusy = true) :
    ∃ off w rest u, s.agenda = .host (.write (s.cfg.base + off) .w32 0xF#4 w) :: rest ∧
      WriteEffect (s.withAgenda rest) w (regAt s.cfg off) u ∧ t = u.respond .written := by
  have hkept : t.ovr = s.ovr ∧ t.wbusy = s.wbusy → False := by
    rintro ⟨ho, hw⟩; simp [ho, hw] at hset
  rcases step_arch_cases hs with h | ⟨-, -, hc⟩ | ⟨rest, -, h⟩ | h
  · exact (hkept ⟨(congrArg State.ovr h :), (congrArg State.wbusy h :)⟩).elim
  · exact (hkept hc.hazardBits).elim
  · have ho : t.ovr = false := congrArg State.ovr h
    have hw : t.wbusy = false := congrArg State.wbusy h
    simp [ho, hw] at hset
  · exact h

/-- Settles O42: the write that sets the bit, and where its register stands. -/
theorem hazardBitsSetOnlyByHazards : Obligations.HazardBitsSetOnlyByHazards := by
  intro s t hc hs
  refine ⟨fun hclear hset => ?_, fun hclear hset => ?_⟩
  · obtain ⟨off, w, rest, u, ha, hw, rfl⟩ := step_sets_hazardBit hs (.inl ⟨hclear, hset⟩)
    obtain ⟨hb, hx⟩ := hw.sets_ovr hclear hset
    exact ⟨hb, w, hostNext_cmd ha hx⟩
  · obtain ⟨off, w, rest, u, ha, hw, rfl⟩ := step_sets_hazardBit hs (.inr ⟨hclear, hset⟩)
    obtain ⟨hb, hx⟩ := hw.sets_wbusy hclear hset
    refine ⟨hb, off, w, ⟨rest, ha⟩, ?_⟩
    rcases hx with hx | ⟨win, k, hx, hwin⟩
    · obtain ⟨-, -, -, hinLen⟩ := offset_of_regAt (c := s.cfg) (off := off)
      exact .inl (hinLen hx)
    · exact .inr (operandWindow_offset hc hx hwin)

/-- Settles O43: a completion always sets DONE and a write never does; the writes that clear it. -/
theorem doneSetOnlyByCompletion : Obligations.DoneSetOnlyByCompletion := by
  intro s t hs
  rcases step_arch_cases hs with h | ⟨hb, he, hc⟩ | ⟨rest, ha, h⟩ | ⟨off, w, rest, u, ha, hw, rfl⟩
  · have hkept : t.done = s.done := (congrArg State.done h :)
    exact ⟨fun h0 h1 => absurd (hkept ▸ h1) (by simp [h0]), fun h0 h1 => absurd (hkept ▸ h1) (by simp [h0])⟩
  · exact ⟨fun _ _ => ⟨hb, he⟩, fun _ h1 => absurd hc.done (by simp [h1])⟩
  · have hclear : t.done = false := congrArg State.done h
    exact ⟨fun _ h1 => absurd h1 (by simp [hclear]), fun _ _ => .inl (.inl ⟨rest, ha⟩)⟩
  · refine ⟨fun h0 h1 => absurd (hw.done_of_done h1) (by simp [h0]), fun h0 h1 => ?_⟩
    rcases hw.clears_done h0 h1 with ⟨hx, hw1⟩ | ⟨hx, hidle⟩ | ⟨hx, hw1⟩
    · exact .inl (resetNext_of_softReset ha hx hw1)
    · exact .inr (.inl ⟨w, hidle, hostNext_cmd ha hx⟩)
    · obtain ⟨-, -, hstatus, -⟩ := offset_of_regAt (c := s.cfg) (off := off)
      obtain rfl := hstatus hx
      exact .inr (.inr ⟨w, hw1, rest, ha⟩)

end Sys2Proof.Machine
end

section
/-! PROOFS. The state's statements: which results each command writes (R54, R62). -/

namespace Sys2Proof.Machine

variable {s t : State}

theorem exec_completion {i : Instr} (h : exec i s = .next t) : Completion s t := by
  obtain ⟨u, hu, hc⟩ := exec_completes i s
  obtain rfl := Host.Outcome.next.inj (hu.symm.trans h)
  exact hc

theorem Completion.inBuf (h : Completion s t) : t.inBuf = s.inBuf := by cases h <;> rfl

theorem exec_nop_results (h : exec .nop s = .next t) : t.results = s.results := by
  obtain rfl := Host.Outcome.next.inj h
  rfl

/-- MODMUL and MODEXP (R69, R75) write at most R. -/
theorem withModulus_setR_frame {v : Nat} (h : s.withModulus (.next ((s.setR v).complete .ok)) = .next t) :
    t.g = s.g ∧ t.outBuf = s.outBuf ∧ t.outLen = s.outLen := by
  rcases withModulus_cases h with ⟨-, rfl⟩ | ⟨-, h⟩
  · exact ⟨rfl, rfl, rfl⟩
  · obtain rfl := Host.Outcome.next.inj h
    exact ⟨rfl, rfl, rfl⟩

/-- MODINV (R71) writes at most R and G. -/
theorem exec_modinv_frame (h : exec .modinv s = .next t) : t.outBuf = s.outBuf ∧ t.outLen = s.outLen := by
  rcases withModulus_cases h with ⟨-, rfl⟩ | ⟨-, h⟩
  · exact ⟨rfl, rfl⟩
  · split at h <;> obtain rfl := Host.Outcome.next.inj h <;> exact ⟨rfl, rfl⟩

/-- The block commands (R79, R80) leave G. -/
theorem withBlockLen_storeBlock_g {limit v : Nat} {x : List Byte}
    (h : s.withModulus (s.withBlockLen limit (.next ((s.storeBlock x v).complete .ok))) = .next t) :
    t.g = s.g := by
  rcases withModulus_cases h with ⟨-, rfl⟩ | ⟨-, h⟩
  · rfl
  · rcases withBlockLen_cases h with ⟨-, rfl⟩ | ⟨-, h⟩
    · rfl
    · obtain rfl := Host.Outcome.next.inj h
      rfl

/-- What the commands that store no block leave of OUT_BUF and OUT_LEN. -/
theorem exec_arithmetic_output {i : Instr} (hi : i = .modmul ∨ i = .modexp ∨ i = .modinv)
    (h : exec i s = .next t) : t.outBuf = s.outBuf ∧ t.outLen = s.outLen := by
  rcases hi with rfl | rfl | rfl
  · exact (withModulus_setR_frame h).2
  · exact (withModulus_setR_frame h).2
  · exact exec_modinv_frame h

/-- Settles O18, command by command. -/
theorem commandsWriteOnlyTheirResults : Obligations.CommandsWriteOnlyTheirResults := by
  intro i s t h
  have hc := exec_completion h
  refine ⟨hc.operands, fun k => by rw [hc.inBuf], ?_, ?_, fun hi => ?_, ?_⟩
  · rintro rfl
    exact exec_nop_results h
  · rintro (rfl | rfl) <;> exact (withModulus_setR_frame h).1
  · obtain ⟨hbuf, hlen⟩ := exec_arithmetic_output hi h
    exact ⟨hlen, fun k => by rw [hbuf]⟩
  · rintro (rfl | rfl) <;> exact withBlockLen_storeBlock_g h

end Sys2Proof.Machine
end

section
/-! PROOFS. The state's statements: the words of the big-integer registers and of IN_BUF, NLEN and the reset
values, as the host reads and writes them (R26, R28, R29, R32). -/

namespace Sys2Proof.Machine

variable {s t : State}

/-- The low `m` digits of a number spell it modulo `B^m`. -/
theorem sum_digits (B x m : Nat) : ((List.range m).map fun k => digit B x k * B ^ k).sum = x % B ^ m := by
  induction m with
  | zero => simp [Nat.mod_one]
  | succ m ih =>
    rw [List.range_succ, List.map_append, List.sum_append, ih, Nat.mod_pow_succ]
    simp [digit, Nat.mul_comm]

/-- R28: a register of `8*MAXBYTES` bits is the sum of its words. -/
theorem sum_bigWords {c : Config} (hc : c.ok = true) {x : Nat} (hx : x < 2 ^ (8 * c.maxBytes)) :
    ((List.range (c.maxBytes / 4)).map fun k => (bigWord x k).toNat * 2 ^ (32 * k)).sum = x := by
  rw [registerBits_eq hc, pow_mul] at hx
  simp only [bigWord_toNat, pow_mul (2 : Nat) 32]
  rw [sum_digits, Nat.mod_eq_of_lt hx]

/-- A read of a window word that draws nothing (R38). -/
theorem answers_window (hi : s.Inv) (win : Window) {k off : Nat} (hk : k < s.cfg.maxBytes / 4)
    (ho : off = 0x1000 * win.number + 4 * k) (hidle : (s.busy && (Reg.word win k).isResult) = false) :
    s.answers off (s.windowWord win k).toNat :=
  answers_of_served hi.config (servedAs_window hi.config win hk ho) hidle rfl

/-- A write of a window word has its effect on the window and completes normally (R39). -/
theorem busWrite_window (hi : s.Inv) (win : Window) {k off : Nat} (hk : k < s.cfg.maxBytes / 4)
    (ho : off = 0x1000 * win.number + 4 * k) {w : Word} (ht : s.writeWindow win k w = t) :
    s.busWrite off w = t.respond .written :=
  busWrite_of_served hi.config (servedAs_window hi.config win hk ho) ht

/-- Settles O27, by the digits of a register in base `2^32`. -/
theorem bigRegisterWords : Obligations.BigRegisterWords := by
  intro s hi
  obtain ⟨ha, hb, he, hn, hr, hg⟩ := hi.registers
  refine ⟨?_, fun x k => by rw [bigWord_toNat, digit, pow_mul], fun k hk => ?_, fun hidle k w hk => ?_⟩
  · have hfit : ∀ x ∈ [s.a, s.b, s.e, s.n, s.r, s.g], x < 2 ^ (8 * s.cfg.maxBytes) := by
      simp [ha, hb, he, hn, hr, hg]
    exact fun x hx => (sum_bigWords hi.config (hfit x hx)).symm
  · refine ⟨answers_window hi .a hk rfl (Bool.and_false _), answers_window hi .b hk rfl (Bool.and_false _),
      answers_window hi .e hk rfl (Bool.and_false _), answers_window hi .n hk rfl (Bool.and_false _),
      fun hidle => ?_⟩
    exact ⟨answers_window hi .r hk rfl (by simp [hidle]), answers_window hi .g hk rfl (by simp [hidle])⟩
  · have hword : ∀ x j, bigWord (setBigWord x k w) j = if j = k then w else bigWord x j :=
      fun x j => bigWord_setBigWord x k j w
    exact ⟨⟨_, busWrite_window (t := { s with a := setBigWord s.a k w }) hi .a hk rfl (writeOperand_idle hidle _),
        hword s.a⟩,
      ⟨_, busWrite_window (t := { s with b := setBigWord s.b k w }) hi .b hk rfl (writeOperand_idle hidle _),
        hword s.b⟩,
      ⟨_, busWrite_window (t := { s with e := setBigWord s.e k w }) hi .e hk rfl (writeOperand_idle hidle _),
        hword s.e⟩,
      ⟨_, busWrite_window (t := { s with n := setBigWord s.n k w }) hi .n hk rfl (writeOperand_idle hidle _),
        hword s.n⟩⟩

/-- R29: byte `j` of a bus word, as a number. -/
theorem wordByte_toNat (w : Word) (j : Nat) : (wordByte w j).toNat = w.toNat / 2 ^ (8 * j) % 2 ^ 8 := by
  rw [wordByte, BitVec.extractLsb'_toNat, Nat.shiftRight_eq_div_pow]

/-- Settles O28, by what a byte of a buffer reads after a word is written. -/
theorem inputBufferWordWrite : Obligations.InputBufferWordWrite := by
  intro s k w hi hidle hk
  obtain ⟨hin, -⟩ := hi.buffers
  refine ⟨_, busWrite_window (t := { s with inBuf := s.inBuf.writeWord k w }) hi .inBuf hk rfl
    (writeOperand_idle hidle _), fun i => ?_⟩
  rw [Memory.read_writeWord hin]
  split
  · exact wordByte_toNat w _
  · rfl

/-- A control or status register is served at its offset (R18). -/
theorem servedAs_control {c : Config} {off : Nat} (ho : off < 0x1000) (ha : off % 4 = 0) :
    ServedAs c off (controlReg off) := ⟨by omega, ha, regAt_control ho⟩

/-- A read of NLEN, idle or busy: the field of 16 bits is wide enough (R26). -/
theorem State.Inv.answers_nlen (hi : s.Inv) : s.answers 0x001C (byteLength s.n) := by
  refine answers_of_served hi.config (servedAs_control (by decide) (by decide)) (Bool.and_false _) ?_
  show (0#16 ++ BitVec.ofNat 16 s.modLen : Word).toNat = s.modLen
  rw [halfWord_toNat, BitVec.toNat_ofNat, Nat.mod_eq_of_lt hi.modLen_lt]

/-- NLEN reads 0 after reset (R26, R32). -/
theorem resetWith_answers_nlen {c : Config} (hc : c.ok = true) : (State.resetWith c).answers 0x001C 0 := by
  have h := (inv_resetWith hc).answers_nlen
  rwa [State.resetWith_n, byteLength_zero] at h

/-- Settles O31: `byteLength` is the least number of bytes that holds N. -/
theorem nlenIsModulusByteLength : Obligations.NlenIsModulusByteLength := fun s hi =>
  ⟨hi.answers_nlen, hi.modLen_le, lt_pow_byteLength s.n, fun k => (byteLength_le_iff s.n k).2,
    fun _ => busWrite_of_served hi.config (servedAs_control (by decide) (by decide)) rfl,
    resetWith_answers_nlen hi.config⟩

/-- What a reset machine answers at a control or status register (R32). -/
theorem resetWith_answers {c : Config} (hc : c.ok = true) {off v : Nat} (ho : off < 0x1000) (ha : off % 4 = 0)
    (hv : ((State.resetWith c).regWord (controlReg off)).toNat = v) : (State.resetWith c).answers off v :=
  answers_of_served hc (servedAs_control ho ha) (Bool.false_and _) hv

/-- R20: PARAM has room for every legal `MAXBYTES`. -/
theorem paramWord_toNat {c : Config} (hc : c.ok = true) : (paramWord c).toNat = c.maxBytes := by
  obtain ⟨-, -, hmax, -⟩ := (config_ok_iff c).1 hc
  rw [paramWord, halfWord_toNat, BitVec.toNat_ofNat, Nat.mod_eq_of_lt (by omega)]

/-- R21: SRST reads 0, IRQ_EN its value. -/
theorem ctrlWord_toNat (s : State) : s.ctrlWord.toNat = s.irqEn.toNat := by
  unfold State.ctrlWord
  cases s.irqEn <;> rfl

/-- R103: the effect of a write of SRST = 1 to CTRL. -/
theorem hostAccess_softReset (hc : s.cfg.ok = true) {x : Access} (hx : x.softResets s.cfg) :
    s.hostAccess x = s.resetState.respond .written := by
  obtain ⟨w, hw, rfl⟩ := hx
  exact busWrite_of_served hc (servedAs_control (by decide) (by decide)) (if_pos hw)

/-- R102, R103: every step that resets gives R32's state. -/
theorem step_arch_of_resetNext (hc : s.cfg.ok = true) (hn : s.resetNext) (hs : step s = .next t) :
    t.arch = State.resetWith s.cfg := by
  rcases hn with ⟨rest, ha⟩ | ⟨x, ⟨rest, ha⟩, hx⟩
  · have hstep : step s = .next ((s.withAgenda rest).resetState.setLine true) := by
      simp [step, nextTurn, takeEvent, ha]
    obtain rfl := Host.Outcome.next.inj (hstep.symm.trans hs)
    rfl
  · rw [step_host ha] at hs
    cases hr : s.rstLine
    · rw [hostTurn_live (s := s.withAgenda rest) hr, hostAccess_softReset (s := s.withAgenda rest) hc hx] at hs
      obtain rfl := Host.Outcome.next.inj hs
      rfl
    · rw [hostTurn_reset (s := s.withAgenda rest) hr] at hs
      cases hs

/-- Settles O35: the values field by field, the answers by the register map, and both resets. -/
theorem resetValues : Obligations.ResetValues := by
  intro c hc
  refine ⟨rfl, rfl, fun i => ⟨rfl, rfl⟩, rfl, rfl, ?_, ?_, ?_, ?_, ?_, ?_, ?_, ?_⟩
  · exact resetWith_answers hc (by decide) (by decide) rfl
  · exact resetWith_answers hc (by decide) (by decide) (paramWord_toNat hc)
  · exact resetWith_answers hc (by decide) (by decide) (ctrlWord_toNat _)
  · exact resetWith_answers hc (by decide) (by decide) (statusWord_toNat _)
  · exact resetWith_answers hc (by decide) (by decide) (halfWord_toNat 0)
  · exact resetWith_answers hc (by decide) (by decide) (halfWord_toNat 0)
  · exact resetWith_answers_nlen hc
  · rintro s t rfl hn hs
    exact step_arch_of_resetNext hc hn hs

end Sys2Proof.Machine
end

section
/-! PROOFS. The bus statements: which accesses are served (R33, R35, R36), and what a read and a write of
every offset do (R37 to R40, R43). -/

namespace Sys2Proof.Machine

variable {s t : State}

/-- Settles O5: the host's turn is at the head, and the reset input's level decides. -/
theorem stepServesHostTransaction : Obligations.StepServesHostTransaction := fun s x rest ha =>
  ⟨fun hr => (step_host ha).trans (hostTurn_live (s := s.withAgenda rest) hr x),
    fun hr => (step_host ha).trans (hostTurn_reset (s := s.withAgenda rest) hr x)⟩

/-- R43: whatever a read's width, alignment and address, it leaves an answer and perhaps a draw. -/
theorem hostAccess_read_frame (s : State) (addr : Nat) (width : AccessWidth) :
    ∃ answer count, s.hostAccess (.read addr width) = { s with resp := answer, draws := count } := by
  rcases hostAccess_effect s (.read addr width) with h | ⟨off, w, t, -, -, hx, -⟩
  · exact h
  · cases hx

/-- Settles O30: the answer and the count of draws are no state of MEE. -/
theorem readsHaveNoSideEffect : Obligations.ReadsHaveNoSideEffect := by
  intro s addr width
  obtain ⟨answer, count, h⟩ := hostAccess_read_frame s addr width
  rw [h]
  exact ⟨rfl, rfl, rfl⟩

/-! ## Which accesses are served -/

/-- R33: the aperture as a range of addresses. -/
theorem inAperture_iff (c : Config) (addr : Nat) :
    inAperture c addr = true ↔ c.base ≤ addr ∧ addr < c.base + 0x10000 := by simp [inAperture]

/-- R6, R36: `MEE_BASE` is word-aligned, so an address is aligned as its offset is. -/
theorem base_add_mod_four {c : Config} (hc : c.ok = true) (off : Nat) : (c.base + off) % 4 = off % 4 := by
  obtain ⟨-, -, -, hb⟩ := (config_ok_iff c).1 hc
  omega

/-- R33: an access outside the aperture is not MEE's. -/
theorem hostAccess_unclaimed {x : Access} (hin : inAperture s.cfg x.addr = false) :
    s.hostAccess x = s.respond .unclaimed := by simp [State.hostAccess, hin]

/-- R35, R36, R90: in the aperture an access of a refused form gets the bus error and has no effect. -/
theorem hostAccess_refused {x : Access} (hin : inAperture s.cfg x.addr = true) (hx : x.accepted = false) :
    s.hostAccess x = s.respond (.busError x.addr) := by simp [State.hostAccess, hin, hx]

/-- R38, R39: every other access is served. -/
theorem hostAccess_served {x : Access} (hin : inAperture s.cfg x.addr = true) (hx : x.accepted = true) :
    s.hostAccess x = s.transact x := by simp [State.hostAccess, hin, hx]

theorem read_accepted_iff (addr : Nat) (width : AccessWidth) :
    (Access.read addr width).accepted = true ↔ width = .w32 ∧ addr % 4 = 0 := by simp [Access.accepted]

theorem write_accepted_iff (addr : Nat) (width : AccessWidth) (lanes : BitVec 4) (w : Word) :
    (Access.write addr width lanes w).accepted = true ↔ width = .w32 ∧ lanes = 0xF#4 ∧ addr % 4 = 0 := by
  simp [Access.accepted, and_assoc]

/-- A served read answers a word, drawn or defined (R38, R106). -/
theorem readReg_resp (s : State) (x : Reg) : ∃ v, (s.readReg x).resp = .data v := by
  rcases readReg_cases s x with ⟨-, -, h⟩ | h <;> exact ⟨_, by rw [h]; rfl⟩

/-- Settles O29: the form of an access alone decides between the bus error and the register map. -/
theorem onlyAlignedWordAccessesAreServed : Obligations.OnlyAlignedWordAccessesAreServed := by
  intro s hc
  refine ⟨fun off ho => ?inside, fun x hout => hostAccess_unclaimed ?outside⟩
  case outside =>
    rw [Bool.eq_false_iff, Ne, inAperture_iff]
    omega
  case inside =>
    have hin : inAperture s.cfg (s.cfg.base + off) = true := (inAperture_iff _ _).2 (by omega)
    have h4 := base_add_mod_four hc off
    refine ⟨fun width hform => hostAccess_refused hin ?_, fun width lanes w hform => hostAccess_refused hin ?_,
      fun ha => ⟨?_, fun w => ?_⟩⟩
    · rw [Bool.eq_false_iff, Ne, read_accepted_iff, h4]
      tauto
    · rw [Bool.eq_false_iff, Ne, write_accepted_iff, h4]
      tauto
    · rw [busRead_eq hc ho ha]
      exact readReg_resp s _
    · rw [busWrite_eq hc ho ha]
      rfl

/-! ## What a read returns -/

/-- A read of a control or status register that is no result, idle or busy (R38). -/
theorem answers_control (hc : s.cfg.ok = true) {off v : Nat} (hv : (s.regWord (controlReg off)).toNat = v)
    (ho : off < 0x1000 := by decide) (ha : off % 4 = 0 := by decide)
    (hx : (controlReg off).isResult = false := by decide) : s.answers off v :=
  answers_of_served hc (servedAs_control ho ha) (by rw [hx, Bool.and_false]) hv

/-- OUT_LEN is a result: it reads its value while idle (R25, R38). -/
theorem answers_outLen (hc : s.cfg.ok = true) (hidle : s.busy = false) : s.answers 0x0018 s.outLen.toNat :=
  answers_of_served hc (servedAs_control (by decide) (by decide)) (by rw [hidle, Bool.false_and])
    (halfWord_toNat s.outLen)

/-- R37: a reserved offset reads 0, idle or busy. -/
theorem answers_reserved (hc : s.cfg.ok = true) {off : Nat} (ho : s.reservedOffset off) : s.answers off 0 :=
  answers_of_served hc (servedAs_reserved ho) (Bool.and_false _) rfl

/-- R28: the value of word `k` of a big-integer register. -/
theorem bigWord_toNat_eq_div (x k : Nat) : (bigWord x k).toNat = x / 2 ^ (32 * k) % 2 ^ 32 := by
  rw [bigWord_toNat, digit, pow_mul]

/-- R29: the value of word `k` of a buffer. -/
theorem readWord_toNat (m : Memory) (k : Nat) : (m.readWord k).toNat =
    (m.read (4 * k)).toNat + 2 ^ 8 * (m.read (4 * k + 1)).toNat + 2 ^ 16 * (m.read (4 * k + 2)).toNat +
      2 ^ 24 * (m.read (4 * k + 3)).toNat := wordOfBytes_toNat _ _ _ _

/-- A window word of known value, read while it is no result or MEE is idle (R38). -/
theorem answers_window_value (hi : s.Inv) (win : Window) {k off v : Nat} (hk : k < s.cfg.maxBytes / 4)
    (ho : off = 0x1000 * win.number + 4 * k) (hidle : (s.busy && (Reg.word win k).isResult) = false)
    (hv : (s.windowWord win k).toNat = v) : s.answers off v :=
  hv ▸ answers_window hi win hk ho hidle

/-- A window of results answers a drawn value while busy (R38, R106). -/
theorem answersDrawn_window (hi : s.Inv) (win : Window) {k off : Nat} (hk : k < s.cfg.maxBytes / 4)
    (ho : off = 0x1000 * win.number + 4 * k) (hb : s.busy = true) (hx : (Reg.word win k).isResult = true) :
    s.answersDrawn off :=
  answersDrawn_of_served hi.config (servedAs_window hi.config win hk ho) hb hx

/-- Settles O23, register by register of the map. -/
theorem hostReadTable : Obligations.HostReadTable := by
  intro s hi
  have hc := hi.config
  refine ⟨?id, ?param, ?ctrl, ?cmd, ?status, ?inLen, hi.answers_nlen, answers_outLen hc, ?outLenDrawn,
    fun k hk => ⟨?a, ?b, ?e, ?n, ?inBuf, fun hidle => ⟨?r, ?g, ?outBuf⟩,
      fun hb => ⟨?rDrawn, ?gDrawn, ?outBufDrawn⟩⟩,
    fun off ho => answers_reserved hc ho⟩
  case id => exact answers_control hc rfl
  case param => exact answers_control hc (paramWord_toNat hc)
  case ctrl => exact answers_control hc (ctrlWord_toNat s)
  case cmd => exact answers_control hc rfl
  case status => exact answers_control hc (statusWord_toNat s)
  case inLen => exact answers_control hc (halfWord_toNat s.inLen)
  case outLenDrawn =>
    exact fun hb => answersDrawn_of_served hc (servedAs_control (by decide) (by decide)) hb rfl
  case a => exact answers_window_value hi .a hk rfl (Bool.and_false _) (bigWord_toNat_eq_div s.a k)
  case b => exact answers_window_value hi .b hk rfl (Bool.and_false _) (bigWord_toNat_eq_div s.b k)
  case e => exact answers_window_value hi .e hk rfl (Bool.and_false _) (bigWord_toNat_eq_div s.e k)
  case n => exact answers_window_value hi .n hk rfl (Bool.and_false _) (bigWord_toNat_eq_div s.n k)
  case inBuf => exact answers_window_value hi .inBuf hk rfl (Bool.and_false _) (readWord_toNat s.inBuf k)
  case r => exact answers_window_value hi .r hk rfl (by simp [hidle]) (bigWord_toNat_eq_div s.r k)
  case g => exact answers_window_value hi .g hk rfl (by simp [hidle]) (bigWord_toNat_eq_div s.g k)
  case outBuf => exact answers_window_value hi .outBuf hk rfl (by simp [hidle]) (readWord_toNat s.outBuf k)
  case rDrawn => exact answersDrawn_window hi .r hk rfl hb rfl
  case gDrawn => exact answersDrawn_window hi .g hk rfl hb rfl
  case outBufDrawn => exact answersDrawn_window hi .outBuf hk rfl hb rfl

/-! ## What a write does -/

/-- A write of a control or status register has its effect and completes normally (R39). -/
theorem busWrite_control (hc : s.cfg.ok = true) (off : Nat) {w : Word}
    (ht : s.effectOfWrite (controlReg off) w = t) (ho : off < 0x1000 := by decide) (ha : off % 4 = 0 := by decide) :
    s.busWrite off w = t.respond .written :=
  busWrite_of_served hc (servedAs_control ho ha) ht

theorem writeCtrl_softReset {w : Word} (hw : w.getLsbD 1 = true) : s.writeCtrl w = s.resetState := if_pos hw

theorem writeCtrl_irqEnable {w : Word} (hw : w.getLsbD 1 = false) :
    s.writeCtrl w = { s with irqEn := w.getLsbD 0 } := if_neg (Bool.eq_false_iff.1 hw)

theorem writeCmd_idle (hidle : s.busy = false) (w : Word) : s.writeCmd w = s.accept w :=
  if_neg (Bool.eq_false_iff.1 hidle)

theorem writeCmd_busy (hb : s.busy = true) (w : Word) : s.writeCmd w = s.refuseCmd := if_pos hb

/-- R40: the read-only registers ignore a write. -/
theorem busWrite_readOnlyControl (hc : s.cfg.ok = true) (w : Word) :
    ∀ off ∈ [0x0000, 0x0004, 0x0018, 0x001C], s.busWrite off w = { s with resp := .written } := by
  simp only [List.forall_mem_cons, List.not_mem_nil, false_imp_iff, implies_true, and_true]
  refine ⟨?_, ?_, ?_, ?_⟩ <;> exact busWrite_control hc _ rfl

/-- R37: a reserved offset ignores a write. -/
theorem busWrite_reserved (hc : s.cfg.ok = true) {off : Nat} (ho : s.reservedOffset off) (w : Word) :
    s.busWrite off w = { s with resp := .written } := busWrite_of_served hc (servedAs_reserved ho) rfl

/-- R105: the words of A, B, E, N and IN_BUF are dropped while busy. -/
theorem writeWindow_busy (hb : s.busy = true) (k : Nat) (w : Word) :
    ∀ win ∈ [Window.a, .b, .e, .n, .inBuf], s.writeWindow win k w = s.dropWrite := by
  simp [State.writeWindow, writeOperand_busy hb]

/-- R40: the windows of R, G and OUT_BUF ignore a write, idle or busy. -/
theorem writeWindow_readOnly (s : State) (k : Nat) (w : Word) :
    ∀ win ∈ [Window.r, .g, .outBuf], s.writeWindow win k w = s := by simp [State.writeWindow]

/-- Settles O24, register by register of the map. -/
theorem hostWriteTable : Obligations.HostWriteTable := by
  intro s w hi
  have hc := hi.config
  refine ⟨busWrite_readOnlyControl hc w, ?irqEnable, ?softReset, ?accepted, ?refused, ?status, ?inLen,
    ?inLenDropped, fun k hk => ⟨fun hidle => ?word, fun hb => ?wordDropped, ?wordReadOnly⟩,
    fun off ho => busWrite_reserved hc ho w⟩
  case irqEnable => exact fun hw => busWrite_control hc 0x0008 (writeCtrl_irqEnable hw)
  case softReset => exact fun hw => busWrite_control hc 0x0008 (writeCtrl_softReset hw)
  case accepted => exact fun hidle => busWrite_control hc 0x000C (writeCmd_idle hidle w)
  case refused => exact fun hb => busWrite_control hc 0x000C (writeCmd_busy hb w)
  case status => exact busWrite_control hc 0x0010 rfl
  case inLen => exact fun hidle => busWrite_control hc 0x0014 (writeOperand_idle hidle _)
  case inLenDropped => exact fun hb => busWrite_control hc 0x0014 (writeOperand_busy hb _)
  case word =>
    exact ⟨busWrite_window hi .a hk rfl (writeOperand_idle hidle _),
      busWrite_window hi .b hk rfl (writeOperand_idle hidle _),
      busWrite_window hi .e hk rfl (writeOperand_idle hidle _),
      busWrite_window hi .n hk rfl (writeOperand_idle hidle _),
      busWrite_window hi .inBuf hk rfl (writeOperand_idle hidle _)⟩
  case wordDropped =>
    show ∀ off ∈ [Window.a, .b, .e, .n, .inBuf].map fun win => 0x1000 * win.number, _
    rw [List.forall_mem_map]
    exact fun win hwin => busWrite_window hi win hk rfl (writeWindow_busy hb k w win hwin)
  case wordReadOnly =>
    show ∀ off ∈ [Window.r, .g, .outBuf].map fun win => 0x1000 * win.number, _
    rw [List.forall_mem_map]
    exact fun win hwin => busWrite_window hi win hk rfl (writeWindow_readOnly s k w win hwin)

/-- Inside a window's range an offset names a word of that window or is reserved (R18, R37). -/
theorem regAt_windowRange (c : Config) {off : Nat} {win : Window} (h : off / 0x1000 = win.number) :
    (∃ k, regAt c off = .word win k) ∨ regAt c off = .reserved := by
  have hnum := window_number_range win
  have hge : ¬ off < 0x1000 := by omega
  simp only [regAt, if_neg hge, h, windowOf_number]
  split
  · exact .inl ⟨_, rfl⟩
  · exact .inr rfl

/-- R40: a write anywhere in the windows of R, G and OUT_BUF is ignored, beyond the capacity too. -/
theorem busWrite_readOnlyWindow (hc : s.cfg.ok = true) {off : Nat} (ha : off % 4 = 0) {win : Window}
    (hwin : win ∈ [Window.r, .g, .outBuf]) (hoff : off / 0x1000 = win.number) (w : Word) :
    s.busWrite off w = { s with resp := .written } := by
  have hlt : off < 0x10000 := by
    have := window_number_range win
    omega
  rcases regAt_windowRange s.cfg hoff with ⟨k, hx⟩ | hx
  · exact busWrite_of_served hc ⟨hlt, ha, hx⟩ (writeWindow_readOnly s k w win hwin)
  · exact busWrite_of_served hc ⟨hlt, ha, hx⟩ rfl

/-- Settles O26: the four registers, and the windows by the number of their range. -/
theorem readOnlyWritesAreIgnored : Obligations.ReadOnlyWritesAreIgnored := by
  intro s off w hc ha hoff
  by_cases hcontrol : off < 0x1000
  · exact busWrite_readOnlyControl hc w off (by simp; omega)
  · have hrange : off / 0x1000 = Window.r.number ∨ off / 0x1000 = Window.g.number ∨
        off / 0x1000 = Window.outBuf.number := by
      simp only [Window.number]
      omega
    rcases hrange with h | h | h <;> exact busWrite_readOnlyWindow hc ha (by decide) h w

/-! ## Reserved bits -/

/-- Two words of one effect on a control or status register write the same. -/
theorem busWrite_control_congr (hc : s.cfg.ok = true) (off : Nat) {v w : Word}
    (h : s.effectOfWrite (controlReg off) v = s.effectOfWrite (controlReg off) w)
    (ho : off < 0x1000 := by decide) (ha : off % 4 = 0 := by decide) : s.busWrite off v = s.busWrite off w :=
  (busWrite_control hc off h ho ha).trans (busWrite_control hc off rfl ho ha).symm

/-- Words that agree below bit `n` agree in each of those bits. -/
theorem getLsbD_eq_of_mod_eq {v w : Word} {n i : Nat} (h : v.toNat % 2 ^ n = w.toNat % 2 ^ n) (hi : i < n) :
    v.getLsbD i = w.getLsbD i := by
  have hbit := congrArg (fun x => x.testBit i) h
  simpa [BitVec.getLsbD, Nat.testBit_mod_two_pow, hi] using hbit

/-- CTRL takes SRST and IRQ_EN of a word (R21). -/
theorem writeCtrl_eq_of_bits {v w : Word} (h0 : v.getLsbD 0 = w.getLsbD 0) (h1 : v.getLsbD 1 = w.getLsbD 1) :
    s.writeCtrl v = s.writeCtrl w := by rw [State.writeCtrl, State.writeCtrl, h0, h1]

/-- STATUS takes its three write-1-to-clear bits of a word (R23). -/
theorem clearStatus_eq_of_bits {v w : Word} (h1 : v.getLsbD 1 = w.getLsbD 1) (h2 : v.getLsbD 2 = w.getLsbD 2)
    (h3 : v.getLsbD 3 = w.getLsbD 3) : s.clearStatus v = s.clearStatus w := by
  rw [State.clearStatus, State.clearStatus, h1, h2, h3]

/-- The field LEN of a word is its low 16 bits (R24). -/
theorem lenField_eq_of_mod_eq {v w : Word} (h : v.toNat % 2 ^ 16 = w.toNat % 2 ^ 16) :
    v.extractLsb' 0 16 = w.extractLsb' 0 16 :=
  BitVec.eq_of_toNat_eq (by simpa [BitVec.extractLsb'_toNat] using h)

/-- The STATUS word has eight bits (R23). -/
theorem statusWord_lt (s : State) : s.statusWord.toNat < 2 ^ 8 := by
  have h0 := s.busy.toNat_lt
  have h1 := s.done.toNat_lt
  have h2 := s.ovr.toNat_lt
  have h3 := s.wbusy.toNat_lt
  have h4 := s.err.isLt
  rw [statusWord_toNat]
  omega

/-- Settles O25: the defined bits alone reach the state, and alone are read. -/
theorem reservedReadZeroWriteIgnored : Obligations.ReservedReadZeroWriteIgnored := by
  intro s hi
  have hc := hi.config
  have hreadOnly : [0x0004, 0x0018] ⊆ [0x0000, 0x0004, 0x0018, 0x001C] := by decide
  refine ⟨fun off ho => ⟨answers_reserved hc ho, busWrite_reserved hc ho⟩,
    fun v w h => ?ctrl, fun v w h => ?status, fun v w h => ?inLen,
    fun off ho w => busWrite_readOnlyControl hc w off (hreadOnly ho),
    ⟨s.cfg.maxBytes, ?paramRead⟩, ⟨s.irqEn.toNat, ?ctrlRead⟩, ⟨s.statusWord.toNat, ?statusRead⟩,
    ⟨s.inLen.toNat, ?inLenRead⟩, fun hidle => ⟨s.outLen.toNat, answers_outLen hc hidle, s.outLen.isLt⟩⟩
  case ctrl =>
    exact busWrite_control_congr hc 0x0008
      (writeCtrl_eq_of_bits (getLsbD_eq_of_mod_eq h (by decide)) (getLsbD_eq_of_mod_eq h (by decide)))
  case status =>
    exact busWrite_control_congr hc 0x0010
      (clearStatus_eq_of_bits (getLsbD_eq_of_mod_eq h (by decide)) (getLsbD_eq_of_mod_eq h (by decide))
        (getLsbD_eq_of_mod_eq h (by decide)))
  case inLen =>
    have hfield : s.effectOfWrite .inLen v = s.effectOfWrite .inLen w := by
      rw [State.effectOfWrite, State.effectOfWrite, lenField_eq_of_mod_eq h]
    exact busWrite_control_congr hc 0x0014 hfield
  case paramRead =>
    obtain ⟨-, -, hmax, -⟩ := (config_ok_iff s.cfg).1 hc
    exact ⟨answers_control hc (paramWord_toNat hc), by omega⟩
  case ctrlRead => exact ⟨answers_control hc (ctrlWord_toNat s), s.irqEn.toNat_lt⟩
  case statusRead => exact ⟨answers_control hc rfl, statusWord_lt s⟩
  case inLenRead =>
    exact ⟨answers_control hc (halfWord_toNat s.inLen), s.inLen.isLt⟩

end Sys2Proof.Machine
end

section
/-! PROOFS. The bus statements: what a host may do while a command is in flight (R42, R46, R105, R106), and that
repeated accesses change nothing more (R43). -/

namespace Sys2Proof.Machine

variable {s t : State}

/-! ## The command in flight -/

/-- R105: while busy of all writes only the soft reset reaches an operand. -/
theorem WriteEffect.operands_of_busy {w : Word} {x : Reg} (h : WriteEffect s w x t) (hb : s.busy = true) :
    x = .ctrl ∧ w.getLsbD 1 = true ∨ t.operands = s.operands := by
  cases h with
  | softReset hw => exact .inl ⟨rfl, hw⟩
  | inLen hidle | wordA hidle | wordB hidle | wordE hidle | wordN hidle | wordIn hidle =>
    exact absurd (hidle.symm.trans hb) (by decide)
  | _ => exact .inr rfl

/-- R60: while busy of all writes only the soft reset ends the command in flight. -/
theorem WriteEffect.command_of_busy {w : Word} {x : Reg} (h : WriteEffect s w x t) (hb : s.busy = true) :
    x = .ctrl ∧ w.getLsbD 1 = true ∨ t.busy = true ∧ t.curCmd = s.curCmd := by
  cases h with
  | softReset hw => exact .inl ⟨rfl, hw⟩
  | accepted hidle => exact absurd (hidle.symm.trans hb) (by decide)
  | _ => exact .inr ⟨hb, rfl⟩

/-- No write touches the reset input. -/
theorem WriteEffect.rstLine {w : Word} {x : Reg} (h : WriteEffect s w x t) : t.rstLine = s.rstLine := by
  cases h <;> rfl

/-- Settles O38, by what a step did to R15's state. -/
theorem operandsStableWhileBusy : Obligations.OperandsStableWhileBusy := by
  intro s t hb hn hs
  rcases step_arch_cases hs with h | ⟨-, -, hc⟩ | ⟨rest, ha, -⟩ | ⟨off, w, rest, u, ha, hw, rfl⟩
  · exact (congrArg State.operands h :)
  · exact hc.operands
  · exact absurd (.inl ⟨rest, ha⟩) hn
  · rcases hw.operands_of_busy hb with ⟨hx, hw1⟩ | h
    · exact absurd (resetNext_of_softReset ha hx hw1) hn
    · exact h

/-- `t` holds the command in flight of `s`, all that its completion reads, and the results it may leave. -/
structure InFlight (s t : State) : Prop where
  busy : t.busy = true
  curCmd : t.curCmd = s.curCmd
  rstLine : t.rstLine = s.rstLine
  cfg : t.cfg = s.cfg
  operands : t.operands = s.operands
  results : t.results = s.results

theorem InFlight.refl (hb : s.busy = true) : InFlight s s := ⟨hb, rfl, rfl, rfl, rfl, rfl⟩

theorem InFlight.trans {u : State} (h : InFlight s t) (h' : InFlight t u) : InFlight s u :=
  ⟨h'.busy, h'.curCmd.trans h.curCmd, h'.rstLine.trans h.rstLine, h'.cfg.trans h.cfg,
    h'.operands.trans h.operands, h'.results.trans h.results⟩

theorem InFlight.withAgenda (h : InFlight s t) (steps : List Event) : InFlight s (t.withAgenda steps) :=
  ⟨h.busy, h.curCmd, h.rstLine, h.cfg, h.operands, h.results⟩

/-- A served write of SRST = 1 to CTRL is a soft reset (R18, R103). -/
theorem softResets_of_regAt {c : Config} {off : Nat} {w : Word} (hx : regAt c off = .ctrl)
    (hw : w.getLsbD 1 = true) : (Access.write (c.base + off) .w32 0xF#4 w).softResets c := by
  obtain ⟨hctrl, -⟩ := offset_of_regAt (c := c) (off := off)
  obtain rfl := hctrl hx
  exact ⟨w, hw, rfl⟩

/-- R42, R60, R105, R106: short of a soft reset no host access disturbs the command in flight. -/
theorem hostAccess_inFlight (hb : s.busy = true) {x : Access} (hx : ¬ x.softResets s.cfg) :
    InFlight s (s.hostAccess x) := by
  rcases hostAccess_effect s x with ⟨answer, count, h⟩ | ⟨off, w, t, -, -, rfl, hw, h⟩
  · rw [h]
    exact ⟨hb, rfl, rfl, rfl, rfl, rfl⟩
  · have hno : ¬ (regAt s.cfg off = .ctrl ∧ w.getLsbD 1 = true) :=
      fun ⟨hr, hw1⟩ => hx (softResets_of_regAt hr hw1)
    obtain ⟨hbusy, hcur⟩ := (hw.command_of_busy hb).resolve_left hno
    rw [h]
    exact ⟨hbusy, hcur, hw.rstLine, hw.cfg_draws.1, (hw.operands_of_busy hb).resolve_left hno,
      hw.results.resolve_left hno⟩

/-- R42: a host's step while the reset input is low, as its transaction and the steps that remain. -/
theorem step_host_live {x : Access} {rest : List Event} (ha : s.agenda = .host x :: rest) (hr : s.rstLine = false) :
    step s = .next ((s.hostAccess x).withAgenda rest) := by
  rw [step_host ha, hostTurn_live (s := s.withAgenda rest) hr, hostAccess_withAgenda]

/-- R46: the machine runs through the host's accesses to a state with the same command in flight. -/
theorem run_hostAccesses_inFlight (xs : List Access) (evs : List Event) (hb : s.busy = true)
    (hr : s.rstLine = false) (ha : s.agenda = xs.map Event.host ++ evs) (hx : ∀ x ∈ xs, ¬ x.softResets s.cfg) :
    ∃ t, InFlight s t ∧ t.agenda = evs ∧
      ∀ k, Host.Core.run Sys2Proof.core (xs.length + k) s = Host.Core.run Sys2Proof.core k t := by
  induction xs generalizing s with
  | nil => exact ⟨s, .refl hb, ha, fun k => by rw [List.length_nil, Nat.zero_add]⟩
  | cons x xs ih =>
    have hin : InFlight s ((s.hostAccess x).withAgenda (xs.map Event.host ++ evs)) :=
      (hostAccess_inFlight hb (hx x List.mem_cons_self)).withAgenda _
    have hstep : step s = .next ((s.hostAccess x).withAgenda (xs.map Event.host ++ evs)) :=
      step_host_live ha hr
    obtain ⟨t, ht, hag, hrun⟩ := ih hin.busy (hin.rstLine.trans hr) rfl fun y hy =>
      hin.cfg ▸ hx y (List.mem_cons_of_mem x hy)
    refine ⟨t, hin.trans ht, hag, fun k => ?_⟩
    rw [List.length_cons, Nat.succ_add, run_succ hstep, hrun]

/-! ## What a completion depends on -/

/-- Both outcomes are next states, with the same results and the same error code. -/
def SameOutcome (o o' : StepResult) : Prop :=
  ∃ t u : State, o = .next t ∧ o' = .next u ∧ t.results = u.results ∧ t.err = u.err

theorem SameOutcome.complete (code : ErrCode) (h : t.results = s.results) :
    SameOutcome (.next (t.complete code)) (.next (s.complete code)) := ⟨_, _, rfl, rfl, h, rfl⟩

/-- R63, check 2, reads N alone. -/
theorem SameOutcome.withModulus {go go' : StepResult} (hn : t.n = s.n) (hr : t.results = s.results)
    (h : SameOutcome go go') : SameOutcome (t.withModulus go) (s.withModulus go') := by
  by_cases h0 : s.n = 0
  · rw [withModulus_zero h0, withModulus_zero (hn.trans h0)]
    exact .complete _ hr
  · rw [withModulus_pos h0, withModulus_pos (hn ▸ h0)]
    exact h

/-- R63, check 3, reads IN_LEN beside the limit. -/
theorem SameOutcome.withBlockLen {go go' : StepResult} (limit : Nat) (hl : t.inLen = s.inLen)
    (hr : t.results = s.results) (h : SameOutcome go go') :
    SameOutcome (t.withBlockLen limit go) (s.withBlockLen limit go') := by
  by_cases h0 : limit < s.inLen.toNat
  · rw [withBlockLen_long h0, withBlockLen_long (hl ▸ h0)]
    exact .complete _ hr
  · rw [withBlockLen_fits (s := t) (by rw [hl]; omega), withBlockLen_fits (s := s) (by omega)]
    exact h

theorem State.results_eq_iff : t.results = s.results ↔
    t.r = s.r ∧ t.g = s.g ∧ t.outBuf = s.outBuf ∧ t.outLen = s.outLen := by simp [State.results]

theorem State.operands_eq_iff : t.operands = s.operands ↔
    t.a = s.a ∧ t.b = s.b ∧ t.e = s.e ∧ t.n = s.n ∧ t.inBuf = s.inBuf ∧ t.inLen = s.inLen := by
  simp [State.operands]

/-- R62: a command's results and code depend on the operands and on the results it leaves alone. -/
theorem exec_sameOutcome (i : Instr) (ho : t.operands = s.operands) (hr : t.results = s.results) :
    SameOutcome (exec i t) (exec i s) := by
  obtain ⟨ha, hb, he, hn, hbuf, hlen⟩ := State.operands_eq_iff.1 ho
  obtain ⟨hrr, hg, hout, hol⟩ := State.results_eq_iff.1 hr
  have hpow : t.blockPow = s.blockPow := by simp only [State.blockPow, State.blockInt, he, hn, hbuf, hlen]
  have hmod : t.modLen = s.modLen := by simp only [State.modLen, hn]
  cases i with
  | nop => exact .complete .ok hr
  | modmul =>
    simp only [exec, execModmul, ha, hb, hn]
    exact .withModulus hn hr (.complete .ok (State.results_eq_iff.2 ⟨rfl, hg, hout, hol⟩))
  | modexp =>
    simp only [exec, execModexp, ha, he, hn]
    exact .withModulus hn hr (.complete .ok (State.results_eq_iff.2 ⟨rfl, hg, hout, hol⟩))
  | modinv =>
    simp only [exec, execModinv, ha, hn]
    refine .withModulus hn hr ?_
    split
    · exact .complete .ok (State.results_eq_iff.2 ⟨rfl, rfl, hout, hol⟩)
    · exact .complete .notCoprime (State.results_eq_iff.2 ⟨hrr, rfl, hout, hol⟩)
  | encBlock =>
    simp only [exec, execEncBlock, hpow, hmod]
    exact .withModulus hn hr (.withBlockLen _ hlen hr
      (.complete .ok (State.results_eq_iff.2 ⟨rfl, hg, rfl, rfl⟩)))
  | decBlock =>
    simp only [exec, execDecBlock, hpow, hmod]
    exact .withModulus hn hr (.withBlockLen _ hlen hr
      (.complete .ok (State.results_eq_iff.2 ⟨rfl, hg, rfl, rfl⟩)))

/-- A completion ends with BUSY = 0 (R62). -/
theorem Completion.idle (h : Completion s t) : t.busy = false := by
  obtain ⟨code, ht⟩ := h.frame
  rw [ht]

/-- Settles O44: the accesses leave the command in flight, and its completion depends on nothing they reach. -/
theorem commandSeesOperandsAtAcceptance : Obligations.CommandSeesOperandsAtAcceptance := by
  intro s i xs rest hb hd hr ha hx
  obtain ⟨v, hv, hag, hrun⟩ := run_hostAccesses_inFlight xs (.engine :: rest) hb hr ha hx
  have hstep : step v = exec i (v.withAgenda v.agenda.tail) :=
    stepRunsDecodedCommand.1 v i hv.busy (.inr ⟨rest, hag⟩) (hv.curCmd ▸ hd)
  obtain ⟨t, u, ht, hu, hres, herr⟩ :=
    exec_sameOutcome (t := v.withAgenda v.agenda.tail) i hv.operands hv.results
  have hc := exec_completion ht
  refine ⟨t, u, ?_, hu, hres, herr, hc.operands.trans hv.operands, hc.idle, hc.done⟩
  rw [hrun, run_succ (hstep.trans ht)]
  rfl

/-! ## The stored results while busy -/

/-- `s` with other stored results. -/
def State.withResults (s : State) (r g : Nat) (out : Memory) (len : Half) : State :=
  { s with r := r, g := g, outBuf := out, outLen := len }

section
variable {r g : Nat} {out : Memory} {len : Half}

/-- R38: only a result's word depends on the stored results. -/
theorem regWord_withResults {x : Reg} (hx : x.isResult = false) :
    (s.withResults r g out len).regWord x = s.regWord x := by
  cases x with
  | word win k =>
    cases win with
    | r | g | outBuf => cases hx
    | _ => rfl
  | outLen => cases hx
  | _ => rfl

/-- A read while busy: the model draws for every result (log entry 4). -/
theorem readReg_withResults (hb : s.busy = true) (x : Reg) :
    (s.withResults r g out len).readReg x = (s.readReg x).withResults r g out len := by
  have hb' : (s.withResults r g out len).busy = true := hb
  cases hx : x.isResult
  · simp only [State.readReg, hx, Bool.and_false, Bool.false_eq_true, if_false, regWord_withResults hx]
    rfl
  · simp only [State.readReg, hx, hb, hb', Bool.and_true, if_true]
    rfl

/-- A write while busy neither reads nor writes the stored results, short of a soft reset. -/
theorem effectOfWrite_withResults (hb : s.busy = true) {x : Reg} {w : Word}
    (hx : x = .ctrl → w.getLsbD 1 = false) :
    (s.withResults r g out len).effectOfWrite x w = (s.effectOfWrite x w).withResults r g out len := by
  have hb' : (s.withResults r g out len).busy = true := hb
  have operand : ∀ u u' : State, (s.withResults r g out len).writeOperand u' =
      (s.writeOperand u).withResults r g out len := fun u u' => by
    rw [writeOperand_busy hb, writeOperand_busy hb']
    rfl
  cases x with
  | ctrl =>
    simp only [State.effectOfWrite, writeCtrl_irqEnable (hx rfl)]
    rfl
  | cmd =>
    simp only [State.effectOfWrite, writeCmd_busy hb, writeCmd_busy hb']
    rfl
  | inLen => exact operand _ _
  | word win k =>
    cases win with
    | r | g | outBuf => rfl
    | _ => exact operand _ _
  | _ => rfl

/-- R38, R39, R106: a host access while busy passes over the stored results, short of a soft reset. -/
theorem hostAccess_withResults (hb : s.busy = true) {x : Access} (hx : ¬ x.softResets s.cfg) :
    (s.withResults r g out len).hostAccess x = (s.hostAccess x).withResults r g out len := by
  have hin : inAperture (s.withResults r g out len).cfg x.addr = inAperture s.cfg x.addr := rfl
  rcases hostAccess_cases s x with ⟨h, e⟩ | ⟨h, ha, e⟩ | ⟨h, ha, e⟩ <;> rw [e]
  · exact hostAccess_unclaimed (hin.trans h)
  · exact hostAccess_refused (hin.trans h) ha
  · rw [hostAccess_served (hin.trans h) ha]
    cases x with
    | read addr width => exact readReg_withResults hb _
    | write addr width lanes w =>
      obtain ⟨rfl, rfl, -⟩ := (write_accepted_iff _ _ _ _).1 ha
      obtain ⟨hlo, -⟩ := (inAperture_iff _ _).1 h
      obtain ⟨off, rfl⟩ := Nat.exists_eq_add_of_le hlo
      have hctrl : regAt s.cfg off = .ctrl → w.getLsbD 1 = false := fun hr =>
        Bool.eq_false_iff.2 fun hw => hx (softResets_of_regAt hr hw)
      rw [← Nat.add_sub_cancel_left s.cfg.base off] at hctrl
      exact congrArg (State.respond · .written) (effectOfWrite_withResults hb hctrl)

end

/-- Settles O45: the soft reset clears the results, and every other access passes over them. -/
theorem busyMachineHidesItsResults : Obligations.BusyMachineHidesItsResults := by
  intro s x r g out len hc hb
  have reset (hx : x.softResets s.cfg) : (s.withResults r g out len).hostAccess x = s.hostAccess x := by
    rw [hostAccess_softReset hc hx, hostAccess_softReset (s := s.withResults r g out len) hc hx]
    rfl
  refine ⟨?_, hostAccess_withResults hb, reset⟩
  show (s.hostAccess x).resp = ((s.withResults r g out len).hostAccess x).resp
  by_cases hx : x.softResets s.cfg
  · rw [reset hx]
  · rw [hostAccess_withResults hb hx]
    rfl

/-! ## Repeated accesses -/

/-- R28: a word written twice is written once. -/
theorem setBigWord_twice (x k : Nat) (w : Word) : setBigWord (setBigWord x k w) k w = setBigWord x k w := by
  have hle : w.toNat * 2 ^ (32 * k) ≤ setBigWord x k w := Nat.le_add_left _ _
  rw [setBigWord.eq_1 (setBigWord x k w), bigWord_setBigWord, if_pos rfl, Nat.sub_add_cancel hle]

/-- R29: a word of a buffer written twice is written once. -/
theorem writeWord_twice {m : Memory} (h : m.wf) (k : Nat) (w : Word) :
    (m.writeWord k w).writeWord k w = m.writeWord k w := by
  have h1 := Memory.wf_writeWord h k w
  refine Memory.ext_read (Memory.wf_writeWord h1 k w) h1 fun i => ?_
  rw [Memory.read_writeWord h1, Memory.read_writeWord h]
  split <;> rfl

/-- R39, R105: an operand write that is taken twice alike is dropped twice alike. -/
theorem writeReg_operand_twice {x : Reg} {w : Word} (f : State → State)
    (hx : ∀ u : State, u.effectOfWrite x w = u.writeOperand (f u)) (hbusy : (f s).busy = s.busy)
    (hf : (f ((f s).respond .written)).respond .written = (f s).respond .written) :
    (s.writeReg x w).writeReg x w = s.writeReg x w := by
  cases hb : s.busy
  · have e : s.writeReg x w = (f s).respond .written := by rw [State.writeReg, hx, writeOperand_idle hb]
    rw [e, State.writeReg, hx, writeOperand_idle (s := (f s).respond .written) (hbusy.trans hb), hf]
  · have e : s.writeReg x w = s.dropWrite.respond .written := by rw [State.writeReg, hx, writeOperand_busy hb]
    rw [e, State.writeReg, hx, writeOperand_busy (s := s.dropWrite.respond .written) hb]
    rfl

/-- R43: every write but one to CMD is idempotent. -/
theorem writeReg_twice (hbuf : s.inBuf.wf) {x : Reg} (hx : x ≠ .cmd) (w : Word) :
    (s.writeReg x w).writeReg x w = s.writeReg x w := by
  cases x with
  | cmd => exact absurd rfl hx
  | ctrl =>
    cases hw : w.getLsbD 1
    · simp only [State.writeReg, State.effectOfWrite, writeCtrl_irqEnable hw]
      rfl
    · simp only [State.writeReg, State.effectOfWrite, writeCtrl_softReset hw]
      rfl
  | status =>
    simp [State.writeReg, State.effectOfWrite, State.clearStatus, State.respond]
  | inLen => exact writeReg_operand_twice (fun u => { u with inLen := w.extractLsb' 0 16 }) (fun _ => rfl) rfl rfl
  | word win k =>
    cases win with
    | a =>
      exact writeReg_operand_twice (fun u => { u with a := setBigWord u.a k w }) (fun _ => rfl) rfl
        (by simp [State.respond, setBigWord_twice])
    | b =>
      exact writeReg_operand_twice (fun u => { u with b := setBigWord u.b k w }) (fun _ => rfl) rfl
        (by simp [State.respond, setBigWord_twice])
    | e =>
      exact writeReg_operand_twice (fun u => { u with e := setBigWord u.e k w }) (fun _ => rfl) rfl
        (by simp [State.respond, setBigWord_twice])
    | n =>
      exact writeReg_operand_twice (fun u => { u with n := setBigWord u.n k w }) (fun _ => rfl) rfl
        (by simp [State.respond, setBigWord_twice])
    | inBuf =>
      exact writeReg_operand_twice (fun u => { u with inBuf := u.inBuf.writeWord k w }) (fun _ => rfl) rfl
        (by simp [State.respond, writeWord_twice hbuf])
    | _ => rfl
  | _ => rfl

theorem writeReg_cfg (s : State) (x : Reg) (w : Word) : (s.writeReg x w).cfg = s.cfg :=
  (effectOfWrite_cases s x w).cfg_draws.1

/-- R38: a read while idle answers the register's word. -/
theorem readReg_idle (hidle : s.busy = false) (x : Reg) : s.readReg x = s.respond (.data (s.regWord x)) := by
  simp [State.readReg, hidle]

/-- The answer to a transaction is in no register. -/
theorem regWord_respond (s : State) (answer : Response) (x : Reg) : (s.respond answer).regWord x = s.regWord x := by
  cases x with
  | word win k => cases win <;> rfl
  | _ => rfl

/-- R43: a read while idle is idempotent. -/
theorem readReg_twice (hidle : s.busy = false) (x : Reg) : (s.readReg x).readReg x = s.readReg x := by
  rw [readReg_idle hidle, readReg_idle (s := s.respond (.data (s.regWord x))) hidle, regWord_respond]
  rfl

/-- Settles O60: each register is written or read twice at one offset. -/
theorem repeatedAccessesChangeNothingMore : Obligations.RepeatedAccessesChangeNothingMore := by
  intro s off hi hoff ha
  have hc := hi.config
  refine ⟨fun hne w => ?_, fun hidle => ?_⟩
  · obtain ⟨hin, -⟩ := hi.buffers
    have hx : regAt s.cfg off ≠ .cmd := fun h => hne (offset_of_regAt.2.1 h)
    have hcfg := writeReg_cfg s (regAt s.cfg off) w
    rw [busWrite_eq hc hoff ha, busWrite_eq (hcfg.symm ▸ hc) hoff ha, hcfg, writeReg_twice hin hx]
  · have hcfg : (s.readReg (regAt s.cfg off)).cfg = s.cfg := by rw [readReg_frame]
    rw [busRead_eq hc hoff ha, busRead_eq (hcfg.symm ▸ hc) hoff ha, hcfg, readReg_twice hidle]

end Sys2Proof.Machine
end

section
/-! PROOFS. The encoding's statements: the opcode map and the command words (R51, R52, R53, R55). -/

namespace Sys2Proof.Machine

variable {s t : State}

/-- A word is its two fields, one above the other (R51). -/
theorem rsvField_append_opcodeField (w : Word) : rsvField w ++ opcodeField w = w := by
  unfold rsvField opcodeField
  exact BitVec.extractLsb'_append_extractLsb'_eq_extractLsb' (by decide) |>.trans (by simp)

theorem encodedWord_statement (i : Instr) : Laws.EncodedWord.Statement i := by
  cases i with
  | nop => exact Laws.EncodedWord.nop
  | modmul => exact Laws.EncodedWord.modmul
  | modexp => exact Laws.EncodedWord.modexp
  | modinv => exact Laws.EncodedWord.modinv
  | encBlock => exact Laws.EncodedWord.encBlock
  | decBlock => exact Laws.EncodedWord.decBlock

/-- Each OPCODE of R52 is assigned to one command. -/
theorem opcodeCommand_eq_some_iff (op : BitVec 4) (i : Instr) : opcodeCommand op = some i ↔ op = opcodeOf i := by
  constructor
  · intro h
    unfold opcodeCommand at h
    split_ifs at h with hop hop hop hop hop hop <;> cases h <;> exact hop
  · rintro rfl
    cases i <;> rfl

theorem decode_ok_iff_fields (w : Word) (i : Instr) :
    decode w = .ok i ↔ rsvField w = 0 ∧ opcodeField w = opcodeOf i := by
  unfold decode
  by_cases hr : rsvField w = 0
  · rw [if_neg (not_not.2 hr), ← opcodeCommand_eq_some_iff]
    cases opcodeCommand (opcodeField w) <;> simp [hr]
  · rw [if_pos hr]
    exact iff_of_false (by simp) fun ⟨hrsv, _⟩ => hr hrsv

theorem decode_encode (i : Instr) : decode (encode i) = .ok i := by
  obtain ⟨-, -, hop, hrsv⟩ := encodedWord_statement i
  exact (decode_ok_iff_fields _ i).2 ⟨hrsv, hop⟩

theorem encode_of_decode {w : Word} {i : Instr} (h : decode w = .ok i) : encode i = w := by
  obtain ⟨hrsv, hop⟩ := (decode_ok_iff_fields w i).1 h
  calc encode i = rsvField w ++ opcodeField w := by rw [hrsv, hop]; rfl
    _ = w := rsvField_append_opcodeField w

/-- Settles O1, by the two fields of a word. -/
theorem decodeEncodeAgree : Obligations.DecodeEncodeAgree := ⟨decode_encode, fun _ _ => encode_of_decode⟩

theorem encode_toNat (i : Instr) : (encode i).toNat = (opcodeOf i).toNat := by cases i <;> rfl

/-- R51, R52: the word of a command is its OPCODE as a number. -/
theorem decode_ok_iff (w : Word) (i : Instr) : decode w = .ok i ↔ w.toNat = (opcodeOf i).toNat := by
  rw [← encode_toNat]
  refine ⟨fun h => congrArg BitVec.toNat (encode_of_decode h).symm, fun h => ?_⟩
  rw [BitVec.eq_of_toNat_eq h, decode_encode]

theorem opcodeOf_le (i : Instr) : (opcodeOf i).toNat ≤ 5 := by cases i <;> decide

/-- R53: a word above the six assigned ones is rejected. -/
theorem decode_rejects {w : Word} (h : 5 < w.toNat) : ∃ e, decode w = .error e := by
  cases hd : decode w with
  | error e => exact ⟨e, rfl⟩
  | ok i =>
    have := (decode_ok_iff w i).1 hd
    have := opcodeOf_le i
    omega

/-- R65: a rejected word in flight completes with ILLEGAL_CMD. -/
theorem engineStep_of_reject {e : Reject} (h : decode s.curCmd = .error e) :
    engineStep s = .next (s.complete .illegalCmd) := by
  simp [engineStep, h, execIllegal]

/-- Settles O2: the words that decode are 0 to 5, and a rejected one completes as R65 says. -/
theorem decodingFollowsTheOpcodeMap : Obligations.DecodingFollowsTheOpcodeMap := by
  refine ⟨fun w => ⟨fun hrsv => decode_rejects (by omega), fun hrsv => ?_⟩, fun s e hb hn hd => ?_,
    fun s w hc hidle => ?_⟩
  · have accepts : ∀ i, w.toNat % 16 = (opcodeOf i).toNat → decode w = .ok i :=
      fun i hop => (decode_ok_iff w i).2 (by omega)
    exact ⟨accepts .nop, accepts .modmul, accepts .modexp, accepts .modinv, accepts .encBlock, accepts .decBlock,
      fun hop => decode_rejects (by omega)⟩
  · calc step s = engineTurn (s.withAgenda s.agenda.tail) := step_engine hn
      _ = engineStep (s.withAgenda s.agenda.tail) := engineTurn_busy hb
      _ = .next ((s.withAgenda s.agenda.tail).complete .illegalCmd) := engineStep_of_reject hd
  · rw [busWrite_control hc 0x000C (writeCmd_idle hidle w)]
    exact ⟨rfl, rfl⟩

/-- Settles O3: the six words are those of the commands, and the reserved ones have a bad field. -/
theorem specWordsDecode : Obligations.SpecWordsDecode :=
  ⟨decode_encode .nop, decode_encode .modmul, decode_encode .modexp, decode_encode .modinv, decode_encode .encBlock,
    decode_encode .decBlock, rfl, rfl, rfl, rfl⟩

end Sys2Proof.Machine
end

section
/-! PROOFS. The encoding's statements: a list of transactions as a run of the machine (R46, R57). -/

namespace Sys2Proof.Machine

variable {s t : State}

/-- A completion leaves the level of the reset input and the last response. -/
theorem Completion.line_resp (h : Completion s t) : t.rstLine = s.rstLine ∧ t.resp = s.resp := by
  obtain ⟨code, ht⟩ := h.frame
  rw [ht]
  exact ⟨rfl, rfl⟩

/-! An agent's step does not look at the steps to come, and leaves them (R46). -/

theorem engineTurn_withAgenda (steps : List Event) (h : engineTurn s = .next t) :
    engineTurn (s.withAgenda steps) = .next (t.withAgenda steps) := by
  cases hb : s.busy
  · rw [engineTurn_idle hb] at h
    obtain rfl := Host.Outcome.next.inj h
    exact engineTurn_idle (s := s.withAgenda steps) hb
  · rw [engineTurn_busy hb] at h
    have hresp : t.resp = s.resp := by
      obtain ⟨u, hu, hc⟩ := engineStep_completes s
      obtain rfl := Host.Outcome.next.inj (hu.symm.trans h)
      exact hc.line_resp.2
    calc engineTurn (s.withAgenda steps) = engineStep (s.withAgenda steps) := engineTurn_busy hb
      _ = .next { t with agenda := steps, resp := s.resp } := engineStep_frame steps s.resp h
      _ = .next (t.withAgenda steps) := by rw [← hresp]; rfl

theorem hostTurn_withAgenda {x : Access} (steps : List Event) (h : hostTurn s x = .next t) :
    hostTurn (s.withAgenda steps) x = .next (t.withAgenda steps) := by
  cases hr : s.rstLine
  · rw [hostTurn_live hr] at h
    obtain rfl := Host.Outcome.next.inj h
    rw [hostTurn_live (s := s.withAgenda steps) hr, hostAccess_withAgenda]
  · rw [hostTurn_reset hr] at h
    cases h

theorem takeEvent_withAgenda {ev : Event} (steps : List Event) (h : takeEvent s ev = .next t) :
    takeEvent (s.withAgenda steps) ev = .next (t.withAgenda steps) := by
  cases ev with
  | host x => exact hostTurn_withAgenda steps h
  | engine => exact engineTurn_withAgenda steps h
  | resetAssert => cases h; rfl
  | resetRelease => cases h; rfl

/-- R46: an event steps the machine alike, alone or with others listed after it. -/
theorem step_withAgenda_cons {ev : Event} (steps : List Event) (h : step (s.withAgenda [ev]) = .next t) :
    step (s.withAgenda (ev :: steps)) = .next (t.withAgenda steps) :=
  takeEvent_withAgenda (s := s.withAgenda []) steps h

/-- The first of the steps played, and the rest (R57). -/
theorem play_cons_some {ev : Event} {evs : List Event} {rs : List Response} (h : play (ev :: evs) s = some (t, rs)) :
    ∃ u us, step (s.withAgenda [ev]) = .next u ∧ play evs u = some (t, us) := by
  unfold play at h
  cases hs : step (s.withAgenda [ev]) with
  | next u =>
    rw [hs] at h
    obtain ⟨⟨t', us⟩, hp, ho⟩ := Option.map_eq_some_iff.1 h
    cases ho
    exact ⟨u, us, rfl, hp⟩
  | fault r => rw [hs] at h; cases h
  | refused r => rw [hs] at h; cases h

theorem run_of_play {ev : Event} {evs : List Event} {rs : List Response} (h : play (ev :: evs) s = some (t, rs)) :
    Host.Core.run Sys2Proof.core (evs.length + 1) (s.withAgenda (ev :: evs)) = .next t := by
  induction evs generalizing s ev rs with
  | nil =>
    obtain ⟨u, us, hs, hu⟩ := play_cons_some h
    cases hu
    exact run_succ hs 0
  | cons ev' evs ih =>
    obtain ⟨u, us, hs, hu⟩ := play_cons_some h
    rw [List.length_cons, run_succ (step_withAgenda_cons (ev' :: evs) hs)]
    exact ih hu

/-- Settles O52, by induction on the list: a step of the machine does not look at the steps to come. -/
theorem playIsARunOfTheMachine : Obligations.PlayIsARunOfTheMachine := by
  intro evs s t answers hne h
  cases evs with
  | nil => exact absurd rfl hne
  | cons ev evs => exact run_of_play h

end Sys2Proof.Machine
end

section
/-! PROOFS. The encoding's statements: `ldbig` loads a big-integer register word by word (R28, R58). -/

namespace Sys2Proof.Machine

variable {s t : State}

/-- The register behind an operand window; 0 for the other windows. -/
def State.operand (s : State) : Window → Nat
  | .a => s.a
  | .b => s.b
  | .e => s.e
  | .n => s.n
  | .r => 0
  | .g => 0
  | .inBuf => 0
  | .outBuf => 0

/-- `s` after host writes that leave `x` in the register behind an operand window. -/
def State.loaded (s : State) (win : Window) (x : Nat) : State :=
  match win with
  | .a => { s with a := x, agenda := [], resp := .written }
  | .b => { s with b := x, agenda := [], resp := .written }
  | .e => { s with e := x, agenda := [], resp := .written }
  | .n => { s with n := x, agenda := [], resp := .written }
  | .r => s
  | .g => s
  | .inBuf => s
  | .outBuf => s

@[simp] theorem State.loaded_cfg (s : State) (win : Window) (x : Nat) : (s.loaded win x).cfg = s.cfg := by
  cases win <;> rfl

@[simp] theorem State.loaded_busy (s : State) (win : Window) (x : Nat) : (s.loaded win x).busy = s.busy := by
  cases win <;> rfl

@[simp] theorem State.loaded_rstLine (s : State) (win : Window) (x : Nat) :
    (s.loaded win x).rstLine = s.rstLine := by cases win <;> rfl

@[simp] theorem State.loaded_loaded (s : State) (win : Window) (x y : Nat) :
    (s.loaded win x).loaded win y = s.loaded win y := by cases win <;> rfl

theorem operand_loaded (s : State) (x : Nat) :
    ∀ win ∈ [Window.a, .b, .e, .n], (s.loaded win x).operand win = x := by simp [State.operand, State.loaded]

theorem writeWindow_idle (hidle : s.busy = false) (k : Nat) (w : Word) : ∀ win ∈ [Window.a, .b, .e, .n],
    ((s.withAgenda []).writeWindow win k w).respond .written =
      s.loaded win (setBigWord (s.operand win) k w) := by
  have hidle' : (s.withAgenda []).busy = false := hidle
  simp only [List.forall_mem_cons, List.not_mem_nil, false_imp_iff, implies_true, and_true, State.writeWindow,
    writeOperand_idle hidle']
  exact ⟨rfl, rfl, rfl, rfl⟩

/-- One word of `ldbig` (R28, R58). -/
theorem play_wr_operand (hc : s.cfg.ok = true) (hr : s.rstLine = false) (hidle : s.busy = false) {win : Window}
    (hw : win ∈ [Window.a, .b, .e, .n]) {k : Nat} (hk : k < s.cfg.maxBytes / 4) (w : Word) :
    play [wr s.cfg (0x1000 * win.number + 4 * k) w] s =
      some (s.loaded win (setBigWord (s.operand win) k w), [.written]) := by
  obtain ⟨ho, ha, hreg⟩ := servedAs_window hc win hk rfl
  rw [play_wr hr hc ho ha, hreg, ← writeWindow_idle hidle k w win hw]
  rfl

/-- The register that held `x`, after its words below `m` are written with those of `v`. -/
def withLowWords (v x : Nat) : Nat → Nat
  | 0 => x
  | m + 1 => setBigWord (withLowWords v x m) m (bigWord v m)

theorem bigWord_withLowWords (v x m k : Nat) :
    bigWord (withLowWords v x m) k = if k < m then bigWord v k else bigWord x k := by
  induction m with
  | zero => rfl
  | succ m ih =>
    rw [withLowWords, bigWord_setBigWord, ih]
    by_cases hk : k = m
    · simp [hk]
    · have hlt : k < m + 1 ↔ k < m := by omega
      simp only [if_neg hk, hlt]

theorem withLowWords_lt (v : Nat) {x m n : Nat} (hx : x < 2 ^ (32 * n)) (hm : m ≤ n) :
    withLowWords v x m < 2 ^ (32 * n) := by
  induction m with
  | zero => exact hx
  | succ m ih => exact setBigWord_lt _ (ih (by omega)) hm

/-- R28: with all its words written the register holds `v`. -/
theorem withLowWords_all {v x n : Nat} (hv : v < 2 ^ (32 * n)) (hx : x < 2 ^ (32 * n)) : withLowWords v x n = v :=
  big_ext (withLowWords_lt v hx le_rfl) hv fun k hk => by rw [bigWord_withLowWords, if_pos hk]

theorem ldbigLow_succ (c : Config) (base v m : Nat) :
    ldbigLow c base v (m + 1) = ldbigLow c base v m ++ [wr c (base + 4 * m) (bigWord v m)] := by
  simp [ldbigLow, List.range_succ]

theorem play_ldbigLow (hc : s.cfg.ok = true) (hr : s.rstLine = false) (hidle : s.busy = false) {win : Window}
    (hw : win ∈ [Window.a, .b, .e, .n]) (v : Nat) {m : Nat} (hm : m < s.cfg.maxBytes / 4) :
    ∃ rs, play (ldbigLow s.cfg (0x1000 * win.number) v (m + 1)) s =
      some (s.loaded win (withLowWords v (s.operand win) (m + 1)), rs) := by
  induction m with
  | zero => exact ⟨_, play_wr_operand hc hr hidle hw hm _⟩
  | succ m ih =>
    obtain ⟨rs, hrs⟩ := ih (by omega)
    have hlast := play_wr_operand (s := s.loaded win (withLowWords v (s.operand win) (m + 1))) (by simpa using hc)
      (by simpa using hr) (by simpa using hidle) hw (by simpa using hm) (bigWord v (m + 1))
    rw [State.loaded_cfg, State.loaded_loaded, operand_loaded _ _ _ hw] at hlast
    rw [ldbigLow_succ]
    exact ⟨_, play_append_eq hrs hlast⟩

/-- `ldbig X, v` for the register behind any operand window (R58). -/
theorem play_ldbig (hc : s.cfg.ok = true) (hr : s.rstLine = false) (hidle : s.busy = false) {win : Window}
    (hw : win ∈ [Window.a, .b, .e, .n]) {v : Nat} (hv : v < 2 ^ (8 * s.cfg.maxBytes))
    (hx : s.operand win < 2 ^ (8 * s.cfg.maxBytes)) :
    ∃ rs, play (ldbig s.cfg (0x1000 * win.number) v) s = some (s.loaded win v, rs) := by
  obtain ⟨-, hmin, -⟩ := (config_ok_iff s.cfg).1 hc
  obtain ⟨m, hm⟩ : ∃ m, s.cfg.maxBytes / 4 = m + 1 := ⟨s.cfg.maxBytes / 4 - 1, by omega⟩
  rw [registerBits_eq hc, hm] at hv hx
  obtain ⟨rs, hrs⟩ := play_ldbigLow hc hr hidle hw v (m := m) (by omega)
  rw [withLowWords_all hv hx] at hrs
  exact ⟨rs, by rw [ldbig, hm, hrs]⟩

/-- Settles O53: `ldbig` writes every word of the register, and a register is fixed by its words. -/
theorem ldbigLoadsRegister : Obligations.LdbigLoadsRegister := by
  intro s v hi hidle hr hv
  obtain ⟨ha, hb, he, hn, -⟩ := hi.registers
  exact ⟨play_ldbig (win := .a) hi.config hr hidle (by decide) hv ha,
    play_ldbig (win := .b) hi.config hr hidle (by decide) hv hb,
    play_ldbig (win := .e) hi.config hr hidle (by decide) hv he,
    play_ldbig (win := .n) hi.config hr hidle (by decide) hv hn⟩

end Sys2Proof.Machine
end

section
/-! PROOFS. The encoding's statements: how `wait` ends (R58, R61, R102, R103, 90_conflicts.md C9). -/

namespace Sys2Proof.Machine

variable {s t : State}

/-! ## The engine's turns before a poll -/

/-- R61: the engine's turns change nothing of an idle machine. -/
theorem play_engines_idle {evs : List Event} (hq : ∀ ev ∈ evs, ev = .engine) (hidle : s.busy = false) :
    ∃ steps, play evs s = some (s.withAgenda steps, []) := by
  induction evs generalizing s with
  | nil => exact ⟨s.agenda, rfl⟩
  | cons ev evs ih =>
    obtain ⟨rfl, hevs⟩ := List.forall_mem_cons.1 hq
    obtain ⟨steps, hp⟩ := ih hevs (s := s.withAgenda []) hidle
    exact ⟨steps, play_append_eq (play_engine_idle hidle) hp⟩

/-- R61: the first of the engine's turns completes the command in flight, and the others change nothing. -/
theorem play_engines_busy {evs : List Event} (hq : ∀ ev ∈ evs, ev = .engine) (hb : s.busy = true) :
    ∃ u steps, play (.engine :: evs) s = some (State.withAgenda u steps, []) ∧
      engineStep (s.withAgenda []) = .next u ∧ Completion (s.withAgenda []) u := by
  obtain ⟨u, hp, hs, hc⟩ := play_engine hb
  obtain ⟨steps, hrest⟩ := play_engines_idle hq hc.idle
  exact ⟨u, steps, play_append_eq hp hrest, hs, hc⟩

/-- Only the model's own fields of a completed state depend on the steps to come and on the last response. -/
theorem engineStep_arch {steps : List Event} {answer : Response}
    (h : engineStep { s with agenda := steps, resp := answer } = .next t) :
    ∃ u, engineStep s = .next u ∧ t.arch = u.arch := by
  obtain ⟨u, hu, -⟩ := engineStep_completes s
  obtain rfl := Host.Outcome.next.inj (h.symm.trans (engineStep_frame steps answer hu))
  exact ⟨u, hu, rfl⟩

/-! ## Where only the engine acts -/

/-- `wait` has ended, from a busy `s`, in `t` after reading `last`: the command in flight has completed. -/
def EndsCompleted (s t : State) (last : Word) : Prop :=
  last.getLsbD 0 = false ∧ last.getLsbD 1 = true ∧ ∃ u, engineStep s = .next u ∧ t.arch = u.arch

/-- A poll leaves the command in flight as it is. -/
theorem EndsCompleted.of_poll {steps : List Event} {answer : Response} {last : Word}
    (h : EndsCompleted { s with agenda := steps, resp := answer } t last) : EndsCompleted s t last := by
  obtain ⟨hbusy, hdone, u, hu, ht⟩ := h
  obtain ⟨u', hu', harch⟩ := engineStep_arch hu
  exact ⟨hbusy, hdone, u', hu', ht.trans harch⟩

/-- What the poll after the completion step reads. -/
theorem Completion.endsCompleted (hc : Completion (s.withAgenda []) t) (hs : engineStep (s.withAgenda []) = .next t)
    (steps : List Event) (answer : Response) :
    EndsCompleted s { t with agenda := steps, resp := answer } t.statusWord := by
  obtain ⟨hbusy, hdone⟩ := statusWord_busy_done t
  obtain ⟨u, hu, harch⟩ := engineStep_arch (answer := s.resp) hs
  exact ⟨hbusy.trans hc.idle, hdone.trans hc.done, u, hu, harch⟩

theorem waitIdle_quiet_idle (hc : s.cfg.ok = true) (hr : s.rstLine = false) (hidle : s.busy = false)
    {others : WaitSteps} (hq : others.quiet) :
    ∃ t last, waitIdle others s = some (t, [last]) ∧ last.getLsbD 0 = false ∧ t.arch = s.arch := by
  have hbit : s.statusWord.getLsbD 0 = false := (statusWord_busy_done s).1.trans hidle
  cases others with
  | nil => exact ⟨_, _, waitIdle_last (play_engine_idle hidle) hr hc, hbit, rfl⟩
  | cons evs others =>
    obtain ⟨steps, hp⟩ := play_engines_idle (hq evs List.mem_cons_self) hidle
    exact ⟨_, _, waitIdle_end hp hr hc hidle others, hbit, rfl⟩

/-- The bus still serves the next poll. -/
theorem Completion.stays_live (h : Completion s t) (hc : s.cfg.ok = true) (hr : s.rstLine = false) :
    t.rstLine = false ∧ t.cfg.ok = true := by
  rw [h.line_resp.1, h.cfg_draws.1]
  exact ⟨hr, hc⟩

/-- A poll after at least one turn of the engine ends the wait. -/
theorem waitIdle_engines (hc : s.cfg.ok = true) (hr : s.rstLine = false) (hb : s.busy = true) {evs : List Event}
    (hq : ∀ ev ∈ evs, ev = .engine) (others : WaitSteps) :
    ∃ t last, waitIdle ((.engine :: evs) :: others) s = some (t, [last]) ∧ EndsCompleted s t last := by
  obtain ⟨u, steps, hp, hs, hcomp⟩ := play_engines_busy hq hb
  obtain ⟨hline, hcfg⟩ := hcomp.stays_live hc hr
  exact ⟨_, _, waitIdle_end hp hline hcfg hcomp.idle others, hcomp.endsCompleted hs _ _⟩

/-- The engine's last turn (R61's fairness) is one listed before the last poll. -/
theorem waitIdle_nil (hc : s.cfg.ok = true) (hr : s.rstLine = false) (hb : s.busy = true) :
    waitIdle [] s = waitIdle [[.engine]] s := by
  obtain ⟨u, hp, -, hcomp⟩ := play_engine hb
  obtain ⟨hline, hcfg⟩ := hcomp.stays_live hc hr
  rw [waitIdle_last hp hline hcfg, waitIdle_end hp hline hcfg hcomp.idle]

theorem waitIdle_quiet_busy (hc : s.cfg.ok = true) (hr : s.rstLine = false) (hb : s.busy = true)
    {others : WaitSteps} (hq : others.quiet) :
    ∃ t ws last, waitIdle others s = some (t, ws ++ [last]) ∧ (∀ w ∈ ws, w.getLsbD 0 = true) ∧
      EndsCompleted s t last := by
  induction others generalizing s with
  | nil =>
    obtain ⟨t, last, hw, hend⟩ := waitIdle_engines hc hr hb (evs := []) (by simp) []
    exact ⟨t, [], last, (waitIdle_nil hc hr hb).trans hw, by simp, hend⟩
  | cons evs others ih =>
    obtain ⟨hevs, hothers⟩ := List.forall_mem_cons.1 hq
    cases evs with
    | nil =>
      obtain ⟨t, ws, last, hw, hws, hend⟩ :=
        ih (s := { s with agenda := [], resp := .data s.statusWord }) hc hr hb hothers
      refine ⟨t, s.statusWord :: ws, last, ?_, ?_, hend.of_poll⟩
      · rw [waitIdle_poll (play_nil s) hr hc hb, hw]
        rfl
      · exact List.forall_mem_cons.2 ⟨(statusWord_busy_done s).1.trans hb, hws⟩
    | cons ev evs =>
      obtain ⟨rfl, hrest⟩ := List.forall_mem_cons.1 hevs
      obtain ⟨t, last, hw, hend⟩ := waitIdle_engines hc hr hb hrest others
      exact ⟨t, [], last, hw, by simp, hend⟩

/-! ## Any number of polls -/

/-- R61: `j` polls with nothing before them read BUSY = 1 and leave the rest of the wait to come. -/
theorem waitIdle_replicate (hc : s.cfg.ok = true) (hr : s.rstLine = false) (hb : s.busy = true) (j : Nat)
    (others : WaitSteps) :
    ∃ steps answer, waitIdle (List.replicate j [] ++ others) s =
      (waitIdle others { s with agenda := steps, resp := answer }).map fun out =>
        (out.1, List.replicate j s.statusWord ++ out.2) := by
  induction j generalizing s with
  | zero => exact ⟨s.agenda, s.resp, by simp⟩
  | succ j ih =>
    obtain ⟨steps, answer, hw⟩ := ih (s := { s with agenda := [], resp := .data s.statusWord }) hc hr hb
    refine ⟨steps, answer, ?_⟩
    rw [List.replicate_succ, List.cons_append, waitIdle_poll (play_nil s) hr hc hb, hw, Option.map_map]
    rfl

/-- R102, R103: a hardware reset, or another bus master's soft reset, gives the reset state. -/
theorem play_resets (hc : s.cfg.ok = true) (hr : s.rstLine = false) :
    ∀ evs ∈ [[Event.resetAssert, Event.resetRelease], [wr s.cfg 0x0008 0x2#32]],
      ∃ t rs, play evs s = some (t, rs) ∧ t.rstLine = false ∧ t.arch = State.resetWith s.cfg := by
  simp only [List.forall_mem_cons, List.not_mem_nil, false_imp_iff, implies_true, and_true]
  refine ⟨⟨_, _, play_reset s, rfl, rfl⟩, ⟨_, _, play_wr hr hc (by decide) (by decide) _, ?_⟩⟩
  obtain ⟨-, -, hctrl, -⟩ := regAt_controls s.cfg
  have hsoft : (s.withAgenda []).effectOfWrite .ctrl 0x2#32 = (s.withAgenda []).resetState :=
    writeCtrl_softReset (by decide)
  rw [hctrl, State.writeReg, hsoft]
  exact ⟨hr, rfl⟩

/-- R32: STATUS reads 0 after a reset. -/
theorem resetWith_statusWord (c : Config) : (State.resetWith c).statusWord = 0 :=
  BitVec.eq_of_toNat_eq (statusWord_toNat _)

/-- 90_conflicts.md C9: the poll after a reset ends the wait and reads 0. -/
theorem waitIdle_reset {evs : List Event} {rs : List Response} (hp : play evs s = some (t, rs))
    (hr : t.rstLine = false) (hc : s.cfg.ok = true) (ht : t.arch = State.resetWith s.cfg) (others : WaitSteps) :
    ∃ u, waitIdle (evs :: others) s = some (u, [0]) ∧ u.arch = State.resetWith s.cfg := by
  have hcfg : t.cfg = s.cfg := (congrArg State.cfg ht :)
  have hidle : t.busy = false := (congrArg State.busy ht :)
  have hstatus : t.statusWord = 0 := (congrArg State.statusWord ht).trans (resetWith_statusWord s.cfg)
  refine ⟨{ t with agenda := [], resp := .data t.statusWord }, ?_, ht⟩
  rw [waitIdle_end hp hr (by rw [hcfg]; exact hc) hidle, hstatus]

/-- Settles O54: by induction on the polls where only the engine acts, and for a given number of polls by
what stands before the next one. -/
theorem waitEndsAfterCompletion : Obligations.WaitEndsAfterCompletion := by
  intro s hi hr
  have hc := hi.config
  refine ⟨fun others hq => ?_, fun hb j others => ⟨?_, fun evs hevs => ?_⟩⟩
  · cases hbusy : s.busy
    · obtain ⟨t, last, hw, hlast, ht⟩ := waitIdle_quiet_idle hc hr hbusy hq
      exact ⟨t, [], last, hw, by simp, hlast, fun _ => ⟨rfl, ht⟩, fun h => absurd h (by decide)⟩
    · obtain ⟨t, ws, last, hw, hws, hlast, hend⟩ := waitIdle_quiet_busy hc hr hbusy hq
      exact ⟨t, ws, last, hw, hws, hlast, fun h => absurd h (by decide), fun _ => hend⟩
  · obtain ⟨steps, answer, hpolls⟩ := waitIdle_replicate hc hr hb j ([.engine] :: others)
    obtain ⟨t, last, hw, -⟩ := waitIdle_engines (s := { s with agenda := steps, resp := answer }) hc hr hb
      (evs := []) (by simp) others
    exact ⟨t, List.replicate j s.statusWord, last, by rw [hpolls, hw]; rfl, List.length_replicate⟩
  · obtain ⟨steps, answer, hpolls⟩ := waitIdle_replicate hc hr hb j (evs :: others)
    obtain ⟨t, rs, hp, hline, ht⟩ := play_resets (s := { s with agenda := steps, resp := answer }) hc hr evs hevs
    obtain ⟨u, hw, hu⟩ := waitIdle_reset hp hline hc ht others
    refine ⟨u, List.replicate j s.statusWord, by rw [hpolls, hw]; rfl, List.length_replicate, fun w hws => ?_, hu⟩
    rw [List.eq_of_mem_replicate hws]
    exact (statusWord_busy_done s).1.trans hb

end Sys2Proof.Machine
end

section
/-! PROOFS. The commands' statements: acceptance and refusal of a command word (R59, R60), and what a
completion step checks and writes (R61 to R65). -/

namespace Sys2Proof.Machine

variable {s t : State}

/-! ## A write to CMD -/

/-- R22, R39: the step that serves a host write of `w` to CMD. -/
theorem step_cmdWrite {rest : List Event} {w : Word} (hc : s.cfg.ok = true) (hr : s.rstLine = false)
    (ha : s.agenda = .host (.write (s.cfg.base + 0x000C) .w32 0xF#4 w) :: rest) :
    step s = .next (((s.withAgenda rest).writeCmd w).respond .written) := by
  obtain ⟨live, -⟩ := stepServesHostTransaction s _ rest ha
  have hserved : (s.withAgenda rest).busWrite 0x000C w = ((s.withAgenda rest).writeCmd w).respond .written :=
    busWrite_control (s := s.withAgenda rest) hc 0x000C rfl
  exact (live hr).trans (congrArg Host.Outcome.next hserved)

/-- Both outcomes are next states, the second that of the first with OVR = 1 (R60). -/
def SameButOvr (o o' : StepResult) : Prop := ∃ t : State, o = .next t ∧ o' = .next t.refuseCmd

theorem SameButOvr.next (t : State) : SameButOvr (.next t) (.next t.refuseCmd) := ⟨t, rfl, rfl⟩

/-- R63, check 2, does not read OVR. -/
theorem SameButOvr.withModulus {go go' : StepResult} (h : SameButOvr go go') :
    SameButOvr (s.withModulus go) (s.refuseCmd.withModulus go') := by
  by_cases h0 : s.n = 0
  · rw [withModulus_zero h0, withModulus_zero (s := s.refuseCmd) h0]
    exact .next _
  · rwa [withModulus_pos h0, withModulus_pos (s := s.refuseCmd) h0]

/-- R63, check 3, does not read OVR. -/
theorem SameButOvr.withBlockLen {limit : Nat} {go go' : StepResult} (h : SameButOvr go go') :
    SameButOvr (s.withBlockLen limit go) (s.refuseCmd.withBlockLen limit go') := by
  by_cases h0 : limit < s.inLen.toNat
  · rw [withBlockLen_long h0, withBlockLen_long (s := s.refuseCmd) h0]
    exact .next _
  · rwa [withBlockLen_fits (Nat.not_lt.1 h0), withBlockLen_fits (s := s.refuseCmd) (Nat.not_lt.1 h0)]

/-- R60: no command reads OVR, and every completion keeps it. -/
theorem exec_sameButOvr (i : Instr) (s : State) : SameButOvr (exec i s) (exec i s.refuseCmd) := by
  cases i with
  | nop => exact .next (s.complete .ok)
  | modmul => exact .withModulus (.next ((s.setR _).complete .ok))
  | modexp => exact .withModulus (.next ((s.setR _).complete .ok))
  | modinv =>
    refine .withModulus ?_
    by_cases hg : Nat.gcd s.a s.n = 1
    · rw [if_pos hg, if_pos (show Nat.gcd s.refuseCmd.a s.refuseCmd.n = 1 from hg)]
      exact .next (((s.setR _).setG 1).complete .ok)
    · rw [if_neg hg, if_neg (show ¬ Nat.gcd s.refuseCmd.a s.refuseCmd.n = 1 from hg)]
      exact .next ((s.setG _).complete .notCoprime)
  | encBlock => exact .withModulus (.withBlockLen (.next ((s.storeBlock _ _).complete .ok)))
  | decBlock => exact .withModulus (.withBlockLen (.next ((s.storeBlock _ _).complete .ok)))

/-- Settles O8: a CMD write while busy is `refuseCmd`, and no completion reads OVR. -/
theorem cmdWriteWhileBusyIsRefused : Obligations.CmdWriteWhileBusyIsRefused := by
  refine ⟨fun s rest w hc hr hb ha => ?_, exec_sameButOvr⟩
  rw [step_cmdWrite hc hr ha, writeCmd_busy (s := s.withAgenda rest) hb]
  rfl

/-! ## The completion step -/

/-- R61: with a command in flight the engine's turn is the completion step. -/
theorem step_engine_busy (hb : s.busy = true) (he : s.engineNext) :
    step s = engineStep (s.withAgenda s.agenda.tail) :=
  (step_engine he).trans (engineTurn_busy (s := s.withAgenda s.agenda.tail) hb)

/-- R62: the code of a completion, and what it writes for that code. -/
theorem Completion.completesWith (h : Completion s t) : ∃ code, s.completesWith t code := by
  cases h with
  | plain code hc => exact ⟨code, rfl, fun _ => ⟨rfl, rfl, rfl⟩, fun _ _ => rfl, fun h => absurd h hc⟩
  | notCoprime => exact ⟨.notCoprime, rfl, fun _ => ⟨rfl, rfl, rfl⟩, fun _ h => absurd rfl h, fun _ => rfl⟩
  | product | inverse | block =>
    exact ⟨.ok, rfl, fun h => absurd rfl h, fun h => absurd rfl h, fun h => by cases h⟩

/-- Settles O9: every command and every engine's turn while busy ends in a `Completion`. -/
theorem completionChangesOnlyResultsAndStatus : Obligations.CompletionChangesOnlyResultsAndStatus := by
  refine ⟨fun i s => ?_, fun s hb he => ?_⟩
  · obtain ⟨t, hexec, hc⟩ := exec_completes i s
    obtain ⟨code, hcode⟩ := hc.completesWith
    exact ⟨t, code, hexec, hcode⟩
  · obtain ⟨t, hstep, hc⟩ := engineStep_completes (s.withAgenda s.agenda.tail)
    obtain ⟨code, hcode⟩ := hc.completesWith
    exact ⟨t, code, (step_engine_busy hb he).trans hstep, hcode⟩

/-- R63: the code of the first of the checks 2 to 4 that fails, or OK. -/
def completionCode (i : Instr) (s : State) : ErrCode :=
  if i ≠ .nop ∧ s.n = 0 then .modulusZero
  else if i = .encBlock ∧ s.modLen - 1 < s.inLen.toNat ∨ i = .decBlock ∧ s.modLen < s.inLen.toNat then .length
  else if i = .modinv ∧ Nat.gcd s.a s.n ≠ 1 then .notCoprime
  else .ok

/-- The outcome is a next state with this error code. -/
def EndsWithCode (o : StepResult) (code : ErrCode) : Prop := ∃ t : State, o = .next t ∧ t.err = code.bits

theorem EndsWithCode.complete (s : State) (code : ErrCode) : EndsWithCode (.next (s.complete code)) code :=
  ⟨_, rfl, rfl⟩

theorem EndsWithCode.withModulus {go : StepResult} {code : ErrCode} (h : EndsWithCode go code) :
    EndsWithCode (s.withModulus go) (if s.n = 0 then .modulusZero else code) := by
  by_cases h0 : s.n = 0
  · rw [withModulus_zero h0, if_pos h0]
    exact .complete s _
  · rwa [withModulus_pos h0, if_neg h0]

theorem EndsWithCode.withBlockLen {limit : Nat} {go : StepResult} {code : ErrCode} (h : EndsWithCode go code) :
    EndsWithCode (s.withBlockLen limit go) (if limit < s.inLen.toNat then .length else code) := by
  by_cases h0 : limit < s.inLen.toNat
  · rw [withBlockLen_long h0, if_pos h0]
    exact .complete s _
  · rwa [withBlockLen_fits (Nat.not_lt.1 h0), if_neg h0]

/-- R63: every command makes the checks that name it, in their order, and no other. -/
theorem exec_endsWithCode (i : Instr) (s : State) : EndsWithCode (exec i s) (completionCode i s) := by
  cases i with
  | nop => simpa [completionCode, exec, execNop] using EndsWithCode.complete s .ok
  | modmul => simpa [completionCode, exec, execModmul] using (EndsWithCode.complete (s.setR _) .ok).withModulus (s := s)
  | modexp => simpa [completionCode, exec, execModexp] using (EndsWithCode.complete (s.setR _) .ok).withModulus (s := s)
  | modinv =>
    have coprime : EndsWithCode
        (if Nat.gcd s.a s.n = 1 then .next (((s.setR (modInv s.a s.n)).setG 1).complete .ok)
          else .next ((s.setG (Nat.gcd s.a s.n)).complete .notCoprime))
        (if Nat.gcd s.a s.n = 1 then .ok else .notCoprime) := by
      split
      · exact .complete _ _
      · exact .complete _ _
    simpa [completionCode, exec, execModinv] using coprime.withModulus (s := s)
  | encBlock =>
    simpa [completionCode, exec, execEncBlock] using
      ((EndsWithCode.complete (s.storeBlock _ _) .ok).withBlockLen (s := s)).withModulus (s := s)
  | decBlock =>
    simpa [completionCode, exec, execDecBlock] using
      ((EndsWithCode.complete (s.storeBlock _ _) .ok).withBlockLen (s := s)).withModulus (s := s)

/-- R52: the conditions of R63's table on the command word, as conditions on the decoded command. -/
theorem opcodeOf_toNat_iff (i : Instr) :
    (1 ≤ (opcodeOf i).toNat ↔ i ≠ .nop) ∧ ((opcodeOf i).toNat = 3 ↔ i = .modinv) ∧
      ((opcodeOf i).toNat = 4 ↔ i = .encBlock) ∧ ((opcodeOf i).toNat = 5 ↔ i = .decBlock) := by
  cases i <;> decide

/-- R53: the words below 6 decode. -/
theorem decode_accepts {w : Word} (h : w.toNat < 6) : ∃ i, decode w = .ok i := by
  have hop : ∃ i, w.toNat = (opcodeOf i).toNat := by
    revert h
    generalize w.toNat = v
    intro h
    interval_cases v
    exacts [⟨.nop, rfl⟩, ⟨.modmul, rfl⟩, ⟨.modexp, rfl⟩, ⟨.modinv, rfl⟩, ⟨.encBlock, rfl⟩, ⟨.decBlock, rfl⟩]
  obtain ⟨i, hi⟩ := hop
  exact ⟨i, (decode_ok_iff w i).2 hi⟩

/-- R65: a word of 6 or more in flight completes with ILLEGAL_CMD and no other effect. -/
theorem step_reserved (hb : s.busy = true) (he : s.engineNext) (hw : 6 ≤ s.curCmd.toNat) :
    step s = .next ((s.withAgenda s.agenda.tail).complete .illegalCmd) := by
  obtain ⟨e, hd⟩ := decode_rejects hw
  exact (step_engine_busy hb he).trans (engineStep_of_reject (s := s.withAgenda s.agenda.tail) hd)

/-- Settles O10: a word of 6 or more fails check 1, and any other decodes to a command that makes the rest. -/
theorem completionChecksInOrder : Obligations.CompletionChecksInOrder := by
  intro s hb he
  by_cases hw : 6 ≤ s.curCmd.toNat
  · exact ⟨_, step_reserved hb he hw, by rw [if_pos hw]; rfl⟩
  · obtain ⟨i, hd⟩ := decode_accepts (Nat.not_le.1 hw)
    obtain ⟨t, hexec, herr⟩ := exec_endsWithCode i (s.withAgenda s.agenda.tail)
    have hstep : step s = exec i (s.withAgenda s.agenda.tail) := stepRunsDecodedCommand.1 s i hb he hd
    obtain ⟨hnop, hinv, henc, hdec⟩ := opcodeOf_toNat_iff i
    refine ⟨t, hstep.trans hexec, ?_⟩
    rw [if_neg hw, herr, (decode_ok_iff s.curCmd i).1 hd, completionCode]
    simp only [hnop, hinv, henc, hdec, apply_ite ErrCode.bits, apply_ite BitVec.toNat]
    rfl

/-- Settles O12: the reserved words are those of 6 or more. -/
theorem reservedWordCompletesIllegal : Obligations.ReservedWordCompletesIllegal :=
  fun _ hb he hw => step_reserved hb he (by omega)

/-! ## The command in flight, acceptance and NOP -/

/-- Settles O40, by what a step did to R15's state. -/
theorem commandInFlightStays : Obligations.CommandInFlightStays := by
  intro s t hb he hn hs
  rcases step_arch_cases hs with h | ⟨-, henext, -⟩ | ⟨rest, ha, -⟩ | ⟨off, w, rest, u, ha, hw, rfl⟩
  · have hbusy : t.busy = s.busy := (congrArg State.busy h :)
    exact ⟨hbusy.trans hb, (congrArg State.curCmd h :)⟩
  · exact absurd henext he
  · exact absurd (.inl ⟨rest, ha⟩) hn
  · rcases hw.command_of_busy hb with ⟨hx, hw1⟩ | h
    · exact absurd (resetNext_of_softReset ha hx hw1) hn
    · exact h

/-- Settles O7: a CMD write while idle is `accept`. -/
theorem cmdWriteWhileIdleStartsCommand : Obligations.CmdWriteWhileIdleStartsCommand := by
  intro s rest w hc hr hidle ha
  rw [step_cmdWrite hc hr ha, writeCmd_idle (s := s.withAgenda rest) hidle]
  rfl

/-- Settles O11: NOP is `complete(OK)` alone, which overwrites what acceptance did but for CUR_CMD. -/
theorem nopCompletes : Obligations.NopCompletes := by
  refine ⟨decode_encode .nop, fun s => rfl, fun s hidle => ?_⟩
  rw [writeCmd_idle hidle]
  rfl

end Sys2Proof.Machine
end

section
/-! PROOFS. The modular commands' statements: MODEXP (R69), and operands that are not residues (R68, R71). -/

namespace Sys2Proof.Machine

variable {s : State}

/-! ## The modular commands -/

/-- R63, check 2: every command but NOP needs a modulus. -/
theorem exec_of_modulus_zero {i : Instr} (hi : i ≠ .nop) (h : s.n = 0) :
    exec i s = .next (s.complete .modulusZero) := by
  cases i with
  | nop => exact absurd rfl hi
  | modmul | modexp | modinv | encBlock | decBlock => exact withModulus_zero h _

theorem exec_modmul (h : s.n ≠ 0) : exec .modmul s = .next ((s.setR (s.a * s.b % s.n)).complete .ok) :=
  withModulus_pos h _

theorem exec_modexp (h : s.n ≠ 0) : exec .modexp s = .next ((s.setR (s.a ^ s.e % s.n)).complete .ok) := by
  rw [← modPow_eq h]
  exact withModulus_pos h _

theorem exec_modinv_coprime (h : s.n ≠ 0) (hg : Nat.gcd s.a s.n = 1) :
    exec .modinv s = .next (((s.setR (modInv s.a s.n)).setG 1).complete .ok) :=
  (withModulus_pos h _).trans (if_pos hg)

/-- Settles O14: square-and-multiply is exponentiation. -/
theorem modexpResult : Obligations.ModexpResult :=
  ⟨decode_encode .modexp, fun _ => ⟨exec_of_modulus_zero (by decide), exec_modexp⟩⟩

/-! ## Operands that are not residues -/

theorem gcd_mod_left (a n : Nat) : Nat.gcd (a % n) n = Nat.gcd a n := by
  rw [← Nat.gcd_rec, Nat.gcd_comm]

/-- R68, R71: the inverse depends on the residue alone, since it is unique in `[0, n)`. -/
theorem modInv_mod {a n : Nat} (hn : n ≠ 0) (hg : Nat.gcd a n = 1) : modInv (a % n) n = modInv a n := by
  obtain ⟨hlt, hinv⟩ := modInv_spec hn hg
  obtain ⟨hlt', hinv'⟩ := modInv_spec hn ((gcd_mod_left a n).trans hg)
  rw [Nat.mod_mul_mod] at hinv'
  exact inverse_unique hg hlt' hlt hinv' hinv

/-- Settles O19: product, power and inverse depend on the operands' residues alone. -/
theorem unreducedOperandsGiveTheSameResult : Obligations.UnreducedOperandsGiveTheSameResult := by
  intro s hn
  have hpos : 0 < s.n := Nat.pos_of_ne_zero hn
  refine ⟨⟨_, _, exec_modmul hn, exec_modmul (s := { s with a := s.a % s.n, b := s.b % s.n }) hn, ?_, ?_⟩,
    ⟨_, _, exec_modexp hn, exec_modexp (s := { s with a := s.a % s.n }) hn, ?_, ?_⟩, fun hg =>
    ⟨_, _, exec_modinv_coprime hn hg, exec_modinv_coprime (s := { s with a := s.a % s.n }) hn
      ((gcd_mod_left _ _).trans hg), ?_, ?_, rfl, rfl⟩⟩
  · exact Nat.mul_mod s.a s.b s.n
  · exact Nat.mod_lt _ hpos
  · exact Nat.pow_mod s.a s.e s.n
  · exact Nat.mod_lt _ hpos
  · exact (modInv_mod hn hg).symm
  · exact (modInv_spec hn hg).1

end Sys2Proof.Machine
end

section
/-! PROOFS. The reference algorithms' statements: square-and-multiply over the Barrett multiplier (R70, R76).

Below, `p = 2^(k-1)` for `k = bitlen(n)`, so that `p <= n < 2p`, `2^(k+1) = 4p` and `4^k = 4p^2`. -/

namespace Sys2Proof.Machine

/-- R76: `times` subtractions are enough for a remainder below `(times + 1) * n`. -/
theorem subtractWhile_eq_mod {n times r : Nat} (h : r < (times + 1) * n) : subtractWhile n times r = r % n := by
  induction times generalizing r with
  | zero =>
    rw [Nat.zero_add, Nat.one_mul] at h
    exact (Nat.mod_eq_of_lt h).symm
  | succ times ih =>
    rw [subtractWhile]
    split
    · next hle =>
      rw [ih (by rw [Nat.succ_mul] at h; omega), ← Nat.mod_eq_sub_mod hle]
    · next hlt => exact (Nat.mod_eq_of_lt (Nat.not_le.1 hlt)).symm

/-- R76's quotient estimate by `p` alone. -/
theorem barrettQuotient_eq {n : Nat} (hn : n ≠ 0) (x : Nat) : barrettQuotient n x =
    x / 2 ^ (bitlen n - 1) * (4 * 2 ^ (bitlen n - 1) * 2 ^ (bitlen n - 1) / n) / (4 * 2 ^ (bitlen n - 1)) := by
  obtain ⟨j, hj⟩ : ∃ j, bitlen n = j + 1 := ⟨bitlen n - 1, by have := bitlen_pos hn; omega⟩
  have hfour : (4 : Nat) ^ (j + 1) = 4 * 2 ^ j * 2 ^ j := by
    rw [pow_succ', mul_assoc, ← mul_pow]
    rfl
  have htwo : (2 : Nat) ^ (j + 1 + 1) = 4 * 2 ^ j := by ring
  rw [barrettQuotient, barrettMu, hj, hfour, htwo, Nat.add_sub_cancel]

/-- The estimate rounds down three times, so it is at most the quotient. -/
theorem barrettEstimate_le {n p : Nat} (hp : 0 < p) (x : Nat) : x / p * (4 * p * p / n) / (4 * p) * n ≤ x := by
  have hx : x / p * p ≤ x := Nat.div_mul_le_self _ _
  have hmu : 4 * p * p / n * n ≤ 4 * p * p := Nat.div_mul_le_self _ _
  have hq : x / p * (4 * p * p / n) / (4 * p) * (4 * p) ≤ x / p * (4 * p * p / n) := Nat.div_mul_le_self _ _
  generalize x / p * (4 * p * p / n) / (4 * p) = q at hq ⊢
  generalize 4 * p * p / n = mu at hmu hq
  generalize x / p = d at hx hq
  refine Nat.le_of_mul_le_mul_left (c := 4 * p) ?_ (by omega)
  calc 4 * p * (q * n) = q * (4 * p) * n := by ring
    _ ≤ d * mu * n := Nat.mul_le_mul_right _ hq
    _ = d * (mu * n) := by ring
    _ ≤ d * (4 * p * p) := Nat.mul_le_mul_left _ hmu
    _ = 4 * p * (d * p) := by ring
    _ ≤ 4 * p * x := Nat.mul_le_mul_left _ hx

/-- The three roundings cost less than `p`, `n` and `n`. -/
theorem lt_barrettEstimate_add {n p x : Nat} (hn : 0 < n) (hp : 0 < p) (hx : x < 4 * p * p) :
    x < x / p * (4 * p * p / n) / (4 * p) * n + (p + 2 * n) := by
  have hdp : x < (x / p + 1) * p := (Nat.div_lt_iff_lt_mul hp).1 (Nat.lt_succ_self _)
  have hmu : 4 * p * p ≤ (4 * p * p / n + 1) * n := ((Nat.div_lt_iff_lt_mul hn).1 (Nat.lt_succ_self _)).le
  have hq : x / p * (4 * p * p / n) ≤ (x / p * (4 * p * p / n) / (4 * p) + 1) * (4 * p) :=
    ((Nat.div_lt_iff_lt_mul (by omega)).1 (Nat.lt_succ_self _)).le
  have hd : x / p ≤ 4 * p := (Nat.div_lt_of_lt_mul (by rwa [Nat.mul_comm])).le
  generalize x / p * (4 * p * p / n) / (4 * p) = q at hq ⊢
  generalize 4 * p * p / n = mu at hmu hq
  generalize x / p = d at hdp hq hd
  have hquot : d * p ≤ (q + 2) * n := by
    refine Nat.le_of_mul_le_mul_left (c := 4 * p) ?_ (by omega)
    calc 4 * p * (d * p) = d * (4 * p * p) := by ring
      _ ≤ d * ((mu + 1) * n) := Nat.mul_le_mul_left _ hmu
      _ = d * mu * n + d * n := by ring
      _ ≤ (q + 1) * (4 * p) * n + 4 * p * n := Nat.add_le_add (Nat.mul_le_mul_right _ hq) (Nat.mul_le_mul_right _ hd)
      _ = 4 * p * ((q + 2) * n) := by ring
  calc x < d * p + p := by rwa [← Nat.add_one_mul]
    _ ≤ (q + 2) * n + p := Nat.add_le_add_right hquot _
    _ = q * n + (p + 2 * n) := by ring

theorem barrettQuotient_mul_le {n : Nat} (hn : n ≠ 0) (x : Nat) : barrettQuotient n x * n ≤ x := by
  rw [barrettQuotient_eq hn]
  exact barrettEstimate_le (by positivity) x

/-- R76: the remainder of the estimate is below `3n`, for a product of residues. -/
theorem barrettRemainder_lt {n a b : Nat} (ha : a < n) (hb : b < n) :
    a * b - barrettQuotient n (a * b) * n < 3 * n := by
  have hn : n ≠ 0 := by omega
  have hle : 2 ^ (bitlen n - 1) ≤ n := two_pow_bitlen_pred_le hn
  have hlt : n < 2 * 2 ^ (bitlen n - 1) := by
    rw [← pow_succ', Nat.sub_add_cancel (bitlen_pos hn)]
    exact lt_two_pow_bitlen n
  have hx : a * b < 4 * 2 ^ (bitlen n - 1) * 2 ^ (bitlen n - 1) := by
    calc a * b < 2 * 2 ^ (bitlen n - 1) * (2 * 2 ^ (bitlen n - 1)) := Nat.mul_lt_mul'' (ha.trans hlt) (hb.trans hlt)
      _ = 4 * 2 ^ (bitlen n - 1) * 2 ^ (bitlen n - 1) := by ring
  have h := lt_barrettEstimate_add (Nat.pos_of_ne_zero hn) (by positivity) hx
  rw [← barrettQuotient_eq hn] at h
  omega

/-- R76: two corrections make the multiplier exact on residues. -/
theorem barrettMm_eq {n a b : Nat} (ha : a < n) (hb : b < n) : barrettMm n a b = a * b % n := by
  have hn : n ≠ 0 := by omega
  rw [barrettMm, subtractWhile_eq_mod (barrettRemainder_lt ha hb), Nat.mul_comm _ n]
  exact Nat.sub_mul_mod (by rw [Nat.mul_comm]; exact barrettQuotient_mul_le hn _)

/-- Settles O47: the Barrett multiplier is exact on residues, which is all that square-and-multiply needs. -/
theorem squareAndMultiplyReference : Obligations.SquareAndMultiplyReference := by
  intro a e n hn
  have h := powBits_eq hn (fun _ hx _ hy => barrettMm_eq hx hy) (Nat.mod_lt a hn) (bitlen e) e (lt_two_pow_bitlen e)
  rwa [← Nat.pow_mod] at h

end Sys2Proof.Machine
end

section
/-! PROOFS. The modular commands' statements: MODINV (R71), its corner cases, and MODMUL as a plain product
(R73). -/

namespace Sys2Proof.Machine

variable {s : State}

/-! ## MODINV -/

theorem exec_modinv_notCoprime (h : s.n ≠ 0) (hg : Nat.gcd s.a s.n ≠ 1) :
    exec .modinv s = .next ((s.setG (Nat.gcd s.a s.n)).complete .notCoprime) :=
  (withModulus_pos h _).trans (if_neg hg)

/-- Settles O15: for coprime operands the inverse that MODINV writes is the only one in `[0, N)`. -/
theorem modinvResult : Obligations.ModinvResult := by
  refine ⟨decode_encode .modinv, fun s =>
    ⟨exec_of_modulus_zero (by decide), exec_modinv_notCoprime, fun h hg => ?_⟩⟩
  obtain ⟨hlt, hinv⟩ := modInv_spec h hg
  exact ⟨modInv s.a s.n, hlt, hinv, fun y hy hay => inverse_unique hg hy hlt hay hinv, exec_modinv_coprime h hg⟩

/-- R71: a residue that is an inverse of `a` is what MODINV writes, and shows that `a` and `n` are coprime. -/
theorem modInv_eq {a n x : Nat} (hx : x < n) (hax : a * x % n = 1 % n) : Nat.gcd a n = 1 ∧ modInv a n = x := by
  have hg : Nat.gcd a n = 1 := Nat.coprime_of_mul_modEq_one x hax
  obtain ⟨hlt, hinv⟩ := modInv_spec (Nat.ne_zero_of_lt hx) hg
  exact ⟨hg, inverse_unique hg hlt hx hinv hax⟩

/-- MODINV on an operand whose inverse is known. -/
theorem exec_modinv_of_inverse {x : Nat} (hx : x < s.n) (hax : s.a * x % s.n = 1 % s.n) :
    exec .modinv s = .next (((s.setR x).setG 1).complete .ok) := by
  obtain ⟨hg, hinv⟩ := modInv_eq hx hax
  rw [exec_modinv_coprime (Nat.ne_zero_of_lt hx) hg, hinv]

/-- `n - 1` is its own inverse modulo `n`: it is -1. -/
theorem pred_mul_pred_mod {n : Nat} (hn : 2 ≤ n) : (n - 1) * (n - 1) % n = 1 % n := by
  obtain ⟨k, rfl⟩ : ∃ k, n = k + 2 := ⟨n - 2, by omega⟩
  have hsq : (k + 2 - 1) * (k + 2 - 1) = 1 + (k + 2) * k := by
    rw [Nat.add_sub_assoc (by decide)]
    ring
  rw [hsq, Nat.add_mul_mod_self_left]

/-- Settles O20: each case but the last names an inverse; 0 has none, since `gcd(0, N) = N`. -/
theorem modinvCornerCases : Obligations.ModinvCornerCases := by
  refine fun s => ⟨fun h => ?_, fun h ha => ?_, fun h ha => ?_, fun h ha => ?_⟩
  · exact exec_modinv_of_inverse (x := 0) (by omega) (by rw [h, Nat.mod_one, Nat.mod_one])
  · exact exec_modinv_of_inverse (Nat.sub_lt (by omega) Nat.one_pos) (by rw [ha, pred_mul_pred_mod h])
  · exact exec_modinv_of_inverse (Nat.mod_lt _ (Nat.pos_of_ne_zero h)) (by rw [ha, Nat.one_mul, Nat.mod_mod])
  · have hg : Nat.gcd s.a s.n = s.n := by rw [ha, Nat.gcd_zero_left]
    have hexec := exec_modinv_notCoprime (s := s) (by omega) (by omega)
    rwa [hg] at hexec

/-! ## MODMUL -/

/-- Settles O21: a product below the modulus is its own residue. -/
theorem modmulWithLargestModulusIsPlainProduct : Obligations.ModmulWithLargestModulusIsPlainProduct := by
  intro s _ hn hlt
  rw [← hn] at hlt
  rw [exec_modmul (Nat.ne_zero_of_lt hlt), Nat.mod_eq_of_lt hlt]
  rfl

end Sys2Proof.Machine
end

section
/-! PROOFS. The reference algorithms' statements: the signed Euclidean iteration (R72). -/

namespace Sys2Proof.Machine

/-! ## The greatest common divisor -/

/-- R72's `r0 - q * r1` is the remainder. -/
theorem sub_div_mul_eq_mod (r0 r1 : Nat) : r0 - r0 / r1 * r1 = r0 % r1 := by
  have h := Nat.div_add_mod' r0 r1
  omega

theorem egcdLoop_zero (fuel r0 : Nat) (s0 s1 : Int) : egcdLoop fuel r0 0 s0 s1 = (r0, s0) := by
  cases fuel <;> rfl

theorem egcdLoop_succ {fuel r0 r1 : Nat} (h : r1 ≠ 0) (s0 s1 : Int) :
    egcdLoop (fuel + 1) r0 r1 s0 s1 = egcdLoop fuel r1 (r0 % r1) s1 (s0 - (r0 / r1 : Nat) * s1) := by
  rw [egcdLoop, if_neg h, sub_div_mul_eq_mod]

/-- A remainder is less than half of a number that is not below the divisor. -/
theorem two_mul_mod_lt {r0 r1 : Nat} (h1 : r1 ≠ 0) (hle : r1 ≤ r0) : 2 * (r0 % r1) < r0 := by
  have hlt : r0 % r1 < r1 := Nat.mod_lt _ (Nat.pos_of_ne_zero h1)
  have hle' : r0 % r1 ≤ r0 - r1 := Nat.mod_eq_sub_mod hle ▸ Nat.mod_le _ _
  omega

/-- Each round halves the product of the two remainders, so `fuel` rounds are enough for `2^fuel`. -/
theorem egcdLoop_gcd {fuel r0 r1 : Nat} (hle : r1 ≤ r0) (hf : r0 * r1 < 2 ^ fuel) (s0 s1 : Int) :
    (egcdLoop fuel r0 r1 s0 s1).1 = Nat.gcd r0 r1 := by
  induction fuel generalizing r0 r1 s0 s1 with
  | zero =>
    obtain rfl : r1 = 0 := by
      rcases Nat.mul_eq_zero.1 (Nat.lt_one_iff.1 hf) with h | h <;> omega
    rw [egcdLoop_zero, Nat.gcd_zero_right]
  | succ fuel ih =>
    by_cases h1 : r1 = 0
    · rw [h1, egcdLoop_zero, Nat.gcd_zero_right]
    · have hlt : r0 % r1 < r1 := Nat.mod_lt _ (Nat.pos_of_ne_zero h1)
      have hhalf : 2 * (r1 * (r0 % r1)) ≤ r0 * r1 := by
        rw [Nat.mul_left_comm, Nat.mul_comm r0]
        exact Nat.mul_le_mul_left r1 (two_mul_mod_lt h1 hle).le
      rw [pow_succ] at hf
      rw [egcdLoop_succ h1, ih hlt.le (by omega), Nat.gcd_comm, ← Nat.gcd_rec, Nat.gcd_comm]

/-- R72's bound on rounds suffices: the first round brings `a` below `m`, and `m * m < 2^(2 * bitlen m)`. -/
theorem egcdRef_gcd (a : Nat) {m : Nat} (hm : 1 ≤ m) : (egcdRef a m).2 = Nat.gcd a m := by
  have hlt : a % m < m := Nat.mod_lt _ hm
  have hprod : m * (a % m) < 2 ^ (2 * bitlen m + 1) := by
    have hbits := lt_two_pow_bitlen m
    calc m * (a % m) < 2 ^ bitlen m * 2 ^ bitlen m := Nat.mul_lt_mul'' hbits (hlt.trans hbits)
      _ = 2 ^ (2 * bitlen m) := by rw [two_mul, pow_add]
      _ ≤ 2 ^ (2 * bitlen m + 1) := Nat.pow_le_pow_right (by decide) (Nat.le_succ _)
  show (egcdLoop (2 * bitlen m + 1 + 1) a m 1 0).1 = _
  rw [egcdLoop_succ (by omega), egcdLoop_gcd hlt.le hprod, Nat.gcd_comm, gcd_mod_left]

/-! ## The coefficient -/

/-- The coefficient that `euclid` keeps in `[0, n)` is R72's modulo `n`. -/
theorem euclid_coeff_modEq {n r0 r1 : Nat} (hn : 0 < n) {s0 s1 : Nat} {x0 x1 : Int}
    (h0 : (s0 : Int) ≡ x0 [ZMOD n]) (h1 : (s1 : Int) ≡ x1 [ZMOD n]) :
    ((s0 + (n - r0 / r1 * s1 % n)) % n : Nat) ≡ x0 - (r0 / r1 : Nat) * x1 [ZMOD n] := by
  have hle : r0 / r1 * s1 % n ≤ n := (Nat.mod_lt _ hn).le
  have hq : ((r0 / r1 * s1 % n : Nat) : Int) ≡ (r0 / r1 : Nat) * x1 [ZMOD n] := by
    rw [Int.natCast_mod, Int.natCast_mul]
    exact (Int.mod_modEq _ _).trans (h1.mul_left _)
  have hsub : ((n - r0 / r1 * s1 % n : Nat) : Int) ≡ -((r0 / r1 : Nat) * x1) [ZMOD n] := by
    rw [Int.natCast_sub hle, ← zero_sub]
    exact (Int.modEq_zero_iff_dvd.2 dvd_rfl).sub hq
  rw [Int.natCast_mod, Int.natCast_add, sub_eq_add_neg]
  exact (Int.mod_modEq _ _).trans (h0.add hsub)

/-- Both Euclidean iterations go through the same remainders, with the same coefficients modulo `n`. -/
theorem euclid_modEq_egcdLoop {n : Nat} (hn : 0 < n) (fuel r0 r1 : Nat) {s0 s1 : Nat} {x0 x1 : Int}
    (h0 : (s0 : Int) ≡ x0 [ZMOD n]) (h1 : (s1 : Int) ≡ x1 [ZMOD n]) :
    (euclid n fuel r0 r1 s0 s1 : Int) ≡ (egcdLoop fuel r0 r1 x0 x1).2 [ZMOD n] := by
  induction fuel generalizing r0 r1 s0 s1 x0 x1 with
  | zero => exact h0
  | succ fuel ih =>
    by_cases hr : r1 = 0
    · rw [hr, egcdLoop_zero]
      exact h0
    · rw [egcdLoop_succ hr, euclid, if_neg hr]
      exact ih _ _ h1 (euclid_coeff_modEq hn h0 h1)

/-- R72's coefficient stays within `m`, since no round raises `|s1| * r0 + |s0| * r1`, which is `m` at first. -/
theorem egcdLoop_coeff_le {m fuel r0 r1 : Nat} {s0 s1 : Int} (hr : 0 < r0) (h0 : s0.natAbs ≤ m)
    (hsum : s1.natAbs * r0 + s0.natAbs * r1 ≤ m) : (egcdLoop fuel r0 r1 s0 s1).2.natAbs ≤ m := by
  induction fuel generalizing r0 r1 s0 s1 with
  | zero => exact h0
  | succ fuel ih =>
    by_cases h1 : r1 = 0
    · rw [h1, egcdLoop_zero]
      exact h0
    · have hs1 : s1.natAbs ≤ m := (Nat.le_mul_of_pos_right _ hr).trans ((Nat.le_add_right _ _).trans hsum)
      have habs : (s0 - (r0 / r1 : Nat) * s1).natAbs ≤ s0.natAbs + r0 / r1 * s1.natAbs :=
        (Int.natAbs_sub_le _ _).trans_eq (by rw [Int.natAbs_mul, Int.natAbs_natCast])
      rw [egcdLoop_succ h1]
      refine ih (Nat.pos_of_ne_zero h1) hs1 ?_
      calc (s0 - (r0 / r1 : Nat) * s1).natAbs * r1 + s1.natAbs * (r0 % r1)
          ≤ (s0.natAbs + r0 / r1 * s1.natAbs) * r1 + s1.natAbs * (r0 % r1) :=
            Nat.add_le_add_right (Nat.mul_le_mul_right _ habs) _
        _ = s1.natAbs * (r0 / r1 * r1 + r0 % r1) + s0.natAbs * r1 := by ring
        _ = s1.natAbs * r0 + s0.natAbs * r1 := by rw [Nat.div_add_mod']
        _ ≤ m := hsum

/-- R72: one addition of `m` brings a coefficient within `m` to its residue, where that is not 0. -/
theorem normalizeCoeff_eq {m v : Nat} {x : Int} (hm : m ≠ 1) (hx : x.natAbs ≤ m) (hv : 0 < v) (hlt : v < m)
    (h : (v : Int) ≡ x [ZMOD m]) : normalizeCoeff m x = v := by
  obtain ⟨c, hc⟩ := h.dvd
  have hlow : -2 < c := by
    by_contra hle
    have := mul_le_mul_of_nonneg_left (Int.not_lt.1 hle) (Int.natCast_nonneg m)
    omega
  have hhigh : c < 1 := by
    by_contra hge
    have := mul_le_mul_of_nonneg_left (Int.not_lt.1 hge) (Int.natCast_nonneg m)
    omega
  obtain rfl | rfl : c = 0 ∨ c = -1 := by omega
  · rw [normalizeCoeff, if_neg hm, if_neg (by omega)]
    omega
  · rw [normalizeCoeff, if_neg hm, if_pos (by omega)]
    omega

/-- R72: for coprime arguments the normalised coefficient is MODINV's inverse. -/
theorem egcdRef_coeff {a m : Nat} (hm : 1 ≤ m) (hg : Nat.gcd a m = 1) : (egcdRef a m).1 = (modInv a m : Nat) := by
  obtain ⟨hlt, hinv⟩ := modInv_spec (by omega) hg
  by_cases h1 : m = 1
  · have h0 : modInv a m = 0 := by omega
    rw [h0, egcdRef, normalizeCoeff, if_pos h1]
    rfl
  · have ha : a ≠ 0 := by
      rintro rfl
      exact h1 (by rwa [Nat.gcd_zero_left] at hg)
    have hpos : modInv a m ≠ 0 := by
      intro h0
      rw [h0, Nat.mul_zero, Nat.zero_mod, Nat.mod_eq_of_lt (by omega)] at hinv
      exact absurd hinv (by decide)
    have hmod : (modInv a m : Int) ≡ (egcdLoop (2 * bitlen m + 2) a m 1 0).2 [ZMOD m] :=
      euclid_modEq_egcdLoop hm _ _ _ (by simp [Int.ModEq]) rfl
    have hle : (egcdLoop (2 * bitlen m + 2) a m 1 0).2.natAbs ≤ m :=
      egcdLoop_coeff_le (Nat.pos_of_ne_zero ha) hm (by simp)
    exact normalizeCoeff_eq h1 hle (Nat.pos_of_ne_zero hpos) hlt hmod

/-- Settles O49: R72's loop is Euclid's algorithm, and its coefficient is MODINV's modulo `m`. -/
theorem euclidReference : Obligations.EuclidReference := by
  intro a m hm
  refine ⟨egcdRef_gcd a hm, fun hg => ?_⟩
  obtain ⟨hlt, -⟩ := modInv_spec (by omega) hg
  rw [egcdRef_coeff hm hg]
  exact ⟨Int.natCast_nonneg _, Int.ofNat_lt.2 hlt, rfl⟩

end Sys2Proof.Machine
end

section
/-! PROOFS. The host procedures: the reads of a window, and one command from its CMD write to its ack (R58). -/

namespace Sys2Proof.Machine

variable {s t : State}

/-! ## Reading a window -/

/-- A read leaves every window as it is (R43). -/
theorem windowWord_read (s : State) (steps : List Event) (answer : Response) (win : Window) (k : Nat) :
    State.windowWord { s with agenda := steps, resp := answer } win k = s.windowWord win k := by cases win <;> rfl

/-- R58: reading the first `m` words of a window, results included while MEE is idle. -/
theorem play_readWindow (hc : s.cfg.ok = true) (hr : s.rstLine = false) (hidle : s.busy = false) (win : Window)
    {m : Nat} (hm : m ≤ s.cfg.maxBytes / 4) :
    ∃ steps answer, play (rdbig s.cfg (0x1000 * win.number) m) s =
      some ({ s with agenda := steps, resp := answer }, (List.range m).map fun k => .data (s.windowWord win k)) := by
  induction m with
  | zero => exact ⟨s.agenda, s.resp, rfl⟩
  | succ m ih =>
    obtain ⟨steps, answer, hp⟩ := ih (by omega)
    have hlast := play_rd_idle (s := { s with agenda := steps, resp := answer }) hr hc hidle
      (servedAs_window hc win (k := m) (by omega) rfl)
    simp only [State.regWord, windowWord_read] at hlast
    rw [rdbig, List.range_succ, List.map_append, List.map_append]
    exact ⟨_, _, play_append_eq hp hlast⟩

theorem bigOfAnswers_append (ts : List Response) (t : Response) :
    bigOfAnswers (ts ++ [t]) = bigOfAnswers ts + t.word.toNat * (2 ^ 32) ^ ts.length := by
  induction ts with
  | nil => simp [bigOfAnswers]
  | cons u ts ih =>
    simp only [List.cons_append, bigOfAnswers, ih, List.length_cons, pow_succ]
    ring

/-- R28, R58: the words of a register that `m` words hold spell it. -/
theorem bigOfAnswers_bigWords (x m : Nat) :
    bigOfAnswers ((List.range m).map fun k => .data (bigWord x k)) = x % (2 ^ 32) ^ m := by
  induction m with
  | zero => simp [bigOfAnswers, Nat.mod_one]
  | succ m ih =>
    rw [List.range_succ, List.map_append, List.map_singleton, bigOfAnswers_append, ih, List.length_map,
      List.length_range, Response.word, bigWord_toNat, digit, Nat.mul_comm, ← Nat.mod_pow_succ]

/-- `rdbig R` of an idle machine (R58). -/
theorem play_rdbig_r (hc : s.cfg.ok = true) (hr : s.rstLine = false) (hidle : s.busy = false)
    (hfit : s.r < 2 ^ (8 * s.cfg.maxBytes)) :
    ∃ t rs, play (rdbig s.cfg 0x5000 (s.cfg.maxBytes / 4)) s = some (t, rs) ∧ bigOfAnswers rs = s.r := by
  obtain ⟨steps, answer, hp⟩ := play_readWindow hc hr hidle .r le_rfl
  refine ⟨_, _, hp, (bigOfAnswers_bigWords s.r _).trans (Nat.mod_eq_of_lt ?_)⟩
  rwa [← pow_mul, ← registerBits_eq hc]

/-! ## The reset input during a wait -/

/-- R102: only the reset source raises the reset input. -/
theorem step_line_low (hs : step s = .next t) (ha : ∀ rest, s.agenda ≠ .resetAssert :: rest)
    (hr : s.rstLine = false) : t.rstLine = false := by
  rcases step_next hs with ⟨-, -, rfl⟩ | ⟨-, -, hc⟩ | ⟨x, rest, -, -, h⟩ | ⟨rest, h, -⟩ | ⟨rest, -, rfl⟩
  · exact hr
  · exact hc.line_resp.1.trans hr
  · rcases h with ⟨answer, count, rfl⟩ | ⟨off, w, u, -, hw, rfl⟩
    · exact hr
    · exact hw.rstLine.trans hr
  · exact absurd h (ha rest)
  · rfl

theorem play_line_low {evs : List Event} {rs : List Response} (hp : play evs s = some (t, rs))
    (hevs : Event.resetAssert ∉ evs) (hr : s.rstLine = false) : t.rstLine = false := by
  induction evs generalizing s rs with
  | nil =>
    obtain ⟨rfl, -⟩ := Prod.mk.inj (Option.some.inj hp)
    exact hr
  | cons ev evs ih =>
    obtain ⟨u, us, hs, hu⟩ := play_cons_some hp
    refine ih hu (List.not_mem_of_not_mem_cons hevs) (step_line_low hs (fun rest ha => hevs ?_) hr)
    exact (List.cons.inj ha).1 ▸ List.mem_cons_self

theorem readOff_line_low {off : Nat} {w : Word} (h : readOff off s = some (t, w)) (hr : s.rstLine = false) :
    t.rstLine = false := by
  obtain ⟨⟨u, rs⟩, hp, ho⟩ := Option.map_eq_some_iff.1 h
  obtain ⟨rfl, -⟩ := Prod.mk.inj ho
  exact play_line_low hp (by simp [rd]) hr

/-- R102: a wait in which only the engine acts leaves the reset input low. -/
theorem waitIdle_line_low {others : WaitSteps} {ws : List Word} (hq : others.quiet)
    (h : waitIdle others s = some (t, ws)) (hr : s.rstLine = false) : t.rstLine = false := by
  induction others generalizing s ws with
  | nil =>
    obtain ⟨⟨u, rs⟩, hp, h⟩ := Option.bind_eq_some_iff.1 h
    obtain ⟨⟨v, w⟩, hread, ho⟩ := Option.map_eq_some_iff.1 h
    obtain ⟨rfl, -⟩ := Prod.mk.inj ho
    exact readOff_line_low hread (play_line_low hp (by decide) hr)
  | cons evs others ih =>
    obtain ⟨hevs, hothers⟩ := List.forall_mem_cons.1 hq
    obtain ⟨⟨u, rs⟩, hp, h⟩ := Option.bind_eq_some_iff.1 h
    obtain ⟨⟨v, w⟩, hread, h⟩ := Option.bind_eq_some_iff.1 h
    have hv : v.rstLine = false :=
      readOff_line_low hread (play_line_low hp (fun hmem => absurd (hevs _ hmem) (by decide)) hr)
    dsimp only at h
    split at h
    · obtain ⟨⟨u', ws'⟩, hw, ho⟩ := Option.map_eq_some_iff.1 h
      obtain ⟨rfl, -⟩ := Prod.mk.inj ho
      exact ih hothers hw hv
    · obtain ⟨rfl, -⟩ := Prod.mk.inj (Option.some.inj h)
      exact hv

/-! ## One command -/

/-- `cmd NAME` on an idle machine (R58, R59). -/
theorem play_cmdOf (hc : s.cfg.ok = true) (hr : s.rstLine = false) (hidle : s.busy = false) (i : Instr) :
    play (cmdOf s.cfg i) s = some (((s.withAgenda []).accept (encode i)).respond .written, [.written]) := by
  obtain ⟨-, -, -, hcmd, -⟩ := regAt_controls s.cfg
  have heffect : (s.withAgenda []).effectOfWrite .cmd (encode i) = (s.withAgenda []).accept (encode i) :=
    writeCmd_idle (s := s.withAgenda []) hidle _
  rw [cmdOf, play_wr hr hc (by decide) (by decide), hcmd, State.writeReg, heffect]

/-- `ack` (R58, R23). -/
theorem play_ackDone (hc : s.cfg.ok = true) (hr : s.rstLine = false) :
    play (ackDone s.cfg) s = some (((s.withAgenda []).clearStatus 0x2#32).respond .written, [.written]) := by
  obtain ⟨-, -, -, -, hstatus, -⟩ := regAt_controls s.cfg
  rw [ackDone, play_wr hr hc (by decide) (by decide), hstatus]
  rfl

/-- A wait for the command `i` in flight, where only the engine acts, ends in the meaning of `i` (R58, R61). -/
theorem waitIdle_exec (hc : s.cfg.ok = true) (hr : s.rstLine = false) (hb : s.busy = true) {i : Instr}
    (hd : decode s.curCmd = .ok i) {others : WaitSteps} (hq : others.quiet) :
    ∃ t ws u, waitIdle others s = some (t, ws) ∧ t.rstLine = false ∧ exec i s = .next u ∧ t.arch = u.arch := by
  obtain ⟨t, ws, last, hw, -, -, -, u, hu, harch⟩ := waitIdle_quiet_busy hc hr hb hq
  rw [engineStep_of_decode hd] at hu
  exact ⟨t, _, u, hw, waitIdle_line_low hq hw hr, hu, harch⟩

/-- What follows the wait in a command procedure: STATUS is read, and DONE cleared (R58). -/
theorem runCommand_of_wait (hc : s.cfg.ok = true) (hr : s.rstLine = false) (hidle : s.busy = false) {i : Instr}
    {others : WaitSteps} {ws : List Word}
    (hw : waitIdle others (((s.withAgenda []).accept (encode i)).respond .written) = some (t, ws))
    (hcfg : t.cfg = s.cfg) (htr : t.rstLine = false) :
    runCommand i others s =
      some (State.respond (State.clearStatus { t with agenda := [], resp := .data t.statusWord } 0x2#32) .written,
        t.statusWord) := by
  have htc : t.cfg.ok = true := hcfg ▸ hc
  have hack := play_ackDone (s := { t with agenda := [], resp := .data t.statusWord }) htc htr
  rw [runCommand, play_cmdOf hc hr hidle, Option.bind_some, hw, Option.bind_some, readOff_status htr htc,
    Option.bind_some, ← hcfg]
  exact congrArg (Option.map _) hack

/-- What a whole command procedure leaves for the next transaction: MEE idle and not in reset, the parameters and
operands as before, and the results that the completion `u` of the command wrote. -/
structure CommandDone (s u t : State) : Prop where
  cfg : t.cfg = s.cfg
  line : t.rstLine = false
  idle : t.busy = false
  operands : t.operands = s.operands
  results : t.results = u.results

/-- R58: `cmd NAME ; wait ; rdstat -> t ; ack` where only the engine acts: the command's meaning on the state
before it, with its code in `t`. -/
theorem runCommand_quiet (hc : s.cfg.ok = true) (hr : s.rstLine = false) (hidle : s.busy = false) {i : Instr} {u : State}
    (hu : exec i s = .next u) {others : WaitSteps} (hq : others.quiet) :
    ∃ t w, runCommand i others s = some (t, w) ∧ errField w = u.err ∧ CommandDone s u t := by
  obtain ⟨t, ws, v, hw, htr, hv, harch⟩ :=
    waitIdle_exec (s := ((s.withAgenda []).accept (encode i)).respond .written) hc hr rfl (decode_encode i) hq
  have hcomp := exec_completion hv
  obtain ⟨v', u', hv', hu', hres, herr⟩ :=
    exec_sameOutcome (t := ((s.withAgenda []).accept (encode i)).respond .written) (s := s) i rfl rfl
  obtain rfl := Host.Outcome.next.inj (hv'.symm.trans hv)
  obtain rfl := Host.Outcome.next.inj (hu'.symm.trans hu)
  have hcfg : t.cfg = s.cfg := (congrArg State.cfg harch :).trans hcomp.cfg_draws.1
  refine ⟨_, _, runCommand_of_wait hc hr hidle hw hcfg htr, ?_, hcfg, htr, ?_, ?_, ?_⟩
  · rw [errField_statusWord, ← herr]
    exact (congrArg State.err harch :)
  · exact (congrArg State.busy harch :).trans hcomp.idle
  · exact (congrArg State.operands harch :).trans hcomp.operands
  · exact (congrArg State.results harch :).trans hres

end Sys2Proof.Machine
end

section
/-! PROOFS. The host procedures: key generation (R74), round by round. -/

namespace Sys2Proof.Machine

variable {s : State}

/-- A draw `e` that ends R74's loop. -/
def SuitableExponent (phi e : Nat) : Prop := 1 < e ∧ e < phi ∧ Nat.gcd e phi = 1

/-- What every round of R74's loop finds: MEE idle and not in reset, with phi in N. -/
structure KeygenReady (phi : Nat) (s : State) : Prop where
  config : s.cfg.ok = true
  line : s.rstLine = false
  idle : s.busy = false
  modulus : s.n = phi
  phiFits : phi < 2 ^ (8 * s.cfg.maxBytes)
  aFits : s.a < 2 ^ (8 * s.cfg.maxBytes)

/-- `ldbig A, e` and MODINV in one round: MEE is ready for the next one, with MODINV's R and code. -/
theorem keygen_modinv {phi e : Nat} (h : KeygenReady phi s) (he : e < phi) {v : State}
    (hv : exec .modinv (s.loaded .a e) = .next v) {others : WaitSteps} (hq : others.quiet) :
    ∃ rs t w, play (ldbig s.cfg 0x1000 e) s = some (s.loaded .a e, rs) ∧
      runCommand .modinv others (s.loaded .a e) = some (t, w) ∧ errField w = v.err ∧ t.r = v.r ∧ t.cfg = s.cfg ∧
      KeygenReady phi t := by
  obtain ⟨hc, hr, hidle, hn, hphi, ha⟩ := h
  obtain ⟨rs, hload⟩ := play_ldbig (win := .a) hc hr hidle (by decide) (he.trans hphi) ha
  obtain ⟨t, w, hrun, herr, hd⟩ := runCommand_quiet (s := s.loaded .a e) hc hr hidle hv hq
  obtain ⟨hta, -, -, htn, -⟩ := State.operands_eq_iff.1 hd.operands
  obtain ⟨htr, -⟩ := State.results_eq_iff.1 hd.results
  have hcfg : t.cfg = s.cfg := hd.cfg
  refine ⟨rs, t, w, hload, hrun, herr, htr, hcfg, hcfg ▸ hc, hd.line, hd.idle, htn.trans hn, hcfg ▸ hphi, ?_⟩
  rw [hta, hcfg]
  exact he.trans hphi

variable {waits : Nat → WaitSteps} {phi k round e : Nat} {bytes : List Byte} {draws : List (List Byte)}

/-- A draw out of range is dropped. -/
theorem keygenLoop_outOfRange (he : ¬ (1 < beInt (bytes.take k) ∧ beInt (bytes.take k) < phi)) :
    keygenLoop waits phi k round (bytes :: draws) s = keygenLoop waits phi k (round + 1) draws s := by
  rw [keygenLoop, if_neg he]

/-- A suitable draw ends the loop, with MODINV's inverse as `d`. -/
theorem keygenLoop_suitable (h : KeygenReady phi s) (hq : ∀ j, (waits j).quiet) (hdraw : beInt (bytes.take k) = e)
    (he : SuitableExponent phi e) :
    ∃ t, keygenLoop waits phi k round (bytes :: draws) s = some (t, e, modInv e phi) := by
  obtain ⟨hgt, hlt, hg⟩ := he
  have hn : s.n = phi := h.modulus
  have hv := exec_modinv_coprime (s := s.loaded .a e) (hn ▸ Nat.ne_zero_of_lt hlt) (hn ▸ hg)
  obtain ⟨rs, t, w, hload, hrun, hcode, htr, hcfg, ht⟩ := keygen_modinv h hlt hv (hq round)
  have hok : errField w = ErrCode.ok.bits := hcode
  have hinv : t.r = modInv e phi := hn ▸ htr
  have hfit : t.r < 2 ^ (8 * t.cfg.maxBytes) := by
    rw [hinv]
    exact (modInv_spec (Nat.ne_zero_of_lt hlt) hg).1.trans ht.phiFits
  obtain ⟨u, ts, hread, hval⟩ := play_rdbig_r ht.config ht.line ht.idle hfit
  rw [hcfg] at hread
  refine ⟨u, ?_⟩
  rw [keygenLoop, hdraw, if_pos ⟨hgt, hlt⟩, hload, Option.bind_some, hrun, Option.bind_some,
    if_neg (by rw [hok]; decide), hread, Option.map_some, hval, hinv]

/-- A draw in range that is not coprime to phi is dropped. -/
theorem keygenLoop_notCoprime (h : KeygenReady phi s) (hq : ∀ j, (waits j).quiet)
    (hdraw : beInt (bytes.take k) = e) (hgt : 1 < e) (hlt : e < phi) (hg : Nat.gcd e phi ≠ 1) :
    ∃ t, KeygenReady phi t ∧
      keygenLoop waits phi k round (bytes :: draws) s = keygenLoop waits phi k (round + 1) draws t := by
  have hn : s.n = phi := h.modulus
  have hv := exec_modinv_notCoprime (s := s.loaded .a e) (hn ▸ Nat.ne_zero_of_lt hlt) (hn ▸ hg)
  obtain ⟨rs, t, w, hload, hrun, hcode, -, -, ht⟩ := keygen_modinv h hlt hv (hq round)
  have hnot : errField w = ErrCode.notCoprime.bits := hcode
  refine ⟨t, ht, ?_⟩
  rw [keygenLoop, hdraw, if_pos ⟨hgt, hlt⟩, hload, Option.bind_some, hrun, Option.bind_some, if_pos hnot]

/-- R74: what one draw does to the loop. -/
theorem keygenLoop_cons (h : KeygenReady phi s) (hq : ∀ j, (waits j).quiet) (hdraw : beInt (bytes.take k) = e) :
    SuitableExponent phi e ∧
        (∃ t, keygenLoop waits phi k round (bytes :: draws) s = some (t, e, modInv e phi)) ∨
      ¬ SuitableExponent phi e ∧ ∃ t, KeygenReady phi t ∧
        keygenLoop waits phi k round (bytes :: draws) s = keygenLoop waits phi k (round + 1) draws t := by
  by_cases hrange : 1 < e ∧ e < phi
  · obtain ⟨hgt, hlt⟩ := hrange
    by_cases hg : Nat.gcd e phi = 1
    · exact .inl ⟨⟨hgt, hlt, hg⟩, keygenLoop_suitable h hq hdraw ⟨hgt, hlt, hg⟩⟩
    · exact .inr ⟨fun ⟨_, _, he⟩ => hg he, keygenLoop_notCoprime h hq hdraw hgt hlt hg⟩
  · exact .inr ⟨fun ⟨hgt, hlt, _⟩ => hrange ⟨hgt, hlt⟩, s, h, keygenLoop_outOfRange (hdraw ▸ hrange)⟩

/-- The loop answers a suitable exponent and MODINV's inverse of it. -/
theorem keygenLoop_sound (h : KeygenReady phi s) (hq : ∀ j, (waits j).quiet) {t : State} {d : Nat}
    (hk : keygenLoop waits phi k round draws s = some (t, e, d)) : SuitableExponent phi e ∧ d = modInv e phi := by
  induction draws generalizing round s with
  | nil => cases hk
  | cons bytes draws ih =>
    rcases keygenLoop_cons (round := round) (draws := draws) h hq rfl with ⟨he, u, hu⟩ | ⟨-, u, hready, hu⟩
    · rw [hu] at hk
      cases hk
      exact ⟨he, rfl⟩
    · exact ih hready (hu ▸ hk)

/-- A suitable exponent among the draws ends the loop, at it or at one before it. -/
theorem keygenLoop_answers (h : KeygenReady phi s) (hq : ∀ j, (waits j).quiet)
    (hd : ∃ bytes ∈ draws, SuitableExponent phi (beInt (bytes.take k))) :
    (keygenLoop waits phi k round draws s).isSome := by
  induction draws generalizing round s with
  | nil =>
    obtain ⟨bytes, hmem, -⟩ := hd
    cases hmem
  | cons bytes draws ih =>
    rcases keygenLoop_cons (round := round) (draws := draws) h hq rfl with ⟨-, u, hu⟩ | ⟨hne, u, hready, hu⟩
    · rw [hu]
      rfl
    · obtain ⟨bytes', hmem, he⟩ := hd
      rw [hu]
      rcases List.mem_cons.1 hmem with rfl | hmem
      · exact absurd he hne
      · exact ih hready ⟨bytes', hmem, he⟩

/-- 90_conflicts.md C3: a draw of 0 bytes is 0, which is out of range, so MEE is never asked. -/
theorem keygenLoop_emptyDraws (round : Nat) (draws : List (List Byte)) :
    keygenLoop waits phi 0 round draws s = none := by
  induction draws generalizing round with
  | nil => rfl
  | cons bytes draws ih => rw [keygenLoop_outOfRange fun h => absurd h.1 (by simp [beInt]), ih]

/-! ## The whole procedure -/

variable {p q : Nat}

/-- `ldbig N, phi` makes MEE ready for the loop. -/
theorem keygen_eq (hi : s.Inv) (hidle : s.busy = false) (hr : s.rstLine = false) (hpq : p * q < 2 ^ (8 * s.cfg.maxBytes))
    (waits : Nat → WaitSteps) (draws : List (List Byte)) :
    ∃ u, KeygenReady ((p - 1) * (q - 1)) u ∧ keygen waits p q draws s =
      (keygenLoop waits ((p - 1) * (q - 1)) (byteLength ((p - 1) * (q - 1)) - 1) 0 draws u).map fun out =>
        (out.1, out.2.1, out.2.2, p * q) := by
  obtain ⟨ha, -, -, hn, -⟩ := hi.registers
  have hphi : (p - 1) * (q - 1) < 2 ^ (8 * s.cfg.maxBytes) :=
    (Nat.mul_le_mul (Nat.sub_le p 1) (Nat.sub_le q 1)).trans_lt hpq
  obtain ⟨rs, hload : play (ldbig s.cfg 0x4000 _) s = _⟩ :=
    play_ldbig (win := .n) hi.config hr hidle (by decide) hphi hn
  refine ⟨s.loaded .n ((p - 1) * (q - 1)), ⟨hi.config, hr, hidle, rfl, hphi, ha⟩, ?_⟩
  rw [keygen, if_pos hpq, hload, Option.bind_some]

/-- Settles O55: a key is answered only in a round whose draw is suitable, and every other round leaves MEE ready. -/
theorem keygenAnswersInverseExponents : Obligations.KeygenAnswersInverseExponents := by
  intro s waits p q draws hi hidle hr hq hpq
  obtain ⟨u, hready, hkey⟩ := keygen_eq hi hidle hr hpq waits draws
  rw [hkey]
  refine ⟨fun t e d n h => ?_, fun ⟨bytes, hmem, hlen, hgt, hg⟩ => ?_⟩
  · obtain ⟨⟨t', e', d'⟩, hloop, hout⟩ := Option.map_eq_some_iff.1 h
    cases hout
    obtain ⟨⟨hgt, hlt, hg⟩, rfl⟩ := keygenLoop_sound hready hq hloop
    obtain ⟨hd, hinv⟩ := modInv_spec (Nat.ne_zero_of_lt hlt) hg
    exact ⟨rfl, hgt, hlt, hg, hd, hinv.trans (Nat.mod_eq_of_lt (hgt.trans hlt))⟩
  · have hphi : (p - 1) * (q - 1) ≠ 0 := by
      intro h0
      rw [h0, byteLength_zero] at hlen
      rw [List.eq_nil_of_length_eq_zero hlen] at hgt
      exact absurd hgt (by decide)
    rw [Option.isSome_map]
    refine keygenLoop_answers hready hq ⟨bytes, hmem, ?_⟩
    rw [List.take_of_length_le hlen.le]
    exact ⟨hgt, beInt_lt_modulus hphi hlen.le, hg⟩

/-- Settles O56: a phi below 256 asks for draws of 0 bytes. -/
theorem keygenNeverEndsForSmallPhi : Obligations.KeygenNeverEndsForSmallPhi := by
  intro s waits p q draws hphi
  have hk : byteLength ((p - 1) * (q - 1)) - 1 = 0 :=
    Nat.sub_eq_zero_of_le ((byteLength_le_iff _ 1).2 (by simpa using hphi))
  rw [keygen, hk]
  simp only [keygenLoop_emptyDraws, Option.map_none]
  split
  · exact Option.bind_fun_none _
  · rfl

end Sys2Proof.Machine
end

section
/-! PROOFS. MODMUL's statements: its result (R75), Barrett's reference multiplier (R76) and the variants of the
multiplier (R77). -/

namespace Sys2Proof.Machine

/-- R76: `modmul_ref` multiplies the residues of its operands. -/
theorem modmulRef_eq {a b n : Nat} (hn : 0 < n) : modmulRef a b n = a * b % n :=
  (barrettMm_eq (Nat.mod_lt a hn) (Nat.mod_lt b hn)).trans (Nat.mul_mod a b n).symm

/-- Settles O48, by the estimate's bound from below, its bound from above, and the two corrections. -/
theorem barrettReference : Obligations.BarrettReference :=
  ⟨fun _ _ _ hn ha hb =>
    ⟨barrettQuotient_mul_le (Nat.ne_of_gt hn) _, barrettRemainder_lt ha hb, barrettMm_eq ha hb⟩,
    fun _ _ _ => modmulRef_eq⟩

/-- R70, R77: square-and-multiply needs no more of its multiplier than exactness on residues. -/
theorem powBits_eq_pow_mod {n : Nat} {mul : Nat → Nat → Nat} (hn : 0 < n)
    (hmul : ∀ x, x < n → ∀ y, y < n → mul x y = x * y % n) (a e : Nat) :
    powBits mul (1 % n) (a % n) (bitlen e) e = a ^ e % n :=
  (powBits_eq hn hmul (Nat.mod_lt a hn) (bitlen e) e (lt_two_pow_bitlen e)).trans (Nat.pow_mod a e n).symm

/-- Settles O50: MODEXP writes the power, which square-and-multiply computes over any exact multiplier. -/
theorem multiplierVariantIsInvisible : Obligations.MultiplierVariantIsInvisible := by
  intro mul s hn hmul
  rw [powBits_eq_pow_mod (Nat.pos_of_ne_zero hn) fun x hx y hy => hmul x y hx hy]
  exact exec_modexp hn

/-- Settles O13: the modulus is checked first, and MODMUL writes the product's residue. -/
theorem modmulResult : Obligations.ModmulResult :=
  ⟨decode_encode .modmul, fun _ => ⟨exec_of_modulus_zero (by decide), exec_modmul⟩⟩

end Sys2Proof.Machine
end

section
/-! PROOFS. The block commands' statements: their results (R79, R80), the bound on a plaintext block (R78), and one
block there and back (R87). -/

namespace Sys2Proof.Machine

variable {s : State} {i : Instr} {key n : Nat} {x : List Byte}

/-! ## One block command -/

/-- R63, check 3: the longest input block of a block command, for `L = len`. -/
def blockLimit : Instr → Nat → Nat
  | .encBlock, len => len - 1
  | .decBlock, len => len
  | _, _ => 0

/-- R79, R80: the output block of a block command on the input block `x`. -/
def blockCipher : Instr → Nat → Nat → List Byte → List Byte
  | .encBlock, key, n, x => beBytes (beInt x ^ key % n) (byteLength n)
  | .decBlock, key, n, x => minimal (beInt x ^ key % n)
  | _, _, _, _ => []

theorem blockCipher_length_le (i : Instr) (hn : n ≠ 0) (key : Nat) (x : List Byte) :
    (blockCipher i key n x).length ≤ byteLength n := by
  cases i with
  | encBlock => exact (beBytes_length _ _).le
  | decBlock =>
    exact (minimal_length _).trans_le (byteLength_le_of_le (Nat.mod_lt _ (Nat.pos_of_ne_zero hn)).le)
  | nop | modmul | modexp | modinv => exact Nat.zero_le _

theorem beInt_blockCipher (hi : i ∈ [.encBlock, .decBlock]) (hn : n ≠ 0) (key : Nat) (x : List Byte) :
    beInt (blockCipher i key n x) = beInt x ^ key % n := by
  rcases List.mem_pair.1 hi with rfl | rfl
  · exact beInt_beBytes ((Nat.mod_lt _ (Nat.pos_of_ne_zero hn)).trans (lt_pow_byteLength n))
  · exact beInt_minimal _

/-- R79, R80: a block command whose modulus and input block `x` pass their checks. -/
theorem exec_block (hi : i ∈ [.encBlock, .decBlock]) (hn : s.n ≠ 0) (hl : s.inLen.toNat ≤ blockLimit i s.modLen)
    (hx : s.inBuf.bytesFrom 0 s.inLen.toNat = x) :
    exec i s = .next ((s.storeBlock (blockCipher i s.e s.n x) (beInt x ^ s.e % s.n)).complete .ok) := by
  subst hx
  have hpow : s.blockPow = beInt (s.inBuf.bytesFrom 0 s.inLen.toNat) ^ s.e % s.n := blockPow_eq hn
  rw [← hpow]
  rcases List.mem_pair.1 hi with rfl | rfl
  all_goals
    rw [blockCipher, ← hpow]
    exact (withModulus_pos hn _).trans (withBlockLen_fits hl _)

/-- R63, check 3, of a block command. -/
theorem exec_block_tooLong (hi : i ∈ [.encBlock, .decBlock]) (hn : s.n ≠ 0)
    (hl : blockLimit i s.modLen < s.inLen.toNat) : exec i s = .next (s.complete .length) := by
  rcases List.mem_pair.1 hi with rfl | rfl <;> exact (withModulus_pos hn _).trans (withBlockLen_long hl _)

/-- OUT_LEN after a block command: the field of 16 bits is wide enough. -/
theorem storeBlock_blockCipher_outLen (hmax : s.modLen < 2 ^ 16) (hn : s.n ≠ 0) (i : Instr) (x : List Byte)
    (v : Nat) : (s.storeBlock (blockCipher i s.e s.n x) v).outLen.toNat = (blockCipher i s.e s.n x).length :=
  storeBlock_outLen v ((blockCipher_length_le i hn s.e x).trans_lt hmax)

/-- R79, R80: what a host that reads OUT_LEN and then OUT_BUF finds after a block command. -/
theorem exec_block_output (hmax : s.modLen < 2 ^ 16) (hi : i ∈ [.encBlock, .decBlock]) (hn : s.n ≠ 0)
    (hl : s.inLen.toNat ≤ blockLimit i s.modLen) (hx : s.inBuf.bytesFrom 0 s.inLen.toNat = x) :
    ∃ t, exec i s = .next t ∧ t.err = 0 ∧ t.r = beInt x ^ s.e % s.n ∧ t.n = s.n ∧
      t.outLen.toNat ≤ byteLength s.n ∧ t.outBuf.bytesFrom 0 t.outLen.toNat = blockCipher i s.e s.n x := by
  have hlen := storeBlock_blockCipher_outLen hmax hn i x (beInt x ^ s.e % s.n)
  refine ⟨_, exec_block hi hn hl hx, rfl, rfl, rfl, hlen.trans_le (blockCipher_length_le i hn s.e x), ?_⟩
  rw [State.complete_outLen, hlen]
  exact storeBlock_bytes (s := s) _ (beInt x ^ s.e % s.n)

/-- R79, R80: what a block command writes, when its checks pass. -/
theorem exec_block_result (hinv : s.Inv) (hi : i ∈ [.encBlock, .decBlock]) (hn : s.n ≠ 0)
    (hl : s.inLen.toNat ≤ blockLimit i s.modLen) (hx : s.inBuf.bytesFrom 0 s.inLen.toNat = x) : ∃ out len,
      exec i s = .next { s with
        outBuf := out, outLen := len, r := beInt x ^ s.e % s.n, err := 0, busy := false, done := true } ∧
      len.toNat = (blockCipher i s.e s.n x).length ∧
      beInt (out.bytesFrom 0 len.toNat) = beInt x ^ s.e % s.n ∧ ∀ k, len.toNat ≤ k → out.read k = 0 := by
  have hlen := storeBlock_blockCipher_outLen hinv.modLen_lt hn i x (beInt x ^ s.e % s.n)
  refine ⟨_, _, exec_block hi hn hl hx, hlen, ?_, fun k hk => ?_⟩
  · rw [hlen, storeBlock_bytes, beInt_blockCipher hi hn]
  · rw [storeBlock_read, List.getD_eq_default _ _ (hlen ▸ hk)]

/-- Settles O16: the checks in order, then a block of exactly `L` bytes. -/
theorem encBlockResult : Obligations.EncBlockResult := by
  refine ⟨decode_encode .encBlock, fun s hinv => ⟨exec_of_modulus_zero (by decide),
    exec_block_tooLong (i := .encBlock) (by decide), fun hn hl => ?_⟩⟩
  obtain ⟨out, len, hexec, hlen, hbytes⟩ := exec_block_result (i := .encBlock) hinv (by decide) hn hl rfl
  exact ⟨out, len, hexec, hlen.trans (beBytes_length _ _), hbytes⟩

/-- Settles O17: the checks in order, then a minimal block. -/
theorem decBlockResult : Obligations.DecBlockResult := by
  refine ⟨decode_encode .decBlock, fun s hinv => ⟨exec_of_modulus_zero (by decide),
    exec_block_tooLong (i := .decBlock) (by decide), fun hn hl => ?_⟩⟩
  obtain ⟨out, len, hexec, hlen, hbytes⟩ := exec_block_result (i := .decBlock) hinv (by decide) hn hl rfl
  exact ⟨out, len, hexec, hlen.trans (minimal_length _), hbytes⟩

/-- Settles O22: `k` bytes spell an integer below `256^k`, and `N` needs all its `L` bytes. -/
theorem plaintextBlockIsBelowModulus : Obligations.PlaintextBlockIsBelowModulus := fun _ x hn hx =>
  ⟨(beInt_lt x).trans_le (Nat.pow_le_pow_right (by decide) hx), pow_byteLength_pred_le (Nat.ne_zero_of_lt hn)⟩

/-! ## There and back -/

/-- R87: the paired exponent takes a plaintext block's integer back. -/
theorem beInt_blockCipher_pow_mod {e d : Nat} (hn : n ≠ 0) (hkey : ∀ m, m < n → (m ^ e) ^ d % n = m)
    (hx : x.length ≤ byteLength n - 1) : beInt (blockCipher .encBlock e n x) ^ d % n = beInt x := by
  rw [beInt_blockCipher (by decide) hn, ← Nat.pow_mod]
  exact hkey _ (beInt_lt_modulus hn hx)

/-- Settles O51: DEC_BLOCK reads the block that ENC_BLOCK wrote, of exactly `L` bytes. -/
theorem blockRoundTrip : Obligations.BlockRoundTrip := by
  intro s d hinv hn hl hkey
  generalize hx : s.inBuf.bytesFrom 0 s.inLen.toNat = x
  have hlen : x.length ≤ byteLength s.n - 1 := by rwa [← hx, Memory.bytesFrom_length]
  have hback := beInt_blockCipher_pow_mod hn hkey hlen
  obtain ⟨t, ht, -, -, htn, htlen, htout⟩ := exec_block_output (i := .encBlock) hinv.modLen_lt (by decide) hn hl hx
  have hmod : t.modLen = s.modLen := congrArg byteLength htn
  obtain ⟨u, hu, herr, hr, -, -, hout⟩ :=
    exec_block_output (s := { t with inBuf := t.outBuf, inLen := t.outLen, e := d }) (i := .decBlock)
      (hmod.trans_lt hinv.modLen_lt) (by decide) (htn ▸ hn) (htlen.trans_eq hmod.symm) htout
  simp only [htn] at hr hout
  exact ⟨t, u, ht, hu, herr, hr.trans hback, hout.trans (congrArg minimal hback)⟩

end Sys2Proof.Machine
end

section
/-! PROOFS. A generated key pair undoes itself on every residue (R74, R87). -/

namespace Sys2Proof.Machine

/-- Fermat: modulo a prime `p`, an exponent that is 1 modulo `p - 1` changes no number, multiples of `p` included. -/
theorem pow_mul_pred_add_one_modEq {p : Nat} (hp : p.Prime) (m k : Nat) : m ^ ((p - 1) * k + 1) ≡ m [MOD p] := by
  by_cases hm : p ∣ m
  · exact (Nat.modEq_zero_iff_dvd.2 (dvd_pow hm (Nat.succ_ne_zero _))).trans (Nat.modEq_zero_iff_dvd.2 hm).symm
  · have hfermat : m ^ (p - 1) ≡ 1 [MOD p] := by
      rw [← Nat.totient_prime hp]
      exact Nat.ModEq.pow_totient ((Nat.Prime.coprime_iff_not_dvd hp).2 hm).symm
    calc m ^ ((p - 1) * k + 1) = (m ^ (p - 1)) ^ k * m := by rw [pow_succ, pow_mul]
      _ ≡ 1 ^ k * m [MOD p] := (hfermat.pow k).mul_right m
      _ = m := by rw [one_pow, one_mul]

/-- R87: exponents inverse modulo `(p-1)*(q-1)` undo each other modulo `p*q`. -/
theorem pow_pow_modEq_of_inverse {p q : Nat} (hp : p.Prime) (hq : q.Prime) (hne : p ≠ q) {e d : Nat}
    (hed : e * d % ((p - 1) * (q - 1)) = 1) (m : Nat) : (m ^ e) ^ d ≡ m [MOD p * q] := by
  obtain ⟨k, hk⟩ : ∃ k, e * d = (p - 1) * (q - 1) * k + 1 :=
    ⟨_, (Nat.div_add_mod _ _).symm.trans (congrArg _ hed)⟩
  rw [← pow_mul, hk]
  refine (Nat.modEq_and_modEq_iff_modEq_mul ((Nat.coprime_primes hp hq).2 hne)).1 ⟨?_, ?_⟩
  · rw [Nat.mul_assoc]
    exact pow_mul_pred_add_one_modEq hp m _
  · rw [Nat.mul_comm (p - 1), Nat.mul_assoc]
    exact pow_mul_pred_add_one_modEq hq m _

/-- R74: `keygen` answers nothing unless `p*q` fits N. -/
theorem keygen_fits {s t : State} {waits : Nat → WaitSteps} {p q e d n : Nat} {draws : List (List Byte)}
    (h : keygen waits p q draws s = some (t, e, d, n)) : p * q < 2 ^ (8 * s.cfg.maxBytes) := by
  by_contra hlarge
  rw [keygen, if_neg hlarge] at h
  cases h

/-- Settles O59: a key that `keygen` answers is inverse modulo `(p-1)*(q-1)`. -/
theorem generatedKeysInvertEachOther : Obligations.GeneratedKeysInvertEachOther := by
  intro s t waits p q draws e d n hi hidle hr hquiet hp hq hne hkey m hm
  obtain ⟨rfl, -, -, -, -, hed⟩ :=
    (keygenAnswersInverseExponents s waits p q draws hi hidle hr hquiet (keygen_fits hkey)).1 t e d n hkey
  exact Nat.mod_eq_of_modEq (pow_pow_modEq_of_inverse hp hq hne hed m) hm

end Sys2Proof.Machine
end

section
/-! PROOFS. The host procedures: one block of a stream, from `ldbuf` to `rdbuf` (R58, R83, R84). -/

namespace Sys2Proof.Machine

variable {s t : State} {c : Config} {i : Instr} {key n : Nat} {x : List Byte}

/-! ## What a stream procedure finds -/

/-- What a stream procedure needs of the machine with the parameters `c`: they are legal, the reset input is low, N and
E are within the capacity and IN_BUF is in canonical form. -/
structure StreamSafe (c : Config) (s : State) : Prop where
  cfg : s.cfg = c
  config : s.cfg.ok = true
  line : s.rstLine = false
  nFits : s.n < 2 ^ (8 * s.cfg.maxBytes)
  eFits : s.e < 2 ^ (8 * s.cfg.maxBytes)
  inBuf : s.inBuf.wf

theorem State.Inv.streamSafe (hi : s.Inv) (hr : s.rstLine = false) : StreamSafe s.cfg s := by
  obtain ⟨-, -, he, hn, -⟩ := hi.registers
  exact ⟨rfl, hi.config, hr, hn, he, hi.buffers.1⟩

/-- It depends on the parameters, the operands and the reset input alone. -/
theorem StreamSafe.of_operands (h : StreamSafe c s) (hcfg : t.cfg = s.cfg) (hline : t.rstLine = false)
    (hop : t.operands = s.operands) : StreamSafe c t := by
  obtain ⟨-, -, he, hn, hbuf, -⟩ := State.operands_eq_iff.1 hop
  obtain ⟨hc, hok, -, hnf, hef, hwf⟩ := h
  exact ⟨hcfg.trans hc, hcfg ▸ hok, hline, by rwa [hn, hcfg], by rwa [he, hcfg], hbuf ▸ hwf⟩

/-- What every round of a stream procedure finds (R83, R84): MEE idle, with the key in E and N. -/
structure StreamReady (c : Config) (key n : Nat) (s : State) : Prop extends StreamSafe c s where
  idle : s.busy = false
  exponent : s.e = key
  modulus : s.n = n

theorem StreamReady.byteLength_le (h : StreamReady c key n s) : byteLength n ≤ c.maxBytes :=
  byteLength_le_of_fits (h.cfg ▸ h.modulus ▸ h.nFits)

theorem blockLimit_le (i : Instr) (len : Nat) : blockLimit i len ≤ len := by
  cases i with
  | encBlock => exact Nat.sub_le len 1
  | decBlock => exact le_rfl
  | nop | modmul | modexp | modinv => exact Nat.zero_le len

/-! ## Loading a block -/

/-- Word `k` of a byte string is word `k` of the buffer that holds it (R29, R58). -/
theorem stringWord_eq_readWord (x : List Byte) (k : Nat) : stringWord x k = (Memory.ofBytes x).readWord k := by
  simp only [stringWord, Memory.readWord, Memory.read_ofBytes]

/-- One word of `ldbuf` (R29, R58). -/
theorem play_wr_inBuf (hc : s.cfg.ok = true) (hr : s.rstLine = false) (hidle : s.busy = false) {k : Nat}
    (hk : k < s.cfg.maxBytes / 4) (w : Word) :
    play [wr s.cfg (0x7000 + 4 * k) w] s =
      some ({ s with inBuf := s.inBuf.writeWord k w, agenda := [], resp := .written }, [.written]) := by
  have hserved : ServedAs s.cfg (0x7000 + 4 * k) (.word .inBuf k) := servedAs_window hc .inBuf hk rfl
  obtain ⟨ho, ha, hreg⟩ := hserved
  have hwrite : (s.withAgenda []).effectOfWrite (.word .inBuf k) w = _ :=
    writeOperand_idle (s := s.withAgenda []) hidle _
  rw [play_wr hr hc ho ha, hreg, State.writeReg, hwrite]
  rfl

/-- The first `m` words of `ldbuf`: the first `4 * m` bytes of IN_BUF are those of the string, 0x00 past its end. -/
theorem play_ldbuf_words (hc : s.cfg.ok = true) (hr : s.rstLine = false) (hidle : s.busy = false) (hwf : s.inBuf.wf)
    (x : List Byte) {m : Nat} (hm : m ≤ s.cfg.maxBytes / 4) :
    ∃ buf steps answer rs, play ((List.range m).map fun k => wr s.cfg (0x7000 + 4 * k) (stringWord x k)) s =
        some ({ s with inBuf := buf, agenda := steps, resp := answer }, rs) ∧
      buf.wf ∧ ∀ j < 4 * m, buf.read j = x.getD j 0 := by
  induction m with
  | zero => exact ⟨s.inBuf, s.agenda, s.resp, [], rfl, hwf, fun j hj => absurd hj (Nat.not_lt_zero j)⟩
  | succ m ih =>
    obtain ⟨buf, steps, answer, rs, hp, hbuf, hread⟩ := ih (by omega)
    have hlast := play_wr_inBuf (s := { s with inBuf := buf, agenda := steps, resp := answer }) hc hr hidle
      (k := m) (by simpa using hm) (stringWord x m)
    rw [List.range_succ, List.map_append]
    refine ⟨_, _, _, _, play_append_eq hp hlast, Memory.wf_writeWord hbuf m _, fun j hj => ?_⟩
    rw [Memory.read_writeWord hbuf]
    split
    · next hjm =>
      rw [stringWord_eq_readWord, wordByte_readWord _ _ _ (Nat.mod_lt j (by decide)), Memory.read_ofBytes, ← hjm,
        Nat.div_add_mod]
    · next hjm => exact hread j (by omega)

/-- `setlen` of an idle machine (R24, R58). -/
theorem play_setlen (hc : s.cfg.ok = true) (hr : s.rstLine = false) (hidle : s.busy = false) (len : Nat) :
    play (setlen s.cfg len) s =
      some ({ s with inLen := BitVec.ofNat 16 len, agenda := [], resp := .written }, [.written]) := by
  obtain ⟨-, -, -, -, -, hreg, -⟩ := regAt_controls s.cfg
  have hwrite : (s.withAgenda []).effectOfWrite .inLen (BitVec.ofNat 32 len) = _ :=
    writeOperand_idle (s := s.withAgenda []) hidle _
  have hfield : (BitVec.ofNat 32 len).extractLsb' 0 16 = BitVec.ofNat 16 len := by
    apply BitVec.eq_of_toNat_eq
    simp
  rw [setlen, play_wr hr hc (by decide) (by decide), hreg, State.writeReg, hwrite, hfield]
  rfl

/-- `ldbuf` and `setlen`: the input block of the next command is the string (R54, R58). -/
theorem play_loadBlock (h : StreamReady c key n s) (hx : x.length ≤ c.maxBytes) :
    ∃ t rs, play (ldbuf c x ++ setlen c x.length) s = some (t, rs) ∧ StreamReady c key n t ∧
      t.inBuf.bytesFrom 0 t.inLen.toNat = x := by
  obtain ⟨⟨rfl, hc, hr, hnf, hef, hwf⟩, hidle, he, hn⟩ := h
  obtain ⟨h4, -, hmax, -⟩ := (config_ok_iff s.cfg).1 hc
  obtain ⟨buf, steps, answer, rs, hp, hbuf, hread⟩ :=
    play_ldbuf_words hc hr hidle hwf x (m := (x.length + 3) / 4) (by omega)
  have hset := play_setlen (s := { s with inBuf := buf, agenda := steps, resp := answer }) hc hr hidle x.length
  refine ⟨_, _, play_append_eq hp hset, ⟨⟨rfl, hc, hr, hnf, hef, hbuf⟩, hidle, he, hn⟩, ?_⟩
  show buf.bytesFrom 0 (x.length % 2 ^ 16) = x
  rw [Nat.mod_eq_of_lt (by omega)]
  refine byteString_ext (Memory.bytesFrom_length _ _ _) fun k hk => ?_
  rw [Memory.bytesFrom_length] at hk
  rw [Memory.bytesFrom_getD _ _ _ _ hk, Nat.zero_add, hread k (by omega)]

/-! ## Reading a block -/

/-- R58: the bytes of `rdbuf`, out of the words it reads. -/
theorem bytesOfAnswers_readWords (m : Memory) (len : Nat) :
    bytesOfAnswers len ((List.range ((len + 3) / 4)).map fun k => .data (m.readWord k)) = m.bytesFrom 0 len := by
  refine byteString_ext (by simp [bytesOfAnswers]) fun k hk => ?_
  have hk : k < len := by simpa [bytesOfAnswers] using hk
  have hword : k / 4 < (len + 3) / 4 := by omega
  rw [Memory.bytesFrom_getD _ _ _ _ hk]
  simp [bytesOfAnswers, hk, hword, Response.word, wordByte_readWord, Nat.mod_lt, Nat.div_add_mod]

/-- `rd OUT_LEN -> t` and `rdbuf t` (R25, R58). -/
theorem play_readBlock (h : StreamReady c key n s) (hlen : s.outLen.toNat ≤ c.maxBytes) :
    ∃ t w u rs, readOff 0x0018 s = some (t, w) ∧ play (rdbuf c w.toNat) t = some (u, rs) ∧
      StreamReady c key n u ∧ bytesOfAnswers w.toNat rs = s.outBuf.bytesFrom 0 s.outLen.toNat := by
  obtain ⟨⟨rfl, hc, hr, hnf, hef, hwf⟩, hidle, he, hn⟩ := h
  obtain ⟨h4, -⟩ := (config_ok_iff s.cfg).1 hc
  have hread := readOff_idle hr hc hidle (servedAs_control (off := 0x0018) (by decide) (by decide))
  have hw : s.outLenWord.toNat = s.outLen.toNat := halfWord_toNat s.outLen
  obtain ⟨steps, answer, hp⟩ := play_readWindow (s := { s with agenda := [], resp := .data s.outLenWord }) hc hr hidle
    .outBuf (m := (s.outLenWord.toNat + 3) / 4) (by show (_ + 3) / 4 ≤ s.cfg.maxBytes / 4; omega)
  refine ⟨_, s.outLenWord, _, _, hread, hp, ⟨⟨rfl, hc, hr, hnf, hef, hwf⟩, hidle, he, hn⟩, ?_⟩
  rw [← hw]
  exact bytesOfAnswers_readWords s.outBuf _

/-! ## One block -/

/-- R83, R84: one block of a stream, where only the engine acts during the wait: its output block is read, and MEE
is ready for the next one. -/
theorem runBlock_quiet (h : StreamReady c key n s) (hi : i ∈ [.encBlock, .decBlock]) (hn : n ≠ 0)
    (hx : x.length ≤ blockLimit i (byteLength n)) {others : WaitSteps} (hq : others.quiet) :
    ∃ t w, runBlock i others s x = some (t, w, blockCipher i key n x) ∧ errField w = 0 ∧ StreamReady c key n t := by
  have hL := h.byteLength_le
  obtain ⟨-, -, hmax, -⟩ := (config_ok_iff c).1 (h.cfg ▸ h.config)
  obtain ⟨s1, rs, hload, h1, hblock⟩ := play_loadBlock h ((hx.trans (blockLimit_le i _)).trans hL)
  have hmod : s1.modLen = byteLength n := congrArg byteLength h1.modulus
  have hinLen : s1.inLen.toNat = x.length := by rw [← hblock, Memory.bytesFrom_length]
  obtain ⟨u, hu, herr, -, -, hulen, hout⟩ :=
    exec_block_output (by omega) hi (h1.modulus ▸ hn) (by rwa [hinLen, hmod]) hblock
  rw [h1.modulus] at hulen
  rw [h1.exponent, h1.modulus] at hout
  obtain ⟨s2, w, hrun, hw, hcfg, hline, hidle, hop, hres⟩ := runCommand_quiet h1.config h1.line h1.idle hu hq
  obtain ⟨-, -, hbufEq, hlenEq⟩ := State.results_eq_iff.1 hres
  obtain ⟨-, -, he, hn2, -⟩ := State.operands_eq_iff.1 hop
  have h2 : StreamReady c key n s2 :=
    ⟨h1.toStreamSafe.of_operands hcfg hline hop, hidle, he.trans h1.exponent, hn2.trans h1.modulus⟩
  obtain ⟨s3, len, s4, rs', hread, hrdbuf, h4, hbytes⟩ := play_readBlock h2 (hlenEq ▸ hulen.trans hL)
  rw [hlenEq, hbufEq, hout] at hbytes
  refine ⟨s4, w, ?_, hw.trans herr, h4⟩
  rw [runBlock, h.cfg, hload, Option.bind_some, hrun, Option.bind_some, if_pos (hw.trans herr), hread,
    Option.bind_some, hrdbuf, Option.map_some, hbytes]

end Sys2Proof.Machine
end

section
/-! PROOFS. The host procedures: the blocks of a stream, and the stream loop round by round (R82 to R85). -/

namespace Sys2Proof.Machine

/-! ## The blocks of a stream -/

variable {size m : Nat} {inp : List Byte}

theorem streamBlocks_length (size : Nat) (inp : List Byte) :
    (streamBlocks size inp).length = (inp.length + size - 1) / size := by simp [streamBlocks]

/-- Block `m` is there when a read after `m` blocks returns a byte. -/
theorem lt_streamBlocks_length_iff : m < (streamBlocks size inp).length ↔ 0 < size ∧ m * size < inp.length := by
  rw [streamBlocks_length]
  rcases Nat.eq_zero_or_pos size with rfl | hs
  · simp
  · rw [Nat.lt_iff_add_one_le, Nat.le_div_iff_mul_le hs, Nat.add_one_mul]
    omega

/-- Every read before the stream's end is a block, and the one after the last block is empty (R82). -/
theorem take_drop_eq_nil_iff : (inp.drop (m * size)).take size = [] ↔ (streamBlocks size inp).length ≤ m := by
  rw [← Nat.not_lt, lt_streamBlocks_length_iff, List.take_eq_nil_iff, List.drop_eq_nil_iff]
  omega

/-- The first blocks of a stream. -/
theorem take_streamBlocks (hm : m ≤ (streamBlocks size inp).length) :
    (streamBlocks size inp).take m = (List.range m).map fun q => (inp.drop (q * size)).take size := by
  rw [streamBlocks_length] at hm
  rw [streamBlocks, ← List.map_take, List.take_range, Nat.min_eq_left hm]

theorem take_succ_streamBlocks (hm : m < (streamBlocks size inp).length) :
    (streamBlocks size inp).take (m + 1) = (streamBlocks size inp).take m ++ [(inp.drop (m * size)).take size] := by
  rw [take_streamBlocks hm, take_streamBlocks hm.le, List.range_succ, List.map_append, List.map_singleton]

/-- A block is never longer than `size` (R82). -/
theorem length_le_of_mem_streamBlocks {x : List Byte} (hx : x ∈ streamBlocks size inp) : x.length ≤ size := by
  obtain ⟨q, -, rfl⟩ := List.mem_map.1 hx
  exact List.length_take_le _ _

theorem flatten_take_streamBlocks (hm : m ≤ (streamBlocks size inp).length) :
    ((streamBlocks size inp).take m).flatten = inp.take (m * size) := by
  induction m with
  | zero => simp
  | succ m ih =>
    rw [take_succ_streamBlocks hm, List.flatten_append, ih (Nat.le_of_succ_le hm), List.flatten_singleton,
      Nat.add_one_mul, List.take_add]

/-- The blocks of a stream, one after the other, are the stream (R82). -/
theorem flatten_streamBlocks (hs : 0 < size) (inp : List Byte) : (streamBlocks size inp).flatten = inp := by
  have hall : inp.length ≤ (streamBlocks size inp).length * size :=
    Nat.not_lt.1 fun h => Nat.lt_irrefl _ (lt_streamBlocks_length_iff.2 ⟨hs, h⟩)
  have h := flatten_take_streamBlocks (size := size) (inp := inp) le_rfl
  rwa [List.take_length, List.take_of_length_le hall] at h

theorem streamBlocks_nil (size : Nat) : streamBlocks size [] = [] :=
  List.length_eq_zero_iff.1 (Nat.eq_zero_of_not_pos fun h => by simpa using lt_streamBlocks_length_iff.1 h)

/-- A stream begins with its first block. -/
theorem streamBlocks_eq_cons (hs : 0 < size) (hinp : inp ≠ []) :
    streamBlocks size inp = inp.take size :: streamBlocks size (inp.drop size) := by
  have hpos := List.length_pos_of_ne_nil hinp
  have hcount : (inp.length + size - 1) / size = ((inp.drop size).length + size - 1) / size + 1 := by
    rw [← Nat.add_div_right _ hs, List.length_drop]
    rcases Nat.le_total size inp.length with h | h
    · congr 1
      omega
    · rw [Nat.sub_eq_zero_of_le h, Nat.div_eq_of_lt_le (k := 1) (by omega) (by omega),
        Nat.div_eq_of_lt_le (k := 1) (by omega) (by omega)]
  rw [streamBlocks, hcount, List.range_succ_eq_map, List.map_cons, List.map_map, Nat.zero_mul, List.drop_zero]
  refine congrArg _ (List.map_congr_left fun q _ => ?_)
  simp only [Function.comp_apply, List.drop_drop, Nat.succ_mul, Nat.add_comm]

/-- The first bytes of a stream hold its first blocks (R85). -/
theorem streamBlocks_take (hm : m ≤ (streamBlocks size inp).length) :
    streamBlocks size (inp.take (m * size)) = (streamBlocks size inp).take m := by
  induction m generalizing inp with
  | zero => rw [Nat.zero_mul, List.take_zero, streamBlocks_nil, List.take_zero]
  | succ m ih =>
    obtain ⟨hs, hlt⟩ := lt_streamBlocks_length_iff.1 hm
    have hinp : inp ≠ [] := List.ne_nil_of_length_pos (Nat.zero_lt_of_lt hlt)
    rw [streamBlocks_eq_cons hs hinp] at hm ⊢
    have htake : inp.take ((m + 1) * size) ≠ [] := by
      rw [Ne, List.take_eq_nil_iff]
      rintro (h | h)
      · exact absurd (Nat.mul_eq_zero.1 h) (by omega)
      · exact hinp h
    have hle : size ≤ (m + 1) * size := Nat.le_mul_of_pos_left size m.succ_pos
    rw [List.take_succ_cons, ← ih (Nat.le_of_succ_le_succ hm), streamBlocks_eq_cons hs htake, List.take_take,
      Nat.min_eq_left hle, List.drop_take, Nat.add_one_mul, Nat.add_sub_cancel]

/-- Strings of `size` bytes each, one after the other, are read back as the stream's blocks. -/
theorem streamBlocks_flatten (hs : 0 < size) {xs : List (List Byte)} (hxs : ∀ x ∈ xs, x.length = size) :
    streamBlocks size xs.flatten = xs := by
  induction xs with
  | nil => exact streamBlocks_nil size
  | cons x xs ih =>
    obtain ⟨hx, hxs⟩ := List.forall_mem_cons.1 hxs
    have hne : x ++ xs.flatten ≠ [] :=
      List.append_ne_nil_of_left_ne_nil (List.ne_nil_of_length_pos (hx ▸ hs)) _
    rw [List.flatten_cons, streamBlocks_eq_cons hs hne, List.take_left' hx, List.drop_left' hx, ih hxs]

end Sys2Proof.Machine
end

section
/-! PROOFS. The host procedures: the stream loop round by round, and how it ends (R83 to R85). -/

namespace Sys2Proof.Machine

variable {s : State} {c : Config} {i : Instr} {key n size k m blocks : Nat} {inp out : List Byte}
  {waits : Nat → WaitSteps} {bad : StreamFaults}

/-! ## Which read or emit fails first -/

/-- R85: no read and no emit of the first `m` rounds fails. -/
def StreamFaults.clearBelow (bad : StreamFaults) (m : Nat) : Prop :=
  ∀ k < m, bad.read ≠ some k ∧ bad.emit ≠ some k

theorem StreamFaults.stopsAfter.clearBelow (h : bad.stopsAfter blocks m) : bad.clearBelow m := by
  intro k hk
  rcases h with ⟨hread, -, hemit⟩ | ⟨hemit, -, hread⟩
  · refine ⟨fun hk' => ?_, fun hk' => ?_⟩
    · exact absurd (Option.some.inj (hread.symm.trans hk')) (Nat.ne_of_gt hk)
    · exact absurd (hemit k hk') (Nat.not_le.2 hk)
  · refine ⟨fun hk' => ?_, fun hk' => ?_⟩
    · exact absurd (hread k hk') (Nat.lt_asymm hk)
    · exact absurd (Option.some.inj (hemit.symm.trans hk')) (Nat.ne_of_gt hk)

theorem StreamFaults.stopsAfter.le (h : bad.stopsAfter blocks m) : m ≤ blocks := by
  rcases h with ⟨-, h, -⟩ | ⟨-, h, -⟩
  · exact h
  · exact h.le

theorem StreamFaults.clearBelow_succ :
    bad.clearBelow (m + 1) ↔ bad.clearBelow m ∧ bad.read ≠ some m ∧ bad.emit ≠ some m := Nat.forall_lt_succ_right

/-- R85: where the stream stops at no failure, nothing fails up to the empty read that ends it. -/
theorem StreamFaults.clear_of_never_stops (h : ∀ m, ¬ bad.stopsAfter blocks m) :
    bad.clearBelow blocks ∧ bad.read ≠ some blocks := by
  have hread : ∀ k ≤ blocks, bad.clearBelow k → bad.read ≠ some k := fun k hk hclear hr =>
    h k (.inl ⟨hr, hk, fun j hj => Nat.not_lt.1 fun hjk => (hclear j hjk).2 hj⟩)
  have hemit : ∀ k < blocks, bad.clearBelow k → bad.read ≠ some k → bad.emit ≠ some k :=
    fun k hk hclear hrk he => h k (.inr ⟨he, hk, fun j hj =>
      Nat.lt_of_le_of_ne (Nat.not_lt.1 fun hjk => (hclear j hjk).1 hj) fun hkj => hrk (hkj ▸ hj)⟩)
  have hclear : ∀ k ≤ blocks, bad.clearBelow k := by
    intro k hk
    induction k with
    | zero => exact fun j hj => absurd hj (Nat.not_lt_zero j)
    | succ k ih =>
      have hbelow := ih (Nat.le_of_succ_le hk)
      have hrk := hread k (Nat.le_of_succ_le hk) hbelow
      exact StreamFaults.clearBelow_succ.2 ⟨hbelow, hrk, hemit k hk hbelow hrk⟩
  exact ⟨hclear blocks le_rfl, hread blocks le_rfl (hclear blocks le_rfl)⟩

/-! ## One round -/

/-- R85: a failing read ends the loop. -/
theorem streamLoop_readFails (hread : bad.read = some k) (fuel : Nat) :
    streamLoop i size waits bad (fuel + 1) k s inp out = ⟨s, out, .ioFailure⟩ := by
  rw [streamLoop, if_pos hread]

/-- R82: an empty read ends the loop. -/
theorem streamLoop_end (hread : bad.read ≠ some k) (hinp : inp.take size = []) (fuel : Nat) :
    streamLoop i size waits bad (fuel + 1) k s inp out = ⟨s, out, .returned⟩ := by
  rw [streamLoop, if_neg hread, if_pos hinp]

/-- `inp.length + 1` rounds are enough (R82). -/
theorem streamBlocks_length_le (size : Nat) (inp : List Byte) : (streamBlocks size inp).length ≤ inp.length := by
  refine Nat.not_lt.1 fun h => ?_
  obtain ⟨hs, hlt⟩ := lt_streamBlocks_length_iff.1 h
  exact absurd (Nat.le_mul_of_pos_right inp.length hs) (Nat.not_le.2 hlt)

section
variable (h : StreamReady c key n s) (hi : i ∈ [.encBlock, .decBlock]) (hn : n ≠ 0)
  (hsize : size ≤ blockLimit i (byteLength n)) (hq : ∀ j, (waits j).quiet)
include h hi hn hsize hq

/-- R83, R84: one round, up to its emit. -/
theorem streamLoop_round (k : Nat) (hinp : inp.take size ≠ []) :
    ∃ t, StreamReady c key n t ∧ ∀ bad : StreamFaults, bad.read ≠ some k → ∀ fuel out,
      streamLoop i size waits bad (fuel + 1) k s inp out =
        if bad.emit = some k then ⟨t, out, .ioFailure⟩
        else streamLoop i size waits bad fuel (k + 1) t (inp.drop size)
          (out ++ blockCipher i key n (inp.take size)) := by
  obtain ⟨t, w, hrun, hw, ht⟩ :=
    runBlock_quiet h hi hn ((List.length_take_le size inp).trans hsize) (hq (k + 1))
  refine ⟨t, ht, fun bad hread fuel out => ?_⟩
  rw [streamLoop, if_neg hread, if_neg hinp, hrun]
  exact if_neg (not_not_intro hw)

/-! ## The whole loop -/

/-- The first `m` rounds, if nothing fails in them: MEE is ready, and the first `m` blocks' output is emitted. The
state they end in does not depend on what fails later. -/
theorem streamLoop_rounds (hm : m ≤ (streamBlocks size inp).length) :
    ∃ t, StreamReady c key n t ∧ ∀ bad : StreamFaults, bad.clearBelow m → ∀ fuel,
      streamLoop i size waits bad (fuel + m) 0 s inp [] =
        streamLoop i size waits bad fuel m t (inp.drop (m * size))
          (((streamBlocks size inp).take m).flatMap (blockCipher i key n)) := by
  induction m with
  | zero => exact ⟨s, h, fun bad _ fuel => by simp⟩
  | succ m ih =>
    obtain ⟨t, ht, hrounds⟩ := ih (Nat.le_of_succ_le hm)
    obtain ⟨u, hu, hround⟩ := streamLoop_round ht hi hn hsize hq m (mt take_drop_eq_nil_iff.1 (Nat.not_le.2 hm))
    refine ⟨u, hu, fun bad hclear fuel => ?_⟩
    obtain ⟨hbelow, hread, hemit⟩ := StreamFaults.clearBelow_succ.1 hclear
    rw [← Nat.add_assoc, Nat.add_right_comm, hrounds bad hbelow, hround bad hread, if_neg hemit,
      take_succ_streamBlocks hm, List.flatMap_append, List.flatMap_singleton, List.drop_drop, Nat.add_one_mul]

/-- R83, R84: where no failure is reached the loop returns, with the output of every block. -/
theorem streamLoop_returns (inp : List Byte) :
    ∃ t, StreamReady c key n t ∧ ∀ bad : StreamFaults, (∀ m, ¬ bad.stopsAfter (streamBlocks size inp).length m) →
      streamLoop i size waits bad (inp.length + 1) 0 s inp [] =
        ⟨t, (streamBlocks size inp).flatMap (blockCipher i key n), .returned⟩ := by
  obtain ⟨t, ht, hrounds⟩ := streamLoop_rounds (inp := inp) h hi hn hsize hq le_rfl
  refine ⟨t, ht, fun bad hbad => ?_⟩
  obtain ⟨hclear, hread⟩ := StreamFaults.clear_of_never_stops hbad
  obtain ⟨fuel, hfuel⟩ := Nat.exists_eq_add_of_le' (streamBlocks_length_le size inp)
  rw [hfuel, Nat.add_right_comm, hrounds bad hclear, streamLoop_end hread (take_drop_eq_nil_iff.2 le_rfl),
    List.take_length]

/-- R85: where a failure is reached the loop ends in it, with the output of the blocks before. -/
theorem streamLoop_fails (hbad : bad.stopsAfter (streamBlocks size inp).length m) :
    ∃ t, streamLoop i size waits bad (inp.length + 1) 0 s inp [] =
      ⟨t, ((streamBlocks size inp).take m).flatMap (blockCipher i key n), .ioFailure⟩ := by
  obtain ⟨t, ht, hrounds⟩ := streamLoop_rounds h hi hn hsize hq hbad.le
  obtain ⟨fuel, hfuel⟩ := Nat.exists_eq_add_of_le' (hbad.le.trans (streamBlocks_length_le size inp))
  rw [hfuel, Nat.add_right_comm, hrounds bad hbad.clearBelow]
  rcases hbad with ⟨hread, -, -⟩ | ⟨hemit, hm, hread⟩
  · exact ⟨t, streamLoop_readFails hread fuel⟩
  · obtain ⟨u, -, hround⟩ := streamLoop_round ht hi hn hsize hq m (mt take_drop_eq_nil_iff.1 (Nat.not_le.2 hm))
    exact ⟨u, (hround bad (fun hr => Nat.lt_irrefl m (hread m hr)) fuel _).trans (if_pos hemit)⟩

end

end Sys2Proof.Machine
end

section
/-! PROOFS. The host procedures: `encrypt` and `decrypt` as a whole (R82 to R85), and one after the other (R87). -/

namespace Sys2Proof.Machine

variable {s : State} {c : Config} {i : Instr} {key n : Nat} {inp : List Byte} {waits : Nat → WaitSteps}

/-! ## Before the loop -/

/-- The first `wait`: MEE is idle after it, with the operands as before (R61). -/
theorem waitIdle_streamSafe (h : StreamSafe c s) {others : WaitSteps} (hq : others.quiet) :
    ∃ t ws, waitIdle others s = some (t, ws) ∧ StreamSafe c t ∧ t.busy = false := by
  cases hbusy : s.busy with
  | false =>
    obtain ⟨t, last, hw, -, harch⟩ := waitIdle_quiet_idle h.config h.line hbusy hq
    have hcfg : t.cfg = s.cfg := (congrArg State.cfg harch :)
    have hop : t.operands = s.operands := (congrArg State.operands harch :)
    exact ⟨t, _, hw, h.of_operands hcfg (waitIdle_line_low hq hw h.line) hop,
      (congrArg State.busy harch :).trans hbusy⟩
  | true =>
    obtain ⟨t, ws, last, hw, -, -, -, u, hu, harch⟩ := waitIdle_quiet_busy h.config h.line hbusy hq
    obtain ⟨u', hu', hcomp⟩ := engineStep_completes s
    obtain rfl := Host.Outcome.next.inj (hu.symm.trans hu')
    have hcfg : t.cfg = s.cfg := (congrArg State.cfg harch :).trans hcomp.cfg_draws.1
    have hop : t.operands = s.operands := (congrArg State.operands harch :).trans hcomp.operands
    exact ⟨t, _, hw, h.of_operands hcfg (waitIdle_line_low hq hw h.line) hop,
      (congrArg State.busy harch :).trans hcomp.idle⟩

/-- `ldbig N, n ; ldbig E, key` (R58). -/
theorem play_loadKey (h : StreamSafe c s) (hidle : s.busy = false) (hn : n < 2 ^ (8 * c.maxBytes))
    (hkey : key < 2 ^ (8 * c.maxBytes)) :
    ∃ t rs, play (ldbig c 0x4000 n ++ ldbig c 0x3000 key) s = some (t, rs) ∧ StreamReady c key n t := by
  obtain ⟨rfl, hc, hr, hnf, hef, hwf⟩ := h
  obtain ⟨rs, hloadN : play (ldbig s.cfg 0x4000 n) s = _⟩ := play_ldbig (win := .n) hc hr hidle (by decide) hn hnf
  obtain ⟨rs', hloadE : play (ldbig s.cfg 0x3000 key) (s.loaded .n n) = _⟩ :=
    play_ldbig (s := s.loaded .n n) (win := .e) hc hr hidle (by decide) hkey hef
  exact ⟨_, _, play_append_eq hloadN hloadE, ⟨⟨rfl, hc, hr, hn, hkey, hwf⟩, hidle, rfl, rfl⟩⟩

/-- `rd NLEN` (R26). -/
theorem readOff_nlen (h : StreamReady c key n s) :
    ∃ t w, readOff 0x001C s = some (t, w) ∧ w.toNat = byteLength n ∧ StreamReady c key n t := by
  have hL := h.byteLength_le
  obtain ⟨⟨rfl, hc, hr, hnf, hef, hwf⟩, hidle, he, rfl⟩ := h
  obtain ⟨-, -, hmax, -⟩ := (config_ok_iff s.cfg).1 hc
  have hread := readOff_idle hr hc hidle (servedAs_control (off := 0x001C) (by decide) (by decide))
  refine ⟨_, _, hread, ?_, ⟨⟨rfl, hc, hr, hnf, hef, hwf⟩, hidle, he, rfl⟩⟩
  show (0#16 ++ BitVec.ofNat 16 (byteLength s.n) : Word).toNat = byteLength s.n
  rw [halfWord_toNat, BitVec.toNat_ofNat]
  exact Nat.mod_eq_of_lt (by omega)

theorem StreamFaults.none_stopsAfter (blocks m : Nat) : ¬ StreamFaults.stopsAfter ⟨none, none⟩ blocks m := by
  simp [StreamFaults.stopsAfter]

section
variable (h : StreamSafe c s) (hq : ∀ k, (waits k).quiet) (hn : n ≠ 0) (hnf : n < 2 ^ (8 * c.maxBytes))
  (hkey : key < 2 ^ (8 * c.maxBytes))
include h hq hn hnf hkey

/-- R83, R84: what comes before the loop makes MEE ready for it, whatever the stream and its failures are. -/
theorem streamProcedure_eq (i : Instr) (size : Nat → Nat) :
    ∃ t, StreamReady c key n t ∧ ∀ bad inp, streamProcedure i size waits bad key n inp s =
      streamLoop i (size (byteLength n)) waits bad (inp.length + 1) 0 t inp [] := by
  obtain ⟨s1, ws, hwait, h1, hidle⟩ := waitIdle_streamSafe h (hq 0)
  obtain ⟨s2, rs, hload, h2⟩ := play_loadKey h1 hidle hnf hkey
  obtain ⟨t, w, hread, hlen, ht⟩ := readOff_nlen h2
  refine ⟨t, ht, fun bad inp => ?_⟩
  rw [streamProcedure, h.cfg, if_pos ⟨Nat.one_le_iff_ne_zero.2 hn, hnf, hkey⟩, hwait, Option.bind_some, hload,
    Option.bind_some, hread, ← hlen]

/-! ## The whole procedure -/

variable (hi : i ∈ [.encBlock, .decBlock])
include hi

/-- R83, R84: the procedure returns, with the output of every block, and MEE ready for the next one. -/
theorem streamProcedure_returns (inp : List Byte) :
    ∃ t, StreamReady c key n t ∧ ∀ bad : StreamFaults,
      (∀ m, ¬ bad.stopsAfter (streamBlocks (blockLimit i (byteLength n)) inp).length m) →
      streamProcedure i (blockLimit i) waits bad key n inp s =
        ⟨t, (streamBlocks (blockLimit i (byteLength n)) inp).flatMap (blockCipher i key n), .returned⟩ := by
  obtain ⟨t, ht, heq⟩ := streamProcedure_eq h hq hn hnf hkey i (blockLimit i)
  obtain ⟨u, hu, hloop⟩ := streamLoop_returns ht hi hn le_rfl hq inp
  exact ⟨u, hu, fun bad hbad => (heq bad inp).trans (hloop bad hbad)⟩

/-- R83, R84: the same where no read and no emit fails. -/
theorem streamProcedure_noFaults (inp : List Byte) :
    ∃ t, StreamReady c key n t ∧ streamProcedure i (blockLimit i) waits ⟨none, none⟩ key n inp s =
      ⟨t, (streamBlocks (blockLimit i (byteLength n)) inp).flatMap (blockCipher i key n), .returned⟩ := by
  obtain ⟨t, ht, hret⟩ := streamProcedure_returns h hq hn hnf hkey hi inp
  exact ⟨t, ht, hret _ (StreamFaults.none_stopsAfter _)⟩

/-- R85: the blocks before the failure are those of the stream's first bytes. -/
theorem streamProcedure_keepsEmitted (inp : List Byte) :
    keepsEmitted (fun bad x => streamProcedure i (blockLimit i) waits bad key n x s) (blockLimit i (byteLength n))
      inp := by
  intro bad
  obtain ⟨t, -, hret⟩ := streamProcedure_returns h hq hn hnf hkey hi inp
  have hwhole := hret ⟨none, none⟩ (StreamFaults.none_stopsAfter _)
  refine ⟨fun m hbad => ?_, fun hbad => (hret bad hbad).trans hwhole.symm⟩
  obtain ⟨u, hready, heq⟩ := streamProcedure_eq h hq hn hnf hkey i (blockLimit i)
  obtain ⟨v, hloop⟩ := streamLoop_fails hready hi hn le_rfl hq hbad
  obtain ⟨w, -, hfirst⟩ :=
    streamProcedure_noFaults h hq hn hnf hkey hi (inp.take (blockLimit i (byteLength n) * m))
  rw [Nat.mul_comm, streamBlocks_take hbad.le] at hfirst
  simp only [heq bad, hloop, hwhole, Nat.mul_comm _ m, hfirst, true_and]
  exact ⟨((streamBlocks _ inp).drop m).flatMap _, by rw [← List.flatMap_append, List.take_append_drop]⟩

end

/-- Every block ENC_BLOCK makes has exactly `L` bytes (R79). -/
theorem flatMap_encBlock_length (key n : Nat) (xs : List (List Byte)) :
    (xs.flatMap (blockCipher .encBlock key n)).length = byteLength n * xs.length := by
  induction xs with
  | nil => rfl
  | cons x xs ih =>
    rw [List.flatMap_cons, List.length_append, ih, blockCipher, beBytes_length, List.length_cons]
    ring

/-- Settles O57: both procedures end as their loop does, and each of `encrypt`'s output blocks has `L` bytes. -/
theorem encryptOutputLength : Obligations.EncryptOutputLength := by
  intro s waits key n inp hinv hr hq hn1 hnf hkey
  have h := hinv.streamSafe hr
  have hn := Nat.ne_zero_of_lt hn1
  obtain ⟨t, -, henc : encrypt waits ⟨none, none⟩ key n inp s = _⟩ :=
    streamProcedure_noFaults (i := .encBlock) h hq hn hnf hkey (by decide) inp
  obtain ⟨u, -, hdec : decrypt waits ⟨none, none⟩ key n inp s = _⟩ :=
    streamProcedure_noFaults (i := .decBlock) h hq hn hnf hkey (by decide) inp
  rw [henc, hdec]
  refine ⟨rfl, fun _ => ?_, fun hsmall => ?_, rfl, ?_, ?_⟩
  · exact (flatMap_encBlock_length key n _).trans (congrArg _ (streamBlocks_length _ _))
  · have hL : byteLength n ≤ 1 := (byteLength_le_iff n 1).2 (by omega)
    have hnone : streamBlocks (blockLimit .encBlock (byteLength n)) inp = [] := by
      rw [blockLimit, Nat.sub_eq_zero_of_le hL, ← List.length_eq_zero_iff, streamBlocks_length, Nat.div_zero]
    rw [hnone, List.flatMap_nil]
  · exact streamProcedure_keepsEmitted (i := .encBlock) h hq hn hnf hkey (by decide) inp
  · exact streamProcedure_keepsEmitted (i := .decBlock) h hq hn hnf hkey (by decide) inp

/-! ## There and back -/

/-- A minimal encoding is no longer than the string it encodes (R12). -/
theorem minimal_beInt_length_le (x : List Byte) : (minimal (beInt x)).length ≤ x.length := by
  rw [minimal_length, byteLength_le_iff]
  exact beInt_lt x

/-- R12: what a leading 0x00 means for the integer. -/
theorem beInt_cons_lt_iff (b : Byte) (x : List Byte) : beInt (b :: x) < 256 ^ x.length ↔ b = 0 := by
  refine ⟨fun h => BitVec.eq_of_toNat_eq ?_, fun h => ?_⟩
  · by_contra hb
    have := Nat.le_mul_of_pos_left (256 ^ x.length) (Nat.pos_of_ne_zero hb)
    rw [beInt] at h
    omega
  · rw [h]
    exact (beInt_zero_cons x).trans_lt (beInt_lt x)

/-- R12: a string is a minimal encoding exactly when it does not begin with 0x00. -/
theorem minimal_beInt_eq_iff (x : List Byte) : minimal (beInt x) = x ↔ x.head? ≠ some 0 := by
  have hlen : minimal (beInt x) = x ↔ x.length ≤ byteLength (beInt x) := by
    rw [← minimal_length]
    exact ⟨fun h => (congrArg List.length h).ge,
      fun h => beInt_inj (le_antisymm (minimal_beInt_length_le x) h) (beInt_minimal _)⟩
  rw [hlen]
  cases x with
  | nil => simp
  | cons b x =>
    rw [List.length_cons, Nat.succ_le_iff, ← Nat.not_le, byteLength_le_iff, beInt_cons_lt_iff, List.head?_cons, Ne,
      Option.some_inj]

/-- Strings that together are as long as what they are replaced by, each by one no longer, are all kept. -/
theorem flatMap_eq_flatten_iff {α : Type} {f : List α → List α} (hf : ∀ x, (f x).length ≤ x.length)
    (xs : List (List α)) : xs.flatMap f = xs.flatten ↔ ∀ x ∈ xs, f x = x := by
  have hle : ∀ ys : List (List α), (ys.flatMap f).length ≤ ys.flatten.length := by
    intro ys
    induction ys with
    | nil => exact le_rfl
    | cons y ys ih => simpa using Nat.add_le_add (hf y) ih
  induction xs with
  | nil => simp
  | cons x xs ih =>
    rw [List.forall_mem_cons, List.flatMap_cons, List.flatten_cons]
    refine ⟨fun h => ?_, fun ⟨hx, hxs⟩ => by rw [hx, ih.2 hxs]⟩
    have hlen : (f x).length = x.length := by
      have hsum := congrArg List.length h
      rw [List.length_append, List.length_append] at hsum
      exact le_antisymm (hf x) (by have := hle xs; omega)
    obtain ⟨hx, hxs⟩ := List.append_inj h hlen
    exact ⟨hx, ih.1 hxs⟩

/-- R87: DEC_BLOCK takes the blocks that ENC_BLOCK made back to the minimal encodings of their plaintext. -/
theorem decBlocks_encBlocks {e d : Nat} (hn : n ≠ 0) (hkey : ∀ m, m < n → (m ^ e) ^ d % n = m)
    {blocks : List (List Byte)} (hblocks : ∀ b ∈ blocks, b.length ≤ byteLength n - 1) :
    (streamBlocks (byteLength n) (blocks.flatMap (blockCipher .encBlock e n))).flatMap (blockCipher .decBlock d n) =
      blocks.flatMap fun b => minimal (beInt b) := by
  have hfull : ∀ c ∈ blocks.map (blockCipher .encBlock e n), c.length = byteLength n := by
    intro c hc
    obtain ⟨b, -, rfl⟩ := List.mem_map.1 hc
    exact beBytes_length _ _
  rw [List.flatMap_def (f := blockCipher .encBlock e n), streamBlocks_flatten (byteLength_pos hn) hfull,
    List.flatMap_map]
  exact List.flatMap_congr fun b hb => congrArg minimal (beInt_blockCipher_pow_mod hn hkey (hblocks b hb))

/-- Settles O58: block by block, since `decrypt` reads back the blocks of `L` bytes that `encrypt` emitted. -/
theorem streamRoundTrip : Obligations.StreamRoundTrip := by
  intro s waits waits' e d n inp hinv hr hq hn256 hnf he hd hkey
  have hn : n ≠ 0 := by omega
  have hL : 0 < byteLength n - 1 := by
    by_contra h
    have := (byteLength_le_iff n 1).1 (by omega)
    omega
  let blocks := streamBlocks (byteLength n - 1) inp
  let cipher := blocks.flatMap (blockCipher .encBlock e n)
  obtain ⟨t, ht, henc : encrypt waits ⟨none, none⟩ e n inp s = ⟨t, cipher, .returned⟩⟩ :=
    streamProcedure_noFaults (i := .encBlock) (hinv.streamSafe hr) (fun k => (hq k).1) hn hnf he (by decide) inp
  obtain ⟨u, -, hdec : decrypt waits' ⟨none, none⟩ d n cipher t = _⟩ :=
    streamProcedure_noFaults (i := .decBlock) ht.toStreamSafe (fun k => (hq k).2) hn hnf hd (by decide) cipher
  have hback : _ = blocks.flatMap fun b => minimal (beInt b) :=
    decBlocks_encBlocks hn hkey fun b => length_le_of_mem_streamBlocks
  have hsame := flatMap_eq_flatten_iff minimal_beInt_length_le blocks
  rw [flatten_streamBlocks hL] at hsame
  refine ⟨_, _, henc.symm, hdec.symm, rfl, hback, ?_⟩
  rw [← forall₂_congr fun b _ => minimal_beInt_eq_iff b, ← hsame, ← hback]
  exact Iff.rfl

end Sys2Proof.Machine
end

section
/-! PROOFS. The exceptions' statements: what stops a step (R93, R102), and what raises IRQ (R91). -/

namespace Sys2Proof.Machine

variable {s t : State}

/-- Settles O6: of what a step can do, only the host's turn while the reset input is asserted has no next state. -/
theorem stepStopsOnlyOnAccessDuringReset : Obligations.StepStopsOnlyOnAccessDuringReset := by
  intro s
  rcases step_cases s with ⟨-, -, e⟩ | ⟨-, -, t, e, -⟩ | ⟨x, rest, -, -, e⟩ | ⟨x, rest, ha, hr, e⟩ |
    ⟨rest, -, e⟩ | ⟨rest, -, e⟩
  · exact .inl ⟨_, e⟩
  · exact .inl ⟨t, e⟩
  · exact .inl ⟨_, e⟩
  · exact .inr ⟨e, hr, x, rest, ha⟩
  · exact .inl ⟨_, e⟩
  · exact .inl ⟨_, e⟩

theorem State.irq_iff : s.irq = true ↔ s.irqEn = true ∧ s.done = true := Bool.and_eq_true_iff

/-- A completion leaves IRQ_EN (R62). -/
theorem Completion.irqEn (h : Completion s t) : t.irqEn = s.irqEn := by
  obtain ⟨code, ht⟩ := h.frame
  rw [ht]

/-- Of all writes only one of 1 to `CTRL.IRQ_EN` sets it (R21). -/
theorem WriteEffect.sets_irqEn {w : Word} {x : Reg} (h : WriteEffect s w x t) (hclear : s.irqEn = false)
    (hset : t.irqEn = true) : x = .ctrl ∧ w.getLsbD 0 = true := by
  cases h with
  | irqEnable => exact ⟨rfl, hset⟩
  | softReset => exact absurd hset (by simp)
  | _ => exact absurd (hclear.symm.trans hset) (by decide)

/-- No write sets DONE, so one that raises IRQ sets IRQ_EN while DONE = 1 (R91). -/
theorem WriteEffect.raises_irq {w : Word} {x : Reg} (h : WriteEffect s w x t) (hlow : s.irq = false)
    (hhigh : t.irq = true) : x = .ctrl ∧ w.getLsbD 0 = true ∧ s.done = true := by
  obtain ⟨hen, hset⟩ := State.irq_iff.1 hhigh
  have hdone : s.done = true := h.done_of_done hset
  have hclear : s.irqEn = false := by simpa [State.irq, hdone] using hlow
  obtain ⟨hx, hw⟩ := h.sets_irqEn hclear hen
  exact ⟨hx, hw, hdone⟩

/-- A write to CTRL is next (R21). -/
theorem hostNext_ctrl {off : Nat} {w : Word} {rest : List Event}
    (ha : s.agenda = .host (.write (s.cfg.base + off) .w32 0xF#4 w) :: rest)
    (hx : regAt s.cfg off = .ctrl) : s.hostNext (.write (s.cfg.base + 0x0008) .w32 0xF#4 w) := by
  obtain ⟨hctrl, -⟩ := offset_of_regAt (c := s.cfg) (off := off)
  obtain rfl := hctrl hx
  exact ⟨rest, ha⟩

/-- Settles O32, by what a step did to R15's state: a completion leaves IRQ_EN, a reset lowers IRQ, and the write
that raises it goes to CTRL. -/
theorem irqRisesOnlyByCompletionOrEnable : Obligations.IrqRisesOnlyByCompletionOrEnable := by
  refine ⟨fun _ => rfl, fun s t hs hlow hhigh => ?_⟩
  rcases step_arch_cases hs with h | ⟨hb, he, hc⟩ | ⟨rest, -, h⟩ | ⟨off, w, rest, u, ha, hw, rfl⟩
  · have hkept : t.irq = s.irq := (congrArg State.irq h :)
    exact absurd (hkept.symm.trans hhigh) (by simp [hlow])
  · obtain ⟨hen, -⟩ := State.irq_iff.1 hhigh
    exact .inl ⟨hb, he, hc.irqEn.symm.trans hen⟩
  · have hreset : t.irq = false := congrArg State.irq h
    exact absurd hhigh (by simp [hreset])
  · obtain ⟨hx, hw0, hdone⟩ := hw.raises_irq hlow hhigh
    exact .inr ⟨w, hw0, hdone, hostNext_ctrl ha hx⟩

end Sys2Proof.Machine
end

section
/-! PROOFS. The reset statements: the reset source's step (R102) and the host's soft reset (R103). -/

namespace Sys2Proof.Machine

variable {s : State}

/-- R102: the reset source's step resets MEE and asserts the reset input. -/
theorem step_resetAssert {rest : List Event} (h : s.agenda = .resetAssert :: rest) :
    step s = .next ((s.withAgenda rest).resetState.setLine true) := by
  simp [step, nextTurn, takeEvent, h]

/-- R21: while IRQ_EN = 0, a read of CTRL gives 0, idle or busy, for SRST reads 0. -/
theorem answers_ctrl_of_irqEn_clear (hc : s.cfg.ok = true) (hen : s.irqEn = false) : s.answers 0x0008 0 :=
  answers_control hc ((ctrlWord_toNat s).trans (congrArg Bool.toNat hen))

/-- Settles O34: the write is served as a soft reset, and a read of CTRL gives the cleared IRQ_EN. -/
theorem softResetClearsEverything : Obligations.SoftResetClearsEverything := by
  intro s rest w hi hr hw ha
  have hstep : step s = .next ((s.resetState.respond .written).withAgenda rest) := by
    rw [step_host_live ha hr, hostAccess_softReset hi.config ⟨w, hw, rfl⟩]
  exact ⟨_, hstep, rfl, rfl, rfl, rfl, rfl, answers_ctrl_of_irqEn_clear hi.config rfl⟩

/-- Settles O33: after the reset source's step BUSY = 0, so the engine's turn has nothing to complete. -/
theorem hardwareResetClearsEverything : Obligations.HardwareResetClearsEverything := by
  intro s rest ha
  obtain ⟨-, hidleTurn⟩ := stepRunsDecodedCommand
  exact ⟨_, step_resetAssert ha, rfl, rfl, hidleTurn _ rfl⟩

end Sys2Proof.Machine
end
